-- ==== Sys2Proof/Word.lean ====
section
/-! DEFINITION. The words of the block: host registers are 32 bits wide (00_scope.md R6, REG_W), memory
accesses move one byte (20_memory.md R47), a header field is 4 bits wide (00_scope.md R5, HDR_FIELD_W). -/

namespace Sys2Proof

/-- A host-visible register (10_state.md R21, 00_scope.md R6 REG_W = 32). -/
abbrev Word := BitVec 32

/-- One byte of `IN` or `OUT` (20_memory.md R38). -/
abbrev Byte := BitVec 8

/-- A header field, copySourceWidth or copyLengthWidth, 0..15 (00_scope.md R5). -/
abbrev Nibble := BitVec 4

/-- The BitReader's bit cursor (10_state.md R16, 00_scope.md R6 POS_W = 35). -/
abbrev BitPos := BitVec 35

end Sys2Proof
end

