-- ==== Sys2Proof/Machine/Bits.lean ====
section
/-! DEFINITION. Bit sequences in stream order and their values: 00_scope.md R8 (`ceil8`), 20_memory.md R41 and
R42 (fields are read and written MSB-first, bytes are packed first bit to bit 7). -/

namespace Sys2Proof.Machine

/-- `ceil8(n)`: the smallest multiple of 8 that is at least `n` (00_scope.md R8). -/
def ceil8 (n : Nat) : Nat := (n + 7) / 8 * 8

/-- The value of a field from its bits in stream order: bit `i` of `w` weighs `2^(w−1−i)` (20_memory.md R41). -/
def bitsVal : List Bool → Nat
  | [] => 0
  | b :: bs => b.toNat * 2 ^ bs.length + bitsVal bs

/-- `v[w−1], v[w−2], …, v[0]`: the low `w` bits of `v` in the order they are appended (20_memory.md R42). -/
def valBits : Nat → Nat → List Bool
  | 0, _ => []
  | w + 1, v => v.testBit w :: valBits w v

/-- Bit `7 − i` of a byte: the byte's `i`-th bit in stream order (00_scope.md R7). -/
def byteBit (b : Byte) (i : Nat) : Bool := b.toNat.testBit (7 - i)

/-- The whole bytes of a bit sequence: byte `m` is made of the bits `8m … 8m+7`, the first of them its bit 7
(20_memory.md R42). -/
def packBytes (bits : List Bool) : List Byte :=
  (List.range (bits.length / 8)).map (fun m => BitVec.ofNat 8 (bitsVal ((bits.drop (8 * m)).take 8)))

/-- The zero bits that complete the last byte of `n` bits (41_bitwriter.md R85, 30_encoding.md R63). -/
def padBits (n : Nat) : List Bool := List.replicate (ceil8 n - n) false

end Sys2Proof.Machine
end

