-- ==== Sys2Proof/Syntax.lean ====
section
/-! DEFINITION. The instructions: one constructor per row of spec/opcode_table.json. The four stream items are
what DECODE executes (30_encoding.md R57 to R63); the twelve commands are what the host writes to CMD
(30_encoding.md R67). A command's 32-bit operand stands in the register ARG0 (10_state.md R23), not here. -/

namespace Sys2Proof

inductive Instr where
  /-- HDR: the stream header, copySourceWidth and copyLengthWidth (30_encoding.md R58). -/
  | hdr (csw clw : BitVec 4)
  /-- LIT: a literal byte (30_encoding.md R60). -/
  | lit (b : BitVec 8)
  /-- REF: a back-reference, distance and raw length, at most 15 bits each (30_encoding.md R61). -/
  | ref (distance rawLength : BitVec 15)
  /-- END: the terminator, distance 0 and any raw length (30_encoding.md R62). -/
  | endStream (rawLength : BitVec 15)
  /-- BR_INIT (40_bitreader.md R71). -/
  | brInit
  /-- BR_READ_UINT with its WIDTH field (40_bitreader.md R72). -/
  | brReadUint (width : BitVec 6)
  /-- BR_READ_BOOL (40_bitreader.md R75). -/
  | brReadBool
  /-- BR_BYTE_ALIGN (40_bitreader.md R76). -/
  | brByteAlign
  /-- BR_BYTE_POS (40_bitreader.md R78). -/
  | brBytePos
  /-- BW_INIT (41_bitwriter.md R81). -/
  | bwInit
  /-- BW_WRITE_UINT with its WIDTH field (41_bitwriter.md R82). -/
  | bwWriteUint (width : BitVec 6)
  /-- BW_PAD (41_bitwriter.md R85). -/
  | bwPad
  /-- BW_TO_BYTES (41_bitwriter.md R87). -/
  | bwToBytes
  /-- BW_BIT_LEN (41_bitwriter.md R89). -/
  | bwBitLen
  /-- DECODE (42_decoder.md R96). -/
  | decode
  /-- ENCODE (43_encoder.md R108). -/
  | encode
  deriving DecidableEq, Repr

end Sys2Proof
end

