-- ==== Sys2Proof/WellFormed.lean ====
section
/-! DEFINITION. Which instructions the encodings can hold. A token's field widths are the header's csw and clw
(30_encoding.md R65), so the check takes them; a command's WIDTH is 0..32 (30_encoding.md R68 (c)). -/

namespace Sys2Proof

/-- The instruction fits its format under the header widths `csw`, `clw`: R61's `1 ≤ d ≤ 2^csw − 1` and
`r ≤ 2^clw − 1`, R62's `r ≤ 2^clw − 1`, R68 (c)'s `WIDTH ≤ 32`. -/
def Instr.wellFormed (csw clw : BitVec 4) : Instr → Bool
  | .hdr _ _ => true
  | .lit _ => true
  | .ref d r => decide (d ≠ 0) && decide (d.toNat < 2 ^ csw.toNat) && decide (r.toNat < 2 ^ clw.toNat)
  | .endStream r => decide (r.toNat < 2 ^ clw.toNat)
  | .brInit => true
  | .brReadUint w => decide (w.toNat ≤ 32)
  | .brReadBool => true
  | .brByteAlign => true
  | .brBytePos => true
  | .bwInit => true
  | .bwWriteUint w => decide (w.toNat ≤ 32)
  | .bwPad => true
  | .bwToBytes => true
  | .bwBitLen => true
  | .decode => true
  | .encode => true

/-- The instruction is an item of the stream, not a host command. -/
def Instr.isStreamItem : Instr → Bool
  | .hdr _ _ => true
  | .lit _ => true
  | .ref _ _ => true
  | .endStream _ => true
  | .brInit => false
  | .brReadUint _ => false
  | .brReadBool => false
  | .brByteAlign => false
  | .brBytePos => false
  | .bwInit => false
  | .bwWriteUint _ => false
  | .bwPad => false
  | .bwToBytes => false
  | .bwBitLen => false
  | .decode => false
  | .encode => false

end Sys2Proof
end

