-- ==== Sys2Proof/Decode.lean ====
section
/-! DEFINITION. The two encodings, decoder and encoder.
The stream encoding (30_encoding.md sections 1 to 4): `parseHeader` and `parseToken` read an item field by field
through a reader of unsigned MSB-first fields (`brRead` of 40_bitreader.md R77), so the machine's fetch from `IN`
and the decoding of a bare bit sequence are one decoder. No bit pattern is an illegal token (30_encoding.md R66):
a parse fails only where bits run out or a byte has no value, and says which.
The command encoding (section 5): `decodeCommand` is total on 32-bit words and rejects by name (R68 (a) to (d)). -/

namespace Sys2Proof

open Sys2Proof.Machine

/-- What one field read answers (40_bitreader.md R77). -/
inductive FieldRead where
  /-- The value, and the cursor after the field. -/
  | ok (value next : Nat)
  /-- Fewer bits remain than the field has; the cursor stays where the read began (R74). -/
  | lacks (pos : Nat)
  /-- The byte at this index has no value: the host never wrote it (93_implementation_defined.md U6). -/
  | noValue (index : Nat)
  deriving DecidableEq, Repr

/-- `brRead(pos, w)` over some bit source: cursor, then width. -/
abbrev FieldReader := Nat → Nat → FieldRead

/-- What parsing one stream item answers. -/
inductive Parse where
  | item (i : Instr) (next : Nat)
  /-- A field read lacked bits; it began at this cursor (42_decoder.md R105). -/
  | lacks (pos : Nat)
  | noValue (index : Nat)
  deriving DecidableEq, Repr

/-- Goes on with a field's value and the cursor after it, or stops with the read's reason. -/
def FieldRead.andThen (r : FieldRead) (k : Nat → Nat → Parse) : Parse :=
  match r with
  | .ok v next => k v next
  | .lacks pos => .lacks pos
  | .noValue index => .noValue index

/-- HDR: `csw <- read(4); clw <- read(4)` (42_decoder.md R98, 30_encoding.md R58). -/
def parseHeader (rd : FieldReader) (pos : Nat) : Parse :=
  (rd pos 4).andThen fun csw p1 =>
  (rd p1 4).andThen fun clw p2 =>
  .item (.hdr (BitVec.ofNat 4 csw) (BitVec.ofNat 4 clw)) p2

/-- An opcode-0 token is the terminator when its distance is 0, a back-reference otherwise, whatever the raw
length (30_encoding.md R62, R66; 42_decoder.md R100). -/
def opcodeZeroItem (distance rawLength : Nat) : Instr :=
  if distance = 0 then .endStream (BitVec.ofNat 15 rawLength)
  else .ref (BitVec.ofNat 15 distance) (BitVec.ofNat 15 rawLength)

/-- A token: the opcode bit, then `distance` and `rawLength`, both read in full before `distance` is examined, or
the literal byte (42_decoder.md R99, 30_encoding.md R59 to R62). -/
def parseToken (rd : FieldReader) (csw clw : Nibble) (pos : Nat) : Parse :=
  (rd pos 1).andThen fun opcode p1 =>
  if opcode = 0 then
    (rd p1 csw.toNat).andThen fun distance p2 =>
    (rd p2 clw.toNat).andThen fun rawLength p3 =>
    .item (opcodeZeroItem distance rawLength) p3
  else
    (rd p1 8).andThen fun b p2 =>
    .item (.lit (BitVec.ofNat 8 b)) p2

/-- A reader over a bare bit sequence. -/
def listReader (bits : List Bool) : FieldReader := fun pos w =>
  if w > 0 ∧ pos + w > bits.length then .lacks pos
  else .ok (bitsVal ((bits.drop pos).take w)) (pos + w)

/-- `OP` = CMD[3:0] (30_encoding.md R67). -/
def commandOp (w : Word) : BitVec 4 := w.extractLsb' 0 4

/-- `WIDTH` = CMD[9:4] (30_encoding.md R67). -/
def commandWidth (w : Word) : BitVec 6 := w.extractLsb' 4 6

/-- CMD[31:10], reserved (30_encoding.md R67). -/
def commandReserved (w : Word) : BitVec 22 := w.extractLsb' 10 22

/-- Why a word is no command: the first of 30_encoding.md R68 (b), (a), (c), (d) that holds. Each ends with
ILLEGAL_COMMAND. -/
inductive CommandReject where
  /-- R68 (b): CMD[31:10] ≠ 0. -/
  | reservedBits
  /-- R68 (a): OP is 0x0 or 0xD..0xF. -/
  | reservedOp
  /-- R68 (c): WIDTH > 32 on BR_READ_UINT or BW_WRITE_UINT. -/
  | widthTooLarge
  /-- R68 (d): WIDTH ≠ 0 on a command that has no width. -/
  | widthNotZero
  deriving DecidableEq, Repr

/-- A command without a width: WIDTH must be 0 (30_encoding.md R68 (d)). -/
def commandWithoutWidth (w : Word) (i : Instr) : Except CommandReject Instr :=
  if commandWidth w = 0 then .ok i else .error .widthNotZero

/-- A command with a width: WIDTH is 0..32 (30_encoding.md R68 (c)). -/
def commandWithWidth (w : Word) (i : BitVec 6 → Instr) : Except CommandReject Instr :=
  if (commandWidth w).toNat ≤ 32 then .ok (i (commandWidth w)) else .error .widthTooLarge

/-- The command a word names (30_encoding.md R67), or why it names none (R68). -/
def decodeCommand (w : Word) : Except CommandReject Instr :=
  if commandReserved w ≠ 0 then .error .reservedBits
  else
    match (commandOp w).toNat with
    | 0x1 => commandWithoutWidth w .brInit
    | 0x2 => commandWithWidth w .brReadUint
    | 0x3 => commandWithoutWidth w .brReadBool
    | 0x4 => commandWithoutWidth w .brByteAlign
    | 0x5 => commandWithoutWidth w .brBytePos
    | 0x6 => commandWithoutWidth w .bwInit
    | 0x7 => commandWithWidth w .bwWriteUint
    | 0x8 => commandWithoutWidth w .bwPad
    | 0x9 => commandWithoutWidth w .bwToBytes
    | 0xA => commandWithoutWidth w .bwBitLen
    | 0xB => commandWithoutWidth w .decode
    | 0xC => commandWithoutWidth w .encode
    | _ => .error .reservedOp

/-! The encoder. -/

/-- A command word from its fields: `(WIDTH << 4) | OP` (30_encoding.md R67, R70). -/
def commandWordOf (op : BitVec 4) (width : BitVec 6) : Word :=
  (width.setWidth 32 <<< 4) ||| op.setWidth 32

/-- An instruction's encoding: a command word, or the bits of a stream item in stream order. -/
inductive Encoding where
  | word (w : Word)
  | bits (bs : List Bool)
  deriving DecidableEq, Repr

/-- The words and bits of a well-formed instruction, under the header widths `csw`, `clw` (30_encoding.md R58,
R60 to R62, R67). -/
def encode (csw clw : Nibble) : Instr → Encoding
  | .hdr c l => .bits (valBits 4 c.toNat ++ valBits 4 l.toNat)
  | .lit b => .bits (true :: valBits 8 b.toNat)
  | .ref d r => .bits (false :: (valBits csw.toNat d.toNat ++ valBits clw.toNat r.toNat))
  | .endStream r => .bits (false :: (valBits csw.toNat 0 ++ valBits clw.toNat r.toNat))
  | .brInit => .word (commandWordOf 0x1 0)
  | .brReadUint w => .word (commandWordOf 0x2 w)
  | .brReadBool => .word (commandWordOf 0x3 0)
  | .brByteAlign => .word (commandWordOf 0x4 0)
  | .brBytePos => .word (commandWordOf 0x5 0)
  | .bwInit => .word (commandWordOf 0x6 0)
  | .bwWriteUint w => .word (commandWordOf 0x7 w)
  | .bwPad => .word (commandWordOf 0x8 0)
  | .bwToBytes => .word (commandWordOf 0x9 0)
  | .bwBitLen => .word (commandWordOf 0xA 0)
  | .decode => .word (commandWordOf 0xB 0)
  | .encode => .word (commandWordOf 0xC 0)

/-- The bits of a stream item, none for a command. -/
def itemBits (csw clw : Nibble) (i : Instr) : List Bool :=
  match encode csw clw i with
  | .bits bs => bs
  | .word _ => []

/-- The length of an item in bits: 8 for HDR, 9 for LIT, `1 + csw + clw` for an opcode-0 token (30_encoding.md
R58, R65). A command is no stream item. -/
def itemLength (csw clw : Nibble) : Instr → Nat
  | .hdr _ _ => 8
  | .lit _ => 9
  | .ref _ _ => 1 + csw.toNat + clw.toNat
  | .endStream _ => 1 + csw.toNat + clw.toNat
  | .brInit => 0
  | .brReadUint _ => 0
  | .brReadBool => 0
  | .brByteAlign => 0
  | .brBytePos => 0
  | .bwInit => 0
  | .bwWriteUint _ => 0
  | .bwPad => 0
  | .bwToBytes => 0
  | .bwBitLen => 0
  | .decode => 0
  | .encode => 0

/-! The opcode table's numbering (log entry 9). -/

/-- A stream item of spec/opcode_table.json, as the phase that reads it and its bits in stream order. DESIGN
CHOICE (log entry 9, safe): the table gives HDR no fixed bits, so 0 bits stand for the header; up to 8 bits are an opcode-0
token whose bit 0 is the token's first bit (the table's mask 0b1 and its "token bit 0"); more are LIT's pattern
1bbbbbbbb, whose leftmost bit, bit 8, is the token's first. -/
inductive TableItem where
  | header (bits : List Bool)
  | token (bits : List Bool)
  deriving DecidableEq, Repr

def tableItem (nbits w : Nat) : TableItem :=
  if nbits = 0 then .header []
  else if nbits ≤ 8 then .token ((valBits 8 w).reverse)
  else .token (valBits 9 w)

/-- Every bit above the table's is 0, up to the longest item, 31 bits (30_encoding.md R65), in whole bytes. -/
def tableBits (bits : List Bool) : List Bool := bits ++ List.replicate (40 - bits.length) false

/-- The header widths the table writes its tokens out under ("encoding_csw10_clw3"). -/
def tableCsw : Nibble := 10
def tableClw : Nibble := 3

/-- The instruction of a table row from its bits: a 32-bit row is a command word, a shorter one a stream item. -/
def decodeTableWord (nbits w : Nat) : Option Instr :=
  if nbits ≥ 32 then (decodeCommand (BitVec.ofNat 32 w)).toOption
  else
    match (match tableItem nbits w with
      | .header bits => parseHeader (listReader (tableBits bits)) 0
      | .token bits => parseToken (listReader (tableBits bits)) tableCsw tableClw 0) with
    | .item i _ => some i
    | .lacks _ => none
    | .noValue _ => none

end Sys2Proof
end

