-- ==== Sys2Proof/Config.lean ====
section
/-! DEFINITION. The implementation parameters of 00_scope.md R6. The model takes them as arguments, so a
`Config` stands in the state, is fixed for the machine, and no step writes it: a statement about every state
is a statement about every choice of the parameters (92_eei_decisions.md D4). -/

namespace Sys2Proof

/-- `IN_CAP`, `OUT_CAP` and `ENC_SWEEP` (00_scope.md R6). `ENC_SWEEP` is an ordered, non-empty list of
(csw, clw) pairs, held as its first pair and the rest. -/
structure Config where
  inCap     : Nat
  outCap    : Nat
  sweepHead : Nibble × Nibble
  sweepTail : List (Nibble × Nibble)
  deriving DecidableEq, Repr

/-- `ENC_SWEEP` in the order ENCODE tries it (43_encoder.md R109). -/
def Config.sweep (c : Config) : List (Nibble × Nibble) := c.sweepHead :: c.sweepTail

/-- The default sweep: csw is the outer loop, clw the inner loop, both ascending (43_encoder.md R109, D12). -/
def defaultSweep : List (Nibble × Nibble) :=
  [(10, 3), (10, 4), (10, 5), (11, 3), (11, 4), (11, 5)]

/-- The values R6 allows: 1 ≤ cap ≤ 2^28 for both memories, and a sweep that holds the six default pairs. -/
def Config.legal (c : Config) : Bool :=
  decide (1 ≤ c.inCap) && decide (c.inCap ≤ 2 ^ 28) && decide (1 ≤ c.outCap) && decide (c.outCap ≤ 2 ^ 28)
    && defaultSweep.all (fun p => c.sweep.contains p)

/-- The configuration `State.reset` takes: the default sweep (43_encoder.md R109) and, DESIGN CHOICE (log entry
3, unsafe for a claim about reset only), the smallest capacities 95_test_vectors.md assumes, 65536 bytes each. -/
def Config.default : Config :=
  { inCap := 65536, outCap := 65536, sweepHead := (10, 3),
    sweepTail := [(10, 4), (10, 5), (11, 3), (11, 4), (11, 5)] }

end Sys2Proof
end

