-- ==== Sys2Proof/Machine/Memory.lean ====
section
/-! DEFINITION. A byte memory as plain data: (index, byte) pairs with strictly rising indexes. What an unlisted
index reads as: NO VALUE, since the contents of `IN` and `OUT` after reset are unspecified and a model read of a
byte nobody wrote faults (10_state.md R37, 93_implementation_defined.md U6, log entries 4 and 5). No entry can
equal that, so strictly rising indexes are the whole canonical form. -/

namespace Sys2Proof.Machine

abbrev Memory := List Host.Cell

/-- The byte at an index, none where nothing has been written (00_scope.md R9, MemRead). -/
def memRead : Memory → Nat → Option Byte
  | [], _ => none
  | (a, b) :: m, i => if i = a then some b else memRead m i

/-- Writes one byte (00_scope.md R9, MemWrite), keeping the indexes strictly rising. -/
def memWrite : Memory → Nat → Byte → Memory
  | [], i, v => [(i, v)]
  | (a, b) :: m, i, v =>
    if i < a then (i, v) :: (a, b) :: m
    else if i = a then (i, v) :: m
    else (a, b) :: memWrite m i v

/-- The bytes `vs` written one by one at `i`, `i + 1`, … -/
def memWriteList : Memory → Nat → List Byte → Memory
  | m, _, [] => m
  | m, i, v :: vs => memWriteList (memWrite m i v) (i + 1) vs

/-- The `n` bytes from index `i`, none if one of them has no value. -/
def memReadList (m : Memory) : Nat → Nat → Option (List Byte)
  | _, 0 => some []
  | i, n + 1 =>
    match memRead m i, memReadList m (i + 1) n with
    | some b, some bs => some (b :: bs)
    | _, _ => none

/-- Every index of the memory is above `lo`, and they rise strictly. -/
def memRisingFrom : Nat → Memory → Bool
  | _, [] => true
  | lo, (a, _) :: m => decide (lo ≤ a) && memRisingFrom (a + 1) m

/-- The canonical form: the indexes rise strictly. -/
def Memory.wf (m : Memory) : Bool := memRisingFrom 0 m

/-- Every listed index exists in a memory of `cap` bytes (20_memory.md R38). -/
def memBelow (cap : Nat) (m : Memory) : Bool := m.all (fun c => decide (c.1 < cap))

/-- A memory from the bytes at 0, 1, … -/
def memOfList (bs : List Byte) : Memory := memWriteList [] 0 bs

end Sys2Proof.Machine
end

