-- ==== Sys2Proof/Machine/State.lean ====
section
/-! DEFINITION. The state of the block: every register, memory and transient of 10_state.md as plain data, the
parameters of 00_scope.md R6, and the host agent's pending moves (10_state.md R12). -/

namespace Sys2Proof.Machine

/-- The error codes of 60_exceptions.md R120, named; the numbers are `ErrCode.code` in Machine/Flags.lean. -/
inductive ErrCode where
  | none
  | outOfData
  | malformedStream
  | capacityExceeded
  | distanceOutOfRange
  | valueTooWide
  | notAligned
  | illegalCommand
  | outputOverflow
  deriving DecidableEq, Repr

/-- STATUS (10_state.md R24): BUSY, DONE, ERR and ERRCODE. The host cannot write it and its other bits read 0,
so the fields are the whole register; `Status.word` in Machine/Flags.lean is the word the host reads. -/
structure Status where
  busy    : Bool
  done    : Bool
  err     : Bool
  errcode : ErrCode
  deriving DecidableEq, Repr

/-- `dec_phase` (10_state.md R19, 42_decoder.md R92). -/
inductive DecPhase where
  | readHeader
  | tokenLoop
  | done
  deriving DecidableEq, Repr

/-- The decoder's transient registers (10_state.md R19). -/
structure DecRegs where
  phase     : DecPhase
  csw       : BitVec 4
  clw       : BitVec 4
  start     : BitVec 32
  opcode    : BitVec 1
  distance  : BitVec 15
  rawLength : BitVec 15
  length    : BitVec 16
  i         : BitVec 16
  deriving DecidableEq, Repr

/-- The match search's registers at one position (10_state.md R20): the candidate distance `d`, the extension
counter `j`, `bestDistance` and `bestLength` (43_encoder.md R112, R113). -/
structure Search where
  d            : Nat
  j            : Nat
  bestDistance : Nat
  bestLength   : Nat
  deriving DecidableEq, Repr

/-- The best trial so far (10_state.md R20): `bestSize` and `tBest`, with the trial's pair and bits, which an
implementation may keep (43_encoder.md R116, D27, log entry 12). -/
structure BestTrial where
  size : Nat
  t    : Nat
  csw  : BitVec 4
  clw  : BitVec 4
  tw   : List Bool
  deriving DecidableEq, Repr

/-- The encoder's transient registers (10_state.md R20). `best` is none while `bestSize` is infinite
(43_encoder.md R108). -/
structure EncRegs where
  t            : Nat
  csw          : BitVec 4
  clw          : BitVec 4
  currentIndex : BitVec 32
  searchLimit  : Nat
  maxMatchLen  : Nat
  search       : Search
  tw           : List Bool
  best         : Option BestTrial
  deriving DecidableEq, Repr

/-- What the engine is doing. A transient exists only while its command runs (10_state.md section 2). -/
inductive Engine where
  | idle
  | decoding (r : DecRegs)
  | encoding (e : EncRegs)
  deriving DecidableEq, Repr

/-- A move of the host agent (10_state.md R12, 30_encoding.md R70, 70_reset_and_hazards.md R134 to R137). -/
inductive HostOp where
  /-- Writes a 32-bit register by its offset; a write to CMD issues a command (10_state.md R29). -/
  | writeReg (offset : BitVec 8) (v : BitVec 32)
  /-- Reads a 32-bit register by its offset. -/
  | readReg (offset : BitVec 8)
  /-- `IN[i] <- b`. -/
  | writeIn (i : Nat) (b : BitVec 8)
  | readIn (i : Nat)
  | readOut (i : Nat)
  /-- `IN[j] <- OUT[i]`, the host's copy of 20_memory.md R56. -/
  | copyOut (i j : Nat)
  /-- Poll STATUS until DONE = 1 (30_encoding.md R70). -/
  | wait
  /-- The reset event (70_reset_and_hazards.md R134). -/
  | reset
  deriving DecidableEq, Repr

/-- The state. `host` and `hostData` are the model's own fields (log entries 2 and 10); `cfg` is fixed for the machine (log
entry 3). -/
structure State where
  cmd      : BitVec 32
  arg0     : BitVec 32
  status   : Status
  result   : BitVec 32
  hdrCsw   : BitVec 4
  hdrClw   : BitVec 4
  inLen    : BitVec 32
  outLen   : BitVec 32
  brPos    : BitVec 35
  bwBits   : List Bool
  inMem    : Memory
  outMem   : Memory
  engine   : Engine
  host     : List HostOp
  hostData : BitVec 32
  cfg      : Config
  deriving DecidableEq, Repr

/-- Why the machine stops with a fault. The spec's own errors are no faults: they complete a command
(60_exceptions.md R124). -/
inductive Fault where
  /-- Raised by a bit read, by ENCODE and by a host read of `IN` at a byte the host never wrote
  (93_implementation_defined.md U6, D26). Safe: the hardware goes on with some value. -/
  | inByteUnwritten (index : Nat)
  /-- Raised by a host access to `IN` at an index at or above `IN_CAP`, which does not exist (20_memory.md R38).
  Safe. -/
  | inIndexPastCap (index : Nat)
  /-- Raised by a write to `OUT` at an index at or above `OUT_CAP`, which does not exist (20_memory.md R38). Safe.
  Only in states no run reaches: the commands check the capacity first. -/
  | outIndexPastCap (index : Nat)
  /-- Raised by a read of an `OUT` byte that holds no value (10_state.md R37). Safe. Only in states no run
  reaches: every byte below OUT_LEN has been written. -/
  | outByteUnspecified (index : Nat)
  deriving DecidableEq, Repr

/-- Why an instruction or a host move has no meaning. -/
inductive Refusal where
  /-- Raised by `exec`'s arm of an instruction that has no meaning yet, by name. Safe. -/
  | notModelled (mnemonic : String)
  /-- Raised by a host write of CMD, ARG0, IN_LEN or `IN`, and a host access to `IN` or `OUT`, while BUSY = 1: the host has no such move
  (70_reset_and_hazards.md R137 (a), 20_memory.md R53, U9). Safe. -/
  | hostMoveWhileBusy
  /-- Raised by a host register access whose offset is not a multiple of 4: the host has no such move (20_memory.md R46,
  70_reset_and_hazards.md R137 (c), U10). Safe. -/
  | misalignedRegister (offset : BitVec 8)
  /-- Raised by a host read of `OUT[i]` with `i ≥ OUT_LEN`: the host has no such move (70_reset_and_hazards.md
  R137 (b), U8). Safe. -/
  | outReadPastLength (index : Nat)
  /-- Raised by a stream item run while DECODE is not in the phase that runs it (10_state.md R19, 42_decoder.md
  R92): no transition exists there. Safe. -/
  | itemOutOfPhase
  deriving DecidableEq, Repr

/-- STATUS after reset: idle, nothing completed, no error (10_state.md R24, R37). -/
def Status.reset : Status := { busy := false, done := false, err := false, errcode := .none }

/-- The machine right after reset under a configuration, with host moves pending (10_state.md R37,
70_reset_and_hazards.md R134, R135). -/
def State.resetWith (cfg : Config) (host : List HostOp) (hostData : BitVec 32) : State :=
  { cmd := 0, arg0 := 0, status := Status.reset, result := 0, hdrCsw := 0, hdrClw := 0, inLen := 0, outLen := 0,
    brPos := 0, bwBits := [], inMem := [], outMem := [], engine := .idle, host := host, hostData := hostData,
    cfg := cfg }

/-- The machine right after reset (10_state.md R37), no host move pending (log entry 2). -/
def State.reset : State := State.resetWith Config.default [] 0

end Sys2Proof.Machine
end

