-- ==== Sys2Proof/Machine/Flags.lean ====
section
/-! DEFINITION. The block's only flags: STATUS.BUSY, DONE, ERR and ERRCODE (10_state.md R35), which only the
lifecycle rules R29 to R31 write. -/

namespace Sys2Proof.Machine

/-- The numeric error codes (60_exceptions.md R120). 9..15 are never reported. -/
def ErrCode.code : ErrCode → BitVec 4
  | .none => 0
  | .outOfData => 1
  | .malformedStream => 2
  | .capacityExceeded => 3
  | .distanceOutOfRange => 4
  | .valueTooWide => 5
  | .notAligned => 6
  | .illegalCommand => 7
  | .outputOverflow => 8

/-- The STATUS word a host read returns: BUSY [0], DONE [1], ERR [2], bit 3 reads 0, ERRCODE [7:4], [31:8] read 0
(10_state.md R24). -/
def Status.word (st : Status) : Word :=
  (0#24 ++ st.errcode.code ++ 0#1 ++ BitVec.ofBool st.err ++ BitVec.ofBool st.done ++ BitVec.ofBool st.busy)

/-- STATUS at issue (10_state.md R29). -/
def Status.issued : Status := { busy := true, done := false, err := false, errcode := .none }

/-- STATUS after completion without error (10_state.md R30). -/
def Status.completed : Status := { busy := false, done := true, err := false, errcode := .none }

/-- STATUS after completion with error `e` (10_state.md R31). -/
def Status.failed (e : ErrCode) : Status := { busy := false, done := true, err := true, errcode := e }

/-- The HDR word a host read returns (10_state.md R26). -/
def hdrWord (csw clw : Nibble) : Word := 0#24 ++ csw ++ clw

/-- The BitReader is aligned: not a stored flag but a predicate on the cursor (10_state.md R35). -/
def bitAligned (n : Nat) : Bool := decide (n % 8 = 0)

end Sys2Proof.Machine
end

