-- ==== Sys2Proof/Machine/Ops.lean ====
section
/-! DEFINITION. The named operations on the state: the command lifecycle (10_state.md R29 to R31), ending a
command with an error as one operation (60_exceptions.md R123, R124), the cursor, and `OUT`. -/

namespace Sys2Proof.Machine

/-- The three outcomes of a step of this machine. -/
abbrev Exec := Host.Outcome State Fault Refusal

/-- Goes on from a next state, or stops. -/
def andThen (x : Exec) (k : State → Exec) : Exec :=
  match x with
  | .next s => k s
  | .fault r => .fault r
  | .refused r => .refused r

/-! The command lifecycle. -/

/-- Issue (10_state.md R29): CMD holds the word, STATUS is BUSY alone. An error of an earlier command ends here: it
lasts until the next issue, and there is nothing else to return from (60_exceptions.md R125). -/
def issue (w : Word) (s : State) : State := { s with cmd := w, status := Status.issued }

/-- Completion without error (10_state.md R30): RESULT is the command's result, 0 where its rule names none. The
transients end with the command (10_state.md R36 (b)). -/
def complete (r : Word) (s : State) : State :=
  { s with status := Status.completed, result := r, engine := .idle }

/-- Ending a command with an error (10_state.md R31; 60_exceptions.md R123, R124): STATUS reports it, RESULT is
`info` (0 except for CAPACITY_EXCEEDED), the transients end. Nothing else is saved and nothing is masked or entered: an error is no trap. -/
def raise (e : ErrCode) (info : Word) (s : State) : State :=
  { s with status := Status.failed e, result := info, engine := .idle }

/-- DECODE withholds its output when it fails: OUT_LEN is 0 and `OUT` is unspecified (60_exceptions.md R123), so
no byte of it keeps a value (log entry 5, safe). -/
def withholdOutput (s : State) : State := { s with outLen := 0, outMem := [] }

/-- DECODE ending with an error, from the state the failing step leaves (60_exceptions.md R123). -/
def raiseDecode (e : ErrCode) (s : State) : State := raise e 0 (withholdOutput s)

/-- A command: refused while another runs (70_reset_and_hazards.md R137 (a)), issued otherwise, ILLEGAL_COMMAND when IN_LEN > `IN_CAP` before
anything else (30_encoding.md R68 (e)), then its body. -/
def command (w : Word) (body : State → Exec) (s : State) : Exec :=
  if s.status.busy then .refused .hostMoveWhileBusy
  else if s.inLen.toNat > s.cfg.inCap then .next (raise .illegalCommand 0 (issue w s))
  else body (issue w s)

/-- An illegal command word: CMD holds it, and nothing else but STATUS and RESULT changes (30_encoding.md R68,
60_exceptions.md R123). -/
def illegalCommand (w : Word) (s : State) : Exec :=
  if s.status.busy then .refused .hostMoveWhileBusy
  else .next (raise .illegalCommand 0 (issue w s))

/-! The cursor. -/

/-- `br_pos <- n`, 35 bits wide (10_state.md R16). -/
def setBrPos (n : Nat) (s : State) : State := { s with brPos := BitVec.ofNat 35 n }

/-- `br_pos <- br_pos + n`. -/
def advance (n : Nat) (s : State) : State := setBrPos (s.brPos.toNat + n) s

/-! The memories (00_scope.md R9). -/

/-- `IN[0..IN_LEN-1]`, none if the host has not written all of it (10_state.md R14). -/
def inputBytes (s : State) : Option (List Byte) := memReadList s.inMem 0 s.inLen.toNat

/-- The first byte of `IN` below IN_LEN that has no value; IN_LEN if there is none. -/
def firstUnwritten (m : Memory) : Nat → Nat → Nat
  | i, 0 => i
  | i, n + 1 => if (memRead m i).isSome then firstUnwritten m (i + 1) n else i

/-- Appends one byte: `MemWrite(OUT:OUT_LEN, 1, b); OUT_LEN <- OUT_LEN + 1` (42_decoder.md R102, R103). -/
def appendOut (b : Byte) (s : State) : Exec :=
  if s.outLen.toNat < s.cfg.outCap then
    .next { s with outMem := memWrite s.outMem s.outLen.toNat b, outLen := s.outLen + 1 }
  else .fault (.outIndexPastCap s.outLen.toNat)

/-- One step of a back-reference copy: append `OUT[OUT_LEN − distance]` (42_decoder.md R102). -/
def copyByte (distance : Nat) (s : State) : Exec :=
  match memRead s.outMem (s.outLen.toNat - distance) with
  | some b => appendOut b s
  | none => .fault (.outByteUnspecified (s.outLen.toNat - distance))

/-- The copy, byte by byte, each read seeing every earlier write (42_decoder.md R102, 20_memory.md R53,
70_reset_and_hazards.md R138). -/
def copyBytes (distance : Nat) : Nat → State → Exec
  | 0, s => .next s
  | n + 1, s => andThen (copyByte distance s) (copyBytes distance n)

/-- Writes a whole byte sequence to `OUT[0..]` and sets OUT_LEN to its length (41_bitwriter.md R87,
43_encoder.md R117). -/
def putOut (bs : List Byte) (s : State) : Exec :=
  if bs.length ≤ s.cfg.outCap then
    .next { s with outMem := memWriteList s.outMem 0 bs, outLen := BitVec.ofNat 32 bs.length }
  else .fault (.outIndexPastCap s.cfg.outCap)

/-- The engine runs no command. -/
def engineIdle (s : State) : Bool :=
  match s.engine with
  | .idle => true
  | .decoding _ => false
  | .encoding _ => false

end Sys2Proof.Machine
end

