-- ==== Sys2Proof/Machine/Operands.lean ====
section
/-! DEFINITION. The operand forms: unsigned MSB-first fields of `IN` at a bit cursor (20_memory.md R41,
40_bitreader.md R77), fields appended to a bit sequence (41_bitwriter.md R86), the CMD.WIDTH and ARG0 operands. -/

namespace Sys2Proof.Machine

/-- `StreamBit(k)`: bit 7 − k mod 8 of byte k div 8 (00_scope.md R9); the index of the byte if it has no value. -/
def streamBit (m : Memory) (k : Nat) : Except Nat Bool :=
  match memRead m (k / 8) with
  | some b => .ok (byteBit b (k % 8))
  | none => .error (k / 8)

/-- The `w` stream bits from `pos`, in stream order. -/
def streamBits (m : Memory) : Nat → Nat → Except Nat (List Bool)
  | _, 0 => .ok []
  | pos, w + 1 =>
    match streamBit m pos with
    | .error i => .error i
    | .ok b =>
      match streamBits m (pos + 1) w with
      | .error i => .error i
      | .ok bs => .ok (b :: bs)

/-- `brRead(pos, w)` over `IN[0..inLen-1]` (40_bitreader.md R77): lacking when `w > 0` and `pos + w > 8·IN_LEN`,
else the field's value and the cursor after it. A width of 0 reads no bit (R73). -/
def brRead (m : Memory) (inLen : Nat) : FieldReader := fun pos w =>
  if w > 0 ∧ pos + w > 8 * inLen then .lacks pos
  else
    match streamBits m pos w with
    | .ok bs => .ok (bitsVal bs) (pos + w)
    | .error i => .noValue i

/-- The state's reader. -/
def inReader (s : State) : FieldReader := brRead s.inMem s.inLen.toNat

/-- `twWrite(tw, v, w)` (41_bitwriter.md R86, 20_memory.md R42). -/
def twWrite (tw : List Bool) (v w : Nat) : List Bool := tw ++ valBits w v

/-- `twPad(tw)` (41_bitwriter.md R86). -/
def twPad (tw : List Bool) : List Bool := tw ++ padBits tw.length

/-- `twBytes(tw)` (41_bitwriter.md R86). -/
def twBytes (tw : List Bool) : List Byte := packBytes tw

/-- ARG0 of BR_INIT and DECODE: `startByteOffset`, as a bit cursor `8·ARG0` (10_state.md R23; 40_bitreader.md
R71; 42_decoder.md R97). -/
def startBit (s : State) : Nat := 8 * s.arg0.toNat

/-- ARG0 of ENCODE: the limit, `OUT_CAP` when ARG0 = 0, else the smaller of the two (43_encoder.md R108). -/
def encodeLimit (s : State) : Nat :=
  if s.arg0 = 0 then s.cfg.outCap else min s.arg0.toNat s.cfg.outCap

end Sys2Proof.Machine
end

