-- ==== Sys2Proof/Machine/BitReader.lean ====
section
/-! DEFINITION. The BitReader commands (40_bitreader.md R71 to R78). -/

namespace Sys2Proof.Machine

/-- BR_INIT: `br_pos <- 8·ARG0`, unchecked (40_bitreader.md R71). -/
def execBrInit (s : State) : Exec :=
  command (commandWordOf 0x1 0) (fun t => .next (complete 0 (setBrPos (startBit t) t))) s

/-- Reads a `w`-bit field at the cursor, RESULT its value; OUT_OF_DATA leaves the cursor (40_bitreader.md R72 to
R74). -/
def readField (w : Nat) (s : State) : Exec :=
  match inReader s s.brPos.toNat w with
  | .ok v next => .next (complete (BitVec.ofNat 32 v) (setBrPos next s))
  | .lacks _ => .next (raise .outOfData 0 s)
  | .noValue i => .fault (.inByteUnwritten i)

/-- BR_READ_UINT (40_bitreader.md R72, R73). A width above 32 is an illegal command word (30_encoding.md
R68 (c)). -/
def execBrReadUint (width : BitVec 6) (s : State) : Exec :=
  if width.toNat ≤ 32 then command (commandWordOf 0x2 width) (readField width.toNat) s
  else illegalCommand (commandWordOf 0x2 width) s

/-- BR_READ_BOOL: a read of width 1, RESULT 0 or 1 (40_bitreader.md R75). -/
def execBrReadBool (s : State) : Exec := command (commandWordOf 0x3 0) (readField 1) s

/-- BR_BYTE_ALIGN: `br_pos <- ceil8(br_pos)` (40_bitreader.md R76). -/
def execBrByteAlign (s : State) : Exec :=
  command (commandWordOf 0x4 0) (fun t => .next (complete 0 (setBrPos (ceil8 t.brPos.toNat) t))) s

/-- BR_BYTE_POS: NOT_ALIGNED off a byte boundary, else RESULT is `br_pos div 8` (40_bitreader.md R78). -/
def execBrBytePos (s : State) : Exec :=
  command (commandWordOf 0x5 0) (fun t =>
    if bitAligned t.brPos.toNat then .next (complete (BitVec.ofNat 32 (t.brPos.toNat / 8)) t)
    else .next (raise .notAligned 0 t)) s

end Sys2Proof.Machine
end

