-- ==== Sys2Proof/Machine/BitWriter.lean ====
section
/-! DEFINITION. The BitWriter commands (41_bitwriter.md R81 to R89). -/

namespace Sys2Proof.Machine

/-- BW_INIT: an empty writer; `OUT` and OUT_LEN stay (41_bitwriter.md R81). -/
def execBwInit (s : State) : Exec :=
  command (commandWordOf 0x6 0) (fun t => .next (complete 0 { t with bwBits := [] })) s

/-- Appends ARG0 as a `w`-bit field: VALUE_TOO_WIDE first, then OUTPUT_OVERFLOW, else the bits MSB-first
(41_bitwriter.md R82 to R84, 60_exceptions.md R122). -/
def writeField (w : Nat) (s : State) : Exec :=
  if s.arg0.toNat ≥ 2 ^ w then .next (raise .valueTooWide 0 s)
  else if s.bwBits.length + w > 8 * s.cfg.outCap then .next (raise .outputOverflow 0 s)
  else .next (complete 0 { s with bwBits := twWrite s.bwBits s.arg0.toNat w })

/-- BW_WRITE_UINT (41_bitwriter.md R82). A width above 32 is an illegal command word (30_encoding.md R68 (c)). -/
def execBwWriteUint (width : BitVec 6) (s : State) : Exec :=
  if width.toNat ≤ 32 then command (commandWordOf 0x7 width) (writeField width.toNat) s
  else illegalCommand (commandWordOf 0x7 width) s

/-- BW_PAD: zero bits to the next byte boundary (41_bitwriter.md R85). -/
def execBwPad (s : State) : Exec :=
  command (commandWordOf 0x8 0) (fun t => .next (complete 0 { t with bwBits := twPad t.bwBits })) s

/-- BW_TO_BYTES: NOT_ALIGNED for a partial last byte, else the bytes to `OUT[0..]`, OUT_LEN and RESULT their
number; `bw_bits` stays (41_bitwriter.md R87, R88). -/
def execBwToBytes (s : State) : Exec :=
  command (commandWordOf 0x9 0) (fun t =>
    if bitAligned t.bwBits.length then
      andThen (putOut (twBytes t.bwBits) t) (fun u => .next (complete (BitVec.ofNat 32 (t.bwBits.length / 8)) u))
    else .next (raise .notAligned 0 t)) s

/-- BW_BIT_LEN: RESULT is `bw_len` (41_bitwriter.md R89). -/
def execBwBitLen (s : State) : Exec :=
  command (commandWordOf 0xA 0) (fun t => .next (complete (BitVec.ofNat 32 t.bwBits.length) t)) s

end Sys2Proof.Machine
end

