-- ==== Sys2Proof/Machine/Tokens.lean ====
section
/-! DEFINITION. The stream items DECODE executes (42_decoder.md R98 to R103). An item runs at the cursor it was
fetched from, in the phase that runs it (R92), and moves the cursor past its bits (10_state.md R33). -/

namespace Sys2Proof.Machine

/-- The decoder's registers with `dec_phase` at `p`; a refusal anywhere else. -/
def inPhase (p : DecPhase) (k : DecRegs → Exec) (s : State) : Exec :=
  match s.engine with
  | .decoding r => if r.phase = p then k r else .refused .itemOutOfPhase
  | .idle => .refused .itemOutOfPhase
  | .encoding _ => .refused .itemOutOfPhase

/-- The state with the decoder's registers at `r`. -/
def setDec (r : DecRegs) (s : State) : State := { s with engine := .decoding r }

/-- `length <- rawLength + 3`, exactly, in 16 bits (30_encoding.md R64). -/
def copyLength (rawLength : BitVec 15) : BitVec 16 := rawLength.setWidth 16 + 3

/-- The registers after an opcode-0 token's fields are read (42_decoder.md R96, R99). The spec gives the copy counter
`i` a value inside the copy loop only (R102); that it is 0 once the fields are read, also of a terminator, is the
model's choice (DESIGN CHOICE, log entry 22). -/
def latchFields (distance rawLength : BitVec 15) (r : DecRegs) : DecRegs :=
  { r with opcode := 0, distance := distance, rawLength := rawLength, length := copyLength rawLength, i := 0 }

/-- HDR: the header fields go to `csw`, `clw`, `hdr_csw`, `hdr_clw`, and the token loop begins (42_decoder.md
R98). -/
def execHdr (csw clw : BitVec 4) (s : State) : Exec :=
  inPhase .readHeader (fun r =>
    .next (setDec { r with phase := .tokenLoop, csw := csw, clw := clw }
      { advance 8 s with hdrCsw := csw, hdrClw := clw })) s

/-- LIT: OUTPUT_OVERFLOW when OUT_LEN = `OUT_CAP`, else the byte is appended (42_decoder.md R103, R106). -/
def execLit (b : BitVec 8) (s : State) : Exec :=
  inPhase .tokenLoop (fun r =>
    let t := setDec { r with opcode := 1 } (advance 9 s)
    if t.outLen.toNat + 1 > t.cfg.outCap then .next (raiseDecode .outputOverflow t)
    else appendOut b t) s

/-- The terminator: the loop exits, `dec_phase` is DONE, and nothing else is examined (42_decoder.md R100). -/
def exitLoop (r : DecRegs) (s : State) : Exec := .next (setDec { r with phase := .done } s)

/-- The copy of a back-reference from the registers `distance` and `length`: DISTANCE_OUT_OF_RANGE, then
OUTPUT_OVERFLOW, both before the first byte (42_decoder.md R101, R102, R106; 60_exceptions.md R122). That the counter
`i` holds `length` after the loop is the model's choice (DESIGN CHOICE, log entry 22). -/
def expandRef (r : DecRegs) (s : State) : Exec :=
  if r.distance.toNat > s.outLen.toNat then .next (raiseDecode .distanceOutOfRange s)
  else if s.outLen.toNat + r.length.toNat > s.cfg.outCap then .next (raiseDecode .outputOverflow s)
  else andThen (copyBytes r.distance.toNat r.length.toNat s) (fun t => .next (setDec { r with i := r.length } t))

/-- An opcode-0 token: its fields are latched and consumed, distance 0 ends the stream whatever the raw length,
any other is a back-reference (42_decoder.md R99 to R102, 30_encoding.md R66). -/
def opcodeZero (distance rawLength : BitVec 15) (s : State) : Exec :=
  inPhase .tokenLoop (fun r =>
    let r' := latchFields distance rawLength r
    let t := setDec r' (advance (1 + r.csw.toNat + r.clw.toNat) s)
    if r'.distance = 0 then exitLoop r' t else expandRef r' t) s

/-- REF: the back-reference copy (42_decoder.md R101, R102, R106). -/
def execRef (distance rawLength : BitVec 15) (s : State) : Exec := opcodeZero distance rawLength s

/-- END: the terminator, distance 0 and any raw length (42_decoder.md R100). -/
def execEndStream (rawLength : BitVec 15) (s : State) : Exec := opcodeZero 0 rawLength s

/-- The meaning of a fetched stream item; a command is none. -/
def execItem (i : Instr) (s : State) : Exec :=
  match i with
  | .hdr csw clw => execHdr csw clw s
  | .lit b => execLit b s
  | .ref d r => execRef d r s
  | .endStream r => execEndStream r s
  | .brInit | .brReadUint _ | .brReadBool | .brByteAlign | .brBytePos | .bwInit | .bwWriteUint _ | .bwPad
  | .bwToBytes | .bwBitLen | .decode | .encode => .refused .itemOutOfPhase

end Sys2Proof.Machine
end

