-- ==== Sys2Proof/Machine/Decoder.lean ====
section
/-! DEFINITION. The decoder as a state machine (42_decoder.md R91 to R97, R104, R105): fetching the item at the
cursor, one engine step, the exit. -/

namespace Sys2Proof.Machine

/-- The decoder's registers when DECODE begins: `READ_HEADER`, `start` = ARG0. The other registers hold no value
before they are read (10_state.md R19); the model holds 0 there (log entry 11, unobservable). -/
def DecRegs.init (start : BitVec 32) : DecRegs :=
  { phase := .readHeader, csw := 0, clw := 0, start := start, opcode := 0, distance := 0, rawLength := 0,
    length := 0, i := 0 }

/-- `br_pos <- 8·ARG0; OUT_LEN <- 0` (42_decoder.md R97). -/
def beginDecode (s : State) : State :=
  setDec (DecRegs.init s.arg0) { setBrPos (startBit s) s with outLen := 0 }

/-- The item at the cursor, by the phase that reads it (42_decoder.md R92, R98, R99). In `DONE` nothing is
fetched. -/
def fetchItem (r : DecRegs) (s : State) : Option Parse :=
  match r.phase with
  | .readHeader => some (parseHeader (inReader s) s.brPos.toNat)
  | .tokenLoop => some (parseToken (inReader s) r.csw r.clw s.brPos.toNat)
  | .done => none

/-- The exit: `br_pos <- ceil8(br_pos); RESULT <- br_pos div 8 − ARG0` (42_decoder.md R104). -/
def exitDecode (r : DecRegs) (s : State) : State :=
  complete (BitVec.ofNat 32 (ceil8 s.brPos.toNat / 8 - r.start.toNat)) (setBrPos (ceil8 s.brPos.toNat) s)

/-- One step of the decoder: the exit in `DONE`, else the item at the cursor; where bits run out, MALFORMED_STREAM
with the cursor at the start of the failing read (42_decoder.md R93, R105). -/
def decoderStep (r : DecRegs) (s : State) : Exec :=
  match fetchItem r s with
  | none => .next (exitDecode r s)
  | some (.item i _) => execItem i s
  | some (.lacks pos) => .next (raiseDecode .malformedStream (setBrPos pos s))
  | some (.noValue i) => .fault (.inByteUnwritten i)

/-- A bound on DECODE's engine steps: the header, at most `max(0, 8·(IN_LEN − s) − 8) + 1` token steps, the exit
(42_decoder.md R94). -/
def decodeBound (s : State) : Nat := 1 + ((8 * (s.inLen.toNat - s.arg0.toNat) - 8) + 1) + 1

end Sys2Proof.Machine
end

