-- ==== Sys2Proof/Machine/Encoder.lean ====
section
/-! DEFINITION. The greedy encoder (43_encoder.md R108 to R118). `L` is `IN[0..IN_LEN-1]` and `n` its length. One
engine step is one position of a trial (R111 to R114) or a trial's end (R115, R116), the last with the capacity
check and the commit (R117, R118). -/

namespace Sys2Proof.Machine

/-- `searchLimit = min(currentIndex, 2^csw − 1)` (43_encoder.md R111). -/
def searchLimitOf (csw : Nibble) (cur : Nat) : Nat := min cur (2 ^ csw.toNat - 1)

/-- `maxMatchLen = min(2^clw − 1 + 3, n − currentIndex)` (43_encoder.md R112). -/
def maxMatchLenOf (clw : Nibble) (n cur : Nat) : Nat := min (2 ^ clw.toNat - 1 + 3) (n - cur)

/-- Extends a match from `j` by at most `fuel` bytes while `L[cur − d + j] = L[cur + j]` (43_encoder.md R112).
Both indexes stay below `n` while `cur + j < cur + maxMatchLen`, so the bytes exist. -/
def extendMatch (L : List Byte) (cur d : Nat) : Nat → Nat → Nat
  | 0, j => j
  | fuel + 1, j => if L[cur - d + j]? = L[cur + j]? then extendMatch L cur d fuel (j + 1) else j

/-- `matchLen(d)` (43_encoder.md R112). -/
def matchLen (L : List Byte) (cur maxLen d : Nat) : Nat := extendMatch L cur d maxLen 0

/-- The registers before the first candidate: `bestLength = bestDistance = 0` (43_encoder.md R113). -/
def Search.init : Search := { d := 0, j := 0, bestDistance := 0, bestLength := 0 }

/-- One candidate: a strictly longer match replaces the best (43_encoder.md R113). -/
def tryCandidate (L : List Byte) (cur maxLen : Nat) (b : Search) (d : Nat) : Search :=
  let j := matchLen L cur maxLen d
  if j > b.bestLength then { d := d, j := j, bestDistance := d, bestLength := j }
  else { b with d := d, j := j }

/-- The search at one position: `d = 1, 2, …, searchLimit` in increasing order (43_encoder.md R111, R113). That `d` and
`j` keep the last candidate's values after it, and are 0 where there is none, is the model's choice (DESIGN CHOICE, log
entry 22). -/
def searchAt (L : List Byte) (cur limit maxLen : Nat) : Search :=
  (List.range' 1 limit).foldl (tryCandidate L cur maxLen) Search.init

/-- The bits of the token emitted at one position and how far `currentIndex` moves (43_encoder.md R114): a
back-reference for a match of at least 3 bytes, else the literal `L[currentIndex]`. -/
def emitToken (L : List Byte) (csw clw : Nibble) (cur : Nat) (b : Search) (tw : List Bool) : List Bool × Nat :=
  if b.bestLength ≥ 3 then
    (twWrite (twWrite (twWrite tw 0 1) b.bestDistance csw.toNat) (b.bestLength - 3) clw.toNat, b.bestLength)
  else (twWrite (twWrite tw 1 1) (L[cur]?.getD 0).toNat 8, 1)

/-- Trial start: the header, `currentIndex` 0 (43_encoder.md R110). -/
def trialHeader (csw clw : Nibble) : List Bool := twWrite (twWrite [] csw.toNat 4) clw.toNat 4

/-- Trial end: the terminator with distance 0 and raw length 0, then the padding (43_encoder.md R115). -/
def trialEnd (csw clw : Nibble) (tw : List Bool) : List Bool :=
  twPad (twWrite (twWrite (twWrite tw 0 1) 0 csw.toNat) 0 clw.toNat)

/-- The registers at the start of trial `t` with the pair `p` (43_encoder.md R110). Registers the trial has not
set hold 0 (log entry 12, unobservable). -/
def EncRegs.start (t : Nat) (p : Nibble × Nibble) (best : Option BestTrial) : EncRegs :=
  { t := t, csw := p.1, clw := p.2, currentIndex := 0, searchLimit := 0, maxMatchLen := 0, search := Search.init,
    tw := trialHeader p.1 p.2, best := best }

/-- One position of the trial (43_encoder.md R111 to R114). R112 assigns `maxMatchLen` for each candidate `d`; that the
register takes R112's expression at a position with no candidate too is the model's choice (DESIGN CHOICE, log entry
22, unobservable). -/
def encodePosition (L : List Byte) (e : EncRegs) : EncRegs :=
  let cur := e.currentIndex.toNat
  let limit := searchLimitOf e.csw cur
  let maxLen := maxMatchLenOf e.clw L.length cur
  let b := searchAt L cur limit maxLen
  let out := emitToken L e.csw e.clw cur b e.tw
  { e with searchLimit := limit, maxMatchLen := maxLen, search := b, tw := out.1,
           currentIndex := BitVec.ofNat 32 (cur + out.2) }

/-- The best trial after trial `e` has ended: `e` only where nothing is as small (43_encoder.md R116). -/
def bestAfter (e : EncRegs) : BestTrial :=
  let tw := trialEnd e.csw e.clw e.tw
  let this : BestTrial := { size := tw.length / 8, t := e.t, csw := e.csw, clw := e.clw, tw := tw }
  match e.best with
  | none => this
  | some b => if this.size < b.size then this else b

/-- The commit (43_encoder.md R117): `bw_bits`, `OUT`, OUT_LEN, RESULT and HDR; the cursor stays. -/
def commitTrial (b : BestTrial) (s : State) : Exec :=
  andThen (putOut (twBytes b.tw) s) (fun t =>
    .next (complete (BitVec.ofNat 32 (b.tw.length / 8))
      { t with bwBits := b.tw, hdrCsw := b.csw, hdrClw := b.clw }))

/-- After the last trial: CAPACITY_EXCEEDED with the exact overflow and OUT_LEN 0, or the commit (43_encoder.md
R108, R117, R118). -/
def finishEncode (b : BestTrial) (s : State) : Exec :=
  if b.size > encodeLimit s then
    .next (raise .capacityExceeded (BitVec.ofNat 32 (b.size - encodeLimit s)) { s with outLen := 0 })
  else commitTrial b s

/-- The state with the encoder's registers at `e`. -/
def setEnc (e : EncRegs) (s : State) : State := { s with engine := .encoding e }

/-- One step of the encoder: a position while `currentIndex < n`, else the trial's end and the next trial of
`ENC_SWEEP`, or the finish after the last (43_encoder.md R108, R109). -/
def encoderStep (e : EncRegs) (s : State) : Exec :=
  match inputBytes s with
  | none => .fault (.inByteUnwritten (firstUnwritten s.inMem 0 s.inLen.toNat))
  | some L =>
    if e.currentIndex.toNat < L.length then .next (setEnc (encodePosition L e) s)
    else
      match s.cfg.sweep[e.t + 1]? with
      | some p => .next (setEnc (EncRegs.start (e.t + 1) p (some (bestAfter e))) s)
      | none => finishEncode (bestAfter e) s

/-- ENCODE's first trial (43_encoder.md R108): no best yet. -/
def beginEncode (s : State) : State := setEnc (EncRegs.start 0 s.cfg.sweepHead none) s

/-- A bound on ENCODE's engine steps: each trial visits at most `n` positions and ends once (70_reset_and_hazards.md
R139, 43_encoder.md R119 (f)). -/
def encodeBound (s : State) : Nat := s.cfg.sweep.length * (s.inLen.toNat + 1)

end Sys2Proof.Machine
end

