-- ==== Sys2Proof/Machine/Engine.lean ====
section
/-! DEFINITION. The engine (10_state.md R12): one step of whatever it runs, and the two commands that run it to the end as
one transition (10_state.md R32). -/

namespace Sys2Proof.Machine

/-- One step of the engine. Idle, its state stays as it is (60_exceptions.md R133). -/
def engineStep (s : State) : Exec :=
  match s.engine with
  | .idle => .next s
  | .decoding r => decoderStep r s
  | .encoding e => encoderStep e s

/-- Runs the engine until it is idle, at most `n` steps. The bounds of the two commands are never reached with the
engine still running (42_decoder.md R94, 43_encoder.md R119 (f)). -/
def runEngine : Nat → State → Exec
  | 0, s => .next s
  | n + 1, s => if engineIdle s then .next s else andThen (engineStep s) (runEngine n)

/-- DECODE (42_decoder.md R96). -/
def execDecode (s : State) : Exec :=
  command (commandWordOf 0xB 0) (fun t => runEngine (decodeBound t) (beginDecode t)) s

/-- ENCODE (43_encoder.md R108). -/
def execEncode (s : State) : Exec :=
  command (commandWordOf 0xC 0) (fun t => runEngine (encodeBound t) (beginEncode t)) s

end Sys2Proof.Machine
end

