-- ==== Sys2Proof/Machine/Dispatch.lean ====
section
/-! DEFINITION. One arm per instruction: its meaning. -/

namespace Sys2Proof.Machine

def exec (i : Instr) (s : State) : Host.Outcome State Fault Refusal :=
  match i with
  | .hdr csw clw => Sys2Proof.Machine.execHdr csw clw s
  | .lit b => Sys2Proof.Machine.execLit b s
  | .ref distance rawLength => Sys2Proof.Machine.execRef distance rawLength s
  | .endStream rawLength => Sys2Proof.Machine.execEndStream rawLength s
  | .brInit => Sys2Proof.Machine.execBrInit s
  | .brReadUint width => Sys2Proof.Machine.execBrReadUint width s
  | .brReadBool => Sys2Proof.Machine.execBrReadBool s
  | .brByteAlign => Sys2Proof.Machine.execBrByteAlign s
  | .brBytePos => Sys2Proof.Machine.execBrBytePos s
  | .bwInit => Sys2Proof.Machine.execBwInit s
  | .bwWriteUint width => Sys2Proof.Machine.execBwWriteUint width s
  | .bwPad => Sys2Proof.Machine.execBwPad s
  | .bwToBytes => Sys2Proof.Machine.execBwToBytes s
  | .bwBitLen => Sys2Proof.Machine.execBwBitLen s
  | .decode => Sys2Proof.Machine.execDecode s
  | .encode => Sys2Proof.Machine.execEncode s

end Sys2Proof.Machine
end

