-- ==== Sys2Proof/Machine/HostPort.lean ====
section
/-! DEFINITION. The host's moves other than a CMD write (10_state.md R12, R21 to R28; 20_memory.md R38, R44, R51;
70_reset_and_hazards.md R134, R137): register reads and writes, the byte ports of `IN` and `OUT`, `wait`, reset. -/

namespace Sys2Proof.Machine

/-- The word a host read of a register returns (10_state.md R21 to R28); an unmapped offset reads 0 (20_memory.md
R51). Reading has no side effect (20_memory.md R49). -/
def readRegister (s : State) (offset : BitVec 8) : Word :=
  match offset.toNat with
  | 0x00 => s.cmd
  | 0x04 => s.arg0
  | 0x08 => s.status.word
  | 0x0C => s.result
  | 0x10 => hdrWord s.hdrCsw s.hdrClw
  | 0x14 => s.inLen
  | 0x18 => s.outLen
  | _ => 0

/-- A host write of a register other than CMD: ARG0 and IN_LEN hold all 32 bits written (10_state.md R23, R27);
STATUS, RESULT, HDR and OUT_LEN are read-only and an unmapped offset ignores the write (R24, R21, 20_memory.md
R51, log entry 7). -/
def writeRegister (offset : BitVec 8) (v : Word) (s : State) : State :=
  match offset.toNat with
  | 0x04 => { s with arg0 := v }
  | 0x14 => { s with inLen := v }
  | _ => s

/-- A register access is aligned (20_memory.md R46, 70_reset_and_hazards.md R137 (c)). -/
def registerAligned (offset : BitVec 8) : Bool := decide (offset.toNat % 4 = 0)

/-- The host touches `IN`, `OUT`, ARG0 and IN_LEN only while BUSY = 0 (20_memory.md R53, 70_reset_and_hazards.md
R137 (a)). -/
def whileIdle (x : Exec) (s : State) : Exec :=
  if s.status.busy then .refused .hostMoveWhileBusy else x

/-- `IN[i] <- b` (10_state.md R14). -/
def hostWriteIn (i : Nat) (b : Byte) (s : State) : Exec :=
  if i < s.cfg.inCap then .next { s with inMem := memWrite s.inMem i b } else .fault (.inIndexPastCap i)

/-- The byte a host read of `IN[i]` returns, only if the host has written it (70_reset_and_hazards.md R137 (d)). -/
def hostReadIn (i : Nat) (s : State) : Exec :=
  if i < s.cfg.inCap then
    match memRead s.inMem i with
    | some b => .next { s with hostData := b.setWidth 32 }
    | none => .fault (.inByteUnwritten i)
  else .fault (.inIndexPastCap i)

/-- Goes on with `OUT[i]`, which the host may read only below OUT_LEN (70_reset_and_hazards.md R137 (b)). -/
def withOutByte (i : Nat) (k : Byte → Exec) (s : State) : Exec :=
  if i < s.outLen.toNat then
    match memRead s.outMem i with
    | some b => k b
    | none => .fault (.outByteUnspecified i)
  else .refused (.outReadPastLength i)

/-- The reset event: every register, memory and transient at its reset value (70_reset_and_hazards.md R134); the
configuration and the host agent are not the block's and stay (log entry 15). -/
def resetEvent (s : State) : State := State.resetWith s.cfg s.host s.hostData

/-- `wait`: polls until DONE = 1; until then nothing changes and the move is still pending (30_encoding.md R70,
60_exceptions.md R126). -/
def hostWait (rest : List HostOp) (s : State) : State :=
  if s.status.done then { s with host := rest } else s

/-- One move of the host, `rest` the moves after it. A write to CMD is `commandWrite` in Machine/Step.lean. -/
def hostMove (op : HostOp) (rest : List HostOp) (s : State) : Exec :=
  let t := { s with host := rest }
  match op with
  | .writeReg offset v =>
    if registerAligned offset then whileIdle (.next (writeRegister offset v t)) s
    else .refused (.misalignedRegister offset)
  | .readReg offset =>
    if registerAligned offset then .next { t with hostData := readRegister s offset }
    else .refused (.misalignedRegister offset)
  | .writeIn i b => whileIdle (hostWriteIn i b t) s
  | .readIn i => whileIdle (hostReadIn i t) s
  | .readOut i => whileIdle (withOutByte i (fun b => .next { t with hostData := b.setWidth 32 }) s) s
  | .copyOut i j => whileIdle (withOutByte i (fun b => hostWriteIn j b t) s) s
  | .wait => .next (hostWait rest s)
  | .reset => .next (resetEvent t)

end Sys2Proof.Machine
end

