-- ==== Sys2Proof/Machine/HostStep.lean ====
section
/-! DEFINITION. The host agent's step, and a table row's bits placed for the next step. A CMD write runs the whole
command as one transition (10_state.md R29, R32). -/

namespace Sys2Proof.Machine

/-- A host write of CMD (10_state.md R22, R29): the command the word names, or ILLEGAL_COMMAND (30_encoding.md
R68). -/
def commandWrite (w : Word) (s : State) : Exec :=
  match decodeCommand w with
  | .ok i => exec i s
  | .error _ => illegalCommand w s

/-- A step of the host: its next move, or nothing when none is pending (70_reset_and_hazards.md R135). -/
def hostStep (s : State) : Exec :=
  match s.host with
  | [] => .next s
  | op :: rest =>
    match op with
    | .writeReg offset v =>
      if offset = 0 then commandWrite v { s with host := rest } else hostMove op rest s
    | .readReg _ | .writeIn _ _ | .readIn _ | .readOut _ | .copyOut _ _ | .wait | .reset => hostMove op rest s

/-- The host's next move is a reset. -/
def resetPending (s : State) : Bool := s.host.head? == some .reset

/-- A command word as the host's next move, a write of it to CMD, with no command running. -/
def placeCommand (w : Word) (s : State) : State :=
  { s with engine := .idle, status := { s.status with busy := false }, host := .writeReg 0 w :: s.host }

/-- A stream item's bits at cursor 0 of `IN`, DECODE running with the registers `r`, no host move pending. -/
def placeItem (r : DecRegs) (bits : List Bool) (s : State) : State :=
  let bytes := packBytes (tableBits bits)
  { s with engine := .decoding r, status := Status.issued, host := [], brPos := 0,
           inLen := BitVec.ofNat 32 bytes.length, inMem := memOfList bytes }

/-- A table row's bits where `step` runs them next (log entries 2 and 9): a command word is written to CMD, a stream
item is read by the phase of DECODE that reads it, under the header widths the table writes its tokens with. -/
def placeTableWord (nbits w : Nat) (s : State) : State :=
  if nbits ≥ 32 then placeCommand (BitVec.ofNat 32 w) s
  else
    match tableItem nbits w with
    | .header bits => placeItem (DecRegs.init 0) bits s
    | .token bits => placeItem { DecRegs.init 0 with phase := .tokenLoop, csw := tableCsw, clw := tableClw } bits s

end Sys2Proof.Machine
end

