-- ==== Sys2Proof/Machine/Step.lean ====
section
/-! DEFINITION. One step of the machine: the engine's, in the middle of a command; else the host's next move
(10_state.md R12: the host moves only between commands). A reset may come at any point (70_reset_and_hazards.md
R134). -/

namespace Sys2Proof.Machine

def step (s : State) : Host.Outcome State Fault Refusal :=
  if engineIdle s || resetPending s then hostStep s else engineStep s

/-- `s` with a table row's bits placed so that the very next step runs that instruction. -/
def State.withFetchWord (s : State) (nbits w : Nat) : State := placeTableWord nbits w s

end Sys2Proof.Machine
end

