-- ==== Sys2Proof/Machine/Assembly.lean ====
section
/-! DEFINITION. The assembly notation of 30_encoding.md R69 and R70: a stream's lines with their constraints and
pseudo-instructions, the bits and bytes they encode, and the host register writes a command mnemonic stands for. -/

namespace Sys2Proof.Machine

/-- A line between HDR and END (30_encoding.md R69, R70). -/
inductive AsmLine where
  | lit (b : Nat)
  /-- `REF d, n`: `n` is the decoded length. -/
  | ref (d n : Nat)
  /-- `REFRAW d, r` expands to `REF d, r+3`. -/
  | refRaw (d r : Nat)
  /-- `RUN b, n` expands to `LIT b` and `REF 1, n−1`. -/
  | run (b n : Nat)
  deriving DecidableEq, Repr

/-- `LIT b`, `0 ≤ b ≤ 255` (30_encoding.md R69). -/
def asmLit (b : Nat) : Option Instr := if b ≤ 255 then some (.lit (BitVec.ofNat 8 b)) else none

/-- `REF d, n`, `1 ≤ d ≤ 2^csw − 1`, `3 ≤ n ≤ 2^clw + 2`; the stored field is `n − 3` (30_encoding.md R69). -/
def asmRef (csw clw : Nibble) (d n : Nat) : Option Instr :=
  if 1 ≤ d ∧ d ≤ 2 ^ csw.toNat - 1 ∧ 3 ≤ n ∧ n ≤ 2 ^ clw.toNat + 2 then
    some (.ref (BitVec.ofNat 15 d) (BitVec.ofNat 15 (n - 3)))
  else none

/-- `END r`, `0 ≤ r ≤ 2^clw − 1` (30_encoding.md R69). -/
def asmEnd (clw : Nibble) (r : Nat) : Option Instr :=
  if r ≤ 2 ^ clw.toNat - 1 then some (.endStream (BitVec.ofNat 15 r)) else none

/-- The tokens of a line; none where an operand breaks its constraint. -/
def asmLine (csw clw : Nibble) : AsmLine → Option (List Instr)
  | .lit b => (asmLit b).map (fun i => [i])
  | .ref d n => (asmRef csw clw d n).map (fun i => [i])
  | .refRaw d r => (asmRef csw clw d (r + 3)).map (fun i => [i])
  | .run b n =>
    if 4 ≤ n ∧ n ≤ 2 ^ clw.toNat + 3 then
      match asmLit b, asmRef csw clw 1 (n - 1) with
      | some i, some j => some [i, j]
      | _, _ => none
    else none

/-- The tokens of the lines, in order. -/
def asmLines (csw clw : Nibble) : List AsmLine → Option (List Instr)
  | [] => some []
  | x :: xs =>
    match asmLine csw clw x, asmLines csw clw xs with
    | some is, some js => some (is ++ js)
    | _, _ => none

/-- A stream without its padding: header, tokens, terminator (30_encoding.md R57). -/
def streamBitsOf (csw clw : Nibble) (items : List Instr) (rawLength : BitVec 15) : List Bool :=
  itemBits csw clw (.hdr csw clw) ++ items.flatMap (itemBits csw clw) ++ itemBits csw clw (.endStream rawLength)

/-- `HDR csw, clw`, the lines, `END r`, as bytes: the terminator is followed by zero bits to the byte boundary
(30_encoding.md R63, R69). -/
def assemble (csw clw : Nibble) (lines : List AsmLine) (r : Nat) : Option (List Byte) :=
  match asmLines csw clw lines, asmEnd clw r with
  | some items, some (.endStream raw) => some (twBytes (twPad (streamBitsOf csw clw items raw)))
  | _, _ => none

/-- A write of CMD. -/
def writeCmd (w : Word) : HostOp := .writeReg 0x00 w

/-- A write of ARG0. -/
def writeArg0 (v : Word) : HostOp := .writeReg 0x04 v

/-- The host register writes a command mnemonic stands for, `arg` its ARG0 operand (30_encoding.md R70). A stream
item is no command. -/
def commandMoves (arg : Word) : Instr → List HostOp
  | .hdr _ _ => []
  | .lit _ => []
  | .ref _ _ => []
  | .endStream _ => []
  | .brInit => [writeArg0 arg, writeCmd (commandWordOf 0x1 0)]
  | .brReadUint w => [writeCmd (commandWordOf 0x2 w)]
  | .brReadBool => [writeCmd (commandWordOf 0x3 0)]
  | .brByteAlign => [writeCmd (commandWordOf 0x4 0)]
  | .brBytePos => [writeCmd (commandWordOf 0x5 0)]
  | .bwInit => [writeCmd (commandWordOf 0x6 0)]
  | .bwWriteUint w => [writeArg0 arg, writeCmd (commandWordOf 0x7 w)]
  | .bwPad => [writeCmd (commandWordOf 0x8 0)]
  | .bwToBytes => [writeCmd (commandWordOf 0x9 0)]
  | .bwBitLen => [writeCmd (commandWordOf 0xA 0)]
  | .decode => [writeArg0 arg, writeCmd (commandWordOf 0xB 0)]
  | .encode => [writeArg0 arg, writeCmd (commandWordOf 0xC 0)]

end Sys2Proof.Machine
end

