-- ==== Sys2Proof/Safety.lean ====
section
/-! DEFINITION. The terms the statements use: when a command may run, what `IN` and `OUT` hold, the spec's own
formulas for fields (20_memory.md R41, R42), what a token sequence expands to (42_decoder.md R102, R103), the greedy
parse (43_encoder.md R111 to R114), and the invariant every step keeps. Nothing here is used by `exec` or `step`. -/

namespace Sys2Proof.Machine

/-! Commands. -/

/-- A command may run: the engine is not busy (70_reset_and_hazards.md R137 (a)) and IN_LEN ≤ `IN_CAP`
(30_encoding.md R68 (e)). -/
abbrev Ready (s : State) : Prop := s.status.busy = false ∧ s.inLen.toNat ≤ s.cfg.inCap

/-- The state a command leaves that completes without error, with RESULT `r` and nothing else changed
(10_state.md R29, R30). -/
def commandDone (w r : Word) (s : State) : State :=
  { s with cmd := w, status := { busy := false, done := true, err := false, errcode := .none }, result := r,
           engine := .idle }

/-- The state a command leaves that ends with error `e`, with RESULT `info` and nothing else changed (10_state.md
R29, R31). -/
def commandFailed (w : Word) (e : ErrCode) (info : Word) (s : State) : State :=
  { s with cmd := w, status := { busy := false, done := true, err := true, errcode := e }, result := info,
           engine := .idle }

/-! Memories and fields. -/

/-- `IN[0..IN_LEN-1]` is `L` (10_state.md R14). -/
def InputIs (s : State) (L : List Byte) : Prop :=
  L.length = s.inLen.toNat ∧ ∀ i, i < L.length → memRead s.inMem i = L[i]?

/-- `OUT[0..OUT_LEN-1]` is `out` (10_state.md R15). -/
def OutputIs (s : State) (out : List Byte) : Prop :=
  out.length = s.outLen.toNat ∧ ∀ i, i < out.length → memRead s.outMem i = out[i]?

/-- Stream bit `k` of `IN`: bit 7 − k mod 8 of byte k div 8 (00_scope.md R7); none where the host never wrote that
byte (93_implementation_defined.md U6). -/
def inBit (s : State) (k : Nat) : Option Bool := (memRead s.inMem (k / 8)).map (fun b => b.toNat.testBit (7 - k % 8))

/-- The stream bits of `IN` from bit `p` on are `bits`: of the other bytes of `IN` nothing is said, nor that they
have been written. -/
def FieldIs (s : State) (p : Nat) (bits : List Bool) : Prop := ∀ i, i < bits.length → inBit s (p + i) = bits[i]?

/-- Every byte DECODE may read has been written: `IN[ARG0 .. IN_LEN-1]` (42_decoder.md R107 (d)). -/
def StreamWritten (s : State) : Prop := ∀ i, s.arg0.toNat ≤ i → i < s.inLen.toNat → (memRead s.inMem i).isSome = true

/-- The value of a field from its bits, `Σ_{i=0}^{w−1} bits[i] · 2^(w−1−i)` (20_memory.md R41). -/
def fieldValue (bits : List Bool) : Nat :=
  ((List.range bits.length).map (fun i => (bits.getD i false).toNat * 2 ^ (bits.length - 1 - i))).sum

/-- `v[w−1], v[w−2], …, v[0]` (20_memory.md R42). -/
def fieldBits (v w : Nat) : List Bool := (List.range w).map (fun i => v.testBit (w - 1 - i))

/-- Byte `m` of a bit sequence, `Σ_{i=0}^{7} bits[8m+i] · 2^(7−i)` (20_memory.md R42). -/
def byteOfBits (bits : List Bool) (m : Nat) : Byte :=
  BitVec.ofNat 8 ((List.range 8).map (fun i => (bits.getD (8 * m + i) false).toNat * 2 ^ (7 - i))).sum

/-! What a token sequence expands to. -/

/-- `n` bytes copied one by one from `d` bytes back, each read seeing every earlier one (42_decoder.md R102). -/
def copyRun (d : Nat) : Nat → List Byte → List Byte
  | 0, out => out
  | n + 1, out => copyRun d n (out ++ [out.getD (out.length - d) 0])

/-- The output after one token; none for a back-reference that reaches before the start (42_decoder.md R101 to
R103) and for what is no token of the loop. -/
def expandItem (out : List Byte) : Instr → Option (List Byte)
  | .lit b => some (out ++ [b])
  | .ref d r => if d.toNat = 0 ∨ out.length < d.toNat then none else some (copyRun d.toNat (r.toNat + 3) out)
  | .hdr _ _ => none
  | .endStream _ => none
  | .brInit | .brReadUint _ | .brReadBool | .brByteAlign | .brBytePos | .bwInit | .bwWriteUint _ | .bwPad
  | .bwToBytes | .bwBitLen | .decode | .encode => none

/-- The output after a token sequence. -/
def expandItems : List Byte → List Instr → Option (List Byte)
  | out, [] => some out
  | out, i :: is =>
    match expandItem out i with
    | some out' => expandItems out' is
    | none => none

/-! The greedy parse, as tokens. -/

/-- The token at one position and how many bytes it covers (43_encoder.md R111 to R114). -/
def greedyToken (L : List Byte) (csw clw : Nibble) (cur : Nat) : Instr × Nat :=
  let b := searchAt L cur (searchLimitOf csw cur) (maxMatchLenOf clw L.length cur)
  if b.bestLength ≥ 3 then
    (.ref (BitVec.ofNat 15 b.bestDistance) (BitVec.ofNat 15 (b.bestLength - 3)), b.bestLength)
  else (.lit (L.getD cur 0), 1)

/-- The tokens from position `cur` on, at most `fuel` of them; `L.length` of them are always enough, since each
covers at least one byte (43_encoder.md R114, R119 (f)). -/
def greedyTokens (L : List Byte) (csw clw : Nibble) : Nat → Nat → List Instr
  | 0, _ => []
  | fuel + 1, cur =>
    if cur < L.length then
      (greedyToken L csw clw cur).1 :: greedyTokens L csw clw fuel (cur + (greedyToken L csw clw cur).2)
    else []

/-- A trial's stream: header, greedy tokens, terminator with raw length 0, padding (43_encoder.md R110 to
R115). -/
def trialStream (L : List Byte) (p : Nibble × Nibble) : List Bool :=
  twPad (streamBitsOf p.1 p.2 (greedyTokens L p.1 p.2 L.length 0) 0)

/-- A trial's size in bytes (43_encoder.md R115). -/
def trialSize (L : List Byte) (p : Nibble × Nibble) : Nat := (trialStream L p).length / 8

/-- Trial `k` with pair `p` is the one ENCODE selects: the smallest, and the first of the smallest (43_encoder.md
R116). -/
def IsSelected (L : List Byte) (sweep : List (Nibble × Nibble)) (k : Nat) (p : Nibble × Nibble) : Prop :=
  sweep[k]? = some p ∧
  ∀ k' p', sweep[k']? = some p' → trialSize L p ≤ trialSize L p' ∧ (k' < k → trialSize L p < trialSize L p')

/-! The invariant. -/

/-- STATUS holds a value the lifecycle gives it: BUSY excludes DONE and ERR, ERR comes with DONE, and ERRCODE is a
code exactly when ERR is set (10_state.md R24, R29 to R31, R37). -/
def Status.legal (st : Status) : Bool :=
  (!st.busy || (!st.done && !st.err)) && (!st.err || st.done) && (st.err == decide (st.errcode ≠ .none))

/-- What holds of the transients while their command runs. DECODE: the cursor is at or past the start, and once
the header is read it is within `IN` and HDR shows the header (42_decoder.md R98, R105). ENCODE: the position is
within the input, the trial's pair is `ENC_SWEEP[t]`, and the best trial so far has whole bytes (43_encoder.md R109,
R110, R115). -/
def EngineInv (s : State) : Prop :=
  match s.engine with
  | .idle => True
  | .decoding r =>
    8 * r.start.toNat ≤ s.brPos.toNat ∧ s.inLen.toNat ≤ s.cfg.inCap ∧
    (r.phase = .readHeader → s.brPos.toNat = 8 * r.start.toNat ∧ s.outLen = 0) ∧
    (r.phase ≠ .readHeader → s.brPos.toNat ≤ 8 * s.inLen.toNat ∧ s.hdrCsw = r.csw ∧ s.hdrClw = r.clw)
  | .encoding e =>
    e.currentIndex.toNat ≤ s.inLen.toNat ∧ s.inLen.toNat ≤ s.cfg.inCap ∧ s.cfg.sweep[e.t]? = some (e.csw, e.clw) ∧
    ∀ b, e.best = some b → b.tw.length = 8 * b.size ∧ s.cfg.sweep[b.t]? = some (b.csw, b.clw)

/-- The invariant of the machine: legal parameters (00_scope.md R6); both memories canonical and within their
capacity (20_memory.md R38); OUT_LEN ≤ `OUT_CAP` (10_state.md R28) and every byte below it written (R15); `bw_len`
≤ 8·`OUT_CAP` (R17); `br_pos` ≤ 8·(2^32−1) (R16); STATUS legal; BUSY set exactly while the engine runs (R29 to
R31). -/
structure Inv (s : State) : Prop where
  params      : s.cfg.legal = true
  inCanonical : Memory.wf s.inMem = true
  outCanonical : Memory.wf s.outMem = true
  inWithin    : memBelow s.cfg.inCap s.inMem = true
  outWithin   : memBelow s.cfg.outCap s.outMem = true
  outLenCap   : s.outLen.toNat ≤ s.cfg.outCap
  outWritten  : ∀ i, i < s.outLen.toNat → (memRead s.outMem i).isSome = true
  writerCap   : s.bwBits.length ≤ 8 * s.cfg.outCap
  cursorMax   : s.brPos.toNat ≤ 8 * (2 ^ 32 - 1)
  statusLegal : s.status.legal = true
  busyRuns    : s.status.busy = !engineIdle s
  transients  : EngineInv s

/-- The decoder is in its token loop with the registers `r` (42_decoder.md R92). -/
abbrev InTokenLoop (s : State) (r : DecRegs) : Prop := s.engine = .decoding r ∧ r.phase = .tokenLoop

/-- DECODE ended with error `e` at cursor `pos`: RESULT 0, OUT_LEN 0, everything else as in `s`, but `OUT`, which is
unspecified and given as `mem` (60_exceptions.md R123): a statement says "for some `mem`". -/
def decodeFailed (e : ErrCode) (pos : Nat) (mem : Memory) (s : State) : State :=
  { s with status := { busy := false, done := true, err := true, errcode := e }, result := 0, outLen := 0,
           outMem := mem, brPos := BitVec.ofNat 35 pos, engine := .idle }

end Sys2Proof.Machine
end

