-- ==== Sys2Proof/Certificates/Slice0/Obligations.lean ====
section
/-! DEFINITION. The statements, from the numbered rules of spec/. -/

open Sys2Proof Sys2Proof.Machine

/-! ### Encoding -/

/-- Words and bits written out from 30_encoding.md sections 2 and 5 decode to the instruction they stand for. -/
def Obligations.WrittenOutEncodingsDecode : Prop :=
  decodeCommand 0x00000001 = .ok .brInit ∧ decodeCommand 0x00000202 = .ok (.brReadUint 32) ∧
  decodeCommand 0x00000037 = .ok (.bwWriteUint 3) ∧ decodeCommand 0x0000000B = .ok .decode ∧
  decodeCommand 0x0000000C = .ok .encode ∧ decodeCommand 0x00000212 = .error .widthTooLarge ∧
  decodeCommand 0x0000001B = .error .widthNotZero ∧ decodeCommand 0x00000401 = .error .reservedBits ∧
  decodeCommand 0x0000000D = .error .reservedOp ∧
  parseHeader (listReader [true, false, true, false, false, false, true, true]) 0 = .item (.hdr 10 3) 8 ∧
  parseToken (listReader [true, false, true, false, false, false, false, false, true]) 10 3 0 = .item (.lit 0x41) 9 ∧
  parseToken (listReader [false, false, false, false, false, false, false, false, false, false, true, false, false, true])
    10 3 0 = .item (.ref 1 1) 14 ∧
  parseToken (listReader [false, false, false, false, false, false, false, false, false, false, false, true, true, true])
    10 3 0 = .item (.endStream 7) 14

/-- Decoding the encoded word of a well-formed command gives the command back (30_encoding.md R67). -/
def Obligations.CommandDecodesItsEncoding : Prop :=
  ∀ (csw clw : Nibble) (i : Instr) (w : Word),
    i.wellFormed csw clw = true → encode csw clw i = .word w → decodeCommand w = .ok i

/-- A well-formed stream item, written anywhere in a bit sequence, parses back to itself and to the cursor just
after it: HDR in `READ_HEADER`, the tokens in the token loop (30_encoding.md R58, R60 to R62, R65). -/
def Obligations.StreamItemDecodesItsEncoding : Prop :=
  ∀ (csw clw : Nibble) (i : Instr) (before after : List Bool),
    i.wellFormed csw clw = true → i.isStreamItem = true →
    (if ∃ c l, i = .hdr c l then
      parseHeader (listReader (before ++ itemBits csw clw i ++ after)) before.length
     else
      parseToken (listReader (before ++ itemBits csw clw i ++ after)) csw clw before.length)
      = .item i (before.length + itemLength csw clw i)

/-- Every legal command word has one meaning: it is the encoding of the well-formed command it decodes to. -/
def Obligations.LegalWordIsItsCommandsEncoding : Prop :=
  ∀ (csw clw : Nibble) (w : Word) (i : Instr), decodeCommand w = .ok i →
    i.isStreamItem = false ∧ i.wellFormed csw clw = true ∧ encode csw clw i = .word w

/-! ### Steps, reset and the host's registers -/

/-- When the host's next move writes a legal command word to CMD, the step is `exec` of that command, the move
consumed (10_state.md R29). -/
def Obligations.StepRunsTheWrittenCommand : Prop :=
  ∀ (s : State) (w : Word) (rest : List HostOp) (i : Instr),
    engineIdle s = true → s.host = .writeReg 0x00 w :: rest → decodeCommand w = .ok i →
    step s = exec i { s with host := rest }

/-- When DECODE runs and the bits at the cursor parse to a stream item, the step is `exec` of that item
(42_decoder.md R93); the host's moves wait, but for a reset. -/
def Obligations.StepRunsTheFetchedItem : Prop :=
  ∀ (s : State) (r : DecRegs) (i : Instr) (next : Nat),
    s.engine = .decoding r → s.host.head? ≠ some .reset → fetchItem r s = some (.item i next) →
    step s = exec i s ∧ i.isStreamItem = true ∧ next = s.brPos.toNat + itemLength r.csw r.clw i

/-- The engine fetches nothing and stays as it is until the host moves (70_reset_and_hazards.md R135,
60_exceptions.md R133). That such a step is a next state and no stop is the model's (log entry 2). -/
def Obligations.IdleEngineStays : Prop :=
  ∀ s : State, engineIdle s = true → s.host = [] → step s = .next s

/-- The state after reset, by the table of R37. No byte of `IN` and no byte of `OUT` has a value a host can read. -/
def Obligations.ResetLeavesTheTable : Prop :=
  State.reset.cmd = 0 ∧ State.reset.arg0 = 0 ∧ State.reset.status.word = 0 ∧ State.reset.result = 0 ∧
  State.reset.hdrCsw = 0 ∧ State.reset.hdrClw = 0 ∧ State.reset.inLen = 0 ∧ State.reset.outLen = 0 ∧
  State.reset.brPos = 0 ∧ State.reset.bwBits = [] ∧ State.reset.engine = .idle ∧
  (∀ i, i < State.reset.cfg.inCap →
    step { State.reset with host := [.readIn i] } = .fault (.inByteUnwritten i)) ∧
  (∀ i, step { State.reset with host := [.readOut i] } = .refused (.outReadPastLength i))

/-- A reset puts every register and transient at its reset value, between commands and in the middle of one, whatever
was there (70_reset_and_hazards.md R134). R134 calls the contents of both memories unspecified: that no byte of `IN` and
no byte of `OUT` has a value is the model's choice (log entries 4 and 5), and so is that the host's moves and the
parameters stay (log entry 15). -/
def Obligations.ResetEventAbandonsEverything : Prop :=
  ∀ (s : State) (rest : List HostOp), s.host = .reset :: rest →
    ∃ t, step s = .next t ∧
      t.cmd = 0 ∧ t.arg0 = 0 ∧ t.status.word = 0 ∧ t.result = 0 ∧ t.hdrCsw = 0 ∧ t.hdrClw = 0 ∧ t.inLen = 0 ∧
      t.outLen = 0 ∧ t.brPos = 0 ∧ t.bwBits = [] ∧ t.engine = .idle ∧
      (∀ i, memRead t.inMem i = none) ∧ (∀ i, memRead t.outMem i = none) ∧ t.host = rest ∧ t.cfg = s.cfg

/-- A host read of a register returns the register's word and changes nothing else: the map of R21, the STATUS and HDR
fields of R24 and R26, 0 at an unmapped offset (R51). -/
def Obligations.HostReadsTheRegisterMap : Prop :=
  ∀ (s : State) (offset : BitVec 8) (rest : List HostOp),
    engineIdle s = true → s.host = .readReg offset :: rest → offset.toNat % 4 = 0 →
    ∃ v : Word, step s = .next { s with host := rest, hostData := v } ∧
      (offset = 0x00 → v = s.cmd) ∧ (offset = 0x04 → v = s.arg0) ∧
      (offset = 0x08 → v.toNat = s.status.busy.toNat + 2 * s.status.done.toNat + 4 * s.status.err.toNat +
        16 * s.status.errcode.code.toNat) ∧
      (offset = 0x0C → v = s.result) ∧
      (offset = 0x10 → v.toNat = 16 * s.hdrCsw.toNat + s.hdrClw.toNat) ∧
      (offset = 0x14 → v = s.inLen) ∧ (offset = 0x18 → v = s.outLen) ∧ (0x1C ≤ offset.toNat → v = 0)

/-- A host write of ARG0 or IN_LEN while BUSY = 0 holds all 32 bits; a write of STATUS, RESULT, HDR, OUT_LEN or an
unmapped offset has no effect. That RESULT, HDR and OUT_LEN ignore a write is the model's reading of "read-only"
(log entry 7). -/
def Obligations.HostWritesTheRegisterMap : Prop :=
  ∀ (s : State) (offset : BitVec 8) (v : Word) (rest : List HostOp),
    engineIdle s = true → s.status.busy = false → s.host = .writeReg offset v :: rest →
    offset.toNat % 4 = 0 → offset ≠ 0x00 →
    step s = .next
      (if offset = 0x04 then { s with host := rest, arg0 := v }
       else if offset = 0x14 then { s with host := rest, inLen := v }
       else { s with host := rest })

/-- The byte ports between commands: a host write of `IN[i]` below `IN_CAP` stores the byte there and leaves every other
byte; a host read of `OUT[i]` returns the byte below OUT_LEN and has no move at or above it (R137 (b)). -/
def Obligations.HostBytePorts : Prop :=
  ∀ (s : State) (rest : List HostOp), engineIdle s = true → s.status.busy = false →
    (∀ i b, s.host = .writeIn i b :: rest → i < s.cfg.inCap →
      ∃ m, step s = .next { s with host := rest, inMem := m } ∧ memRead m i = some b ∧
        ∀ a, a ≠ i → memRead m a = memRead s.inMem a) ∧
    (∀ i b, s.host = .readOut i :: rest → i < s.outLen.toNat → memRead s.outMem i = some b →
      step s = .next { s with host := rest, hostData := b.setWidth 32 }) ∧
    (∀ i, s.host = .readOut i :: rest → s.outLen.toNat ≤ i → step s = .refused (.outReadPastLength i))

/-- An illegal command word, or any command word while IN_LEN > `IN_CAP`, ends with ILLEGAL_COMMAND: nothing changes
but CMD, which holds the word written, STATUS and RESULT (30_encoding.md R68). -/
def Obligations.IllegalCommandChangesOnlyStatusAndResult : Prop :=
  ∀ (s : State) (w : Word) (rest : List HostOp),
    engineIdle s = true → s.status.busy = false → s.host = .writeReg 0x00 w :: rest →
    ((w.toNat % 16 = 0 ∨ 0xD ≤ w.toNat % 16) ∨ w.toNat / 1024 ≠ 0 ∨
     ((w.toNat % 16 = 2 ∨ w.toNat % 16 = 7) ∧ 32 < w.toNat / 16 % 64) ∨
     (w.toNat % 16 ≠ 0 ∧ w.toNat % 16 < 0xD ∧ w.toNat % 16 ≠ 2 ∧ w.toNat % 16 ≠ 7 ∧ w.toNat / 16 % 64 ≠ 0) ∨
     s.cfg.inCap < s.inLen.toNat) →
    step s = .next (commandFailed w .illegalCommand 0 { s with host := rest })

/-- While BUSY = 1 the host has no move that issues a command (70_reset_and_hazards.md R137 (a), U9): every command
stops so. -/
def Obligations.NoCommandWhileBusy : Prop :=
  ∀ (s : State) (i : Instr), s.status.busy = true → i.isStreamItem = false →
    exec i s = .refused .hostMoveWhileBusy

/-! ### BitReader -/

/-- BR_INIT sets the cursor to 8·ARG0, unchecked, and RESULT to 0 (40_bitreader.md R71). -/
def Obligations.BrInitSetsTheCursor : Prop :=
  ∀ s : State, Ready s →
    exec .brInit s = .next { commandDone 0x00000001 0 s with brPos := BitVec.ofNat 35 (8 * s.arg0.toNat) } ∧
    8 * s.arg0.toNat < 2 ^ 35

/-- BR_READ_UINT: OUT_OF_DATA, nothing else changed, when `w > 0` and `br_pos + w > 8·IN_LEN`, whatever has been
written; otherwise RESULT is the sum of R41 over the `w` bits at the cursor, which moves past them (40_bitreader.md R72).
Only the bytes that hold those bits need have been written (20_memory.md R39). -/
def Obligations.BrReadUintReadsTheField : Prop :=
  ∀ (s : State) (w : BitVec 6), Ready s → w.toNat ≤ 32 →
    (0 < w.toNat ∧ 8 * s.inLen.toNat < s.brPos.toNat + w.toNat →
      exec (.brReadUint w) s = .next (commandFailed (commandWordOf 0x2 w) .outOfData 0 s)) ∧
    (¬ (0 < w.toNat ∧ 8 * s.inLen.toNat < s.brPos.toNat + w.toNat) →
      ∀ bits : List Bool, bits.length = w.toNat → FieldIs s s.brPos.toNat bits →
        exec (.brReadUint w) s = .next
          { commandDone (commandWordOf 0x2 w) (BitVec.ofNat 32 (fieldValue bits)) s with
            brPos := BitVec.ofNat 35 (s.brPos.toNat + w.toNat) } ∧
        fieldValue bits < 2 ^ w.toNat)

/-- BR_READ_UINT with width 0 reads no bit, whatever `IN` holds and wherever the cursor is: RESULT 0, the cursor
stays (40_bitreader.md R73). -/
def Obligations.ZeroWidthReadIsANoOp : Prop :=
  ∀ s : State, Ready s → exec (.brReadUint 0) s = .next (commandDone 0x00000002 0 s)

/-- A BR_READ_UINT or BR_READ_BOOL that raises OUT_OF_DATA leaves the cursor and gives RESULT 0 (40_bitreader.md
R74). -/
def Obligations.FailedReadKeepsTheCursor : Prop :=
  ∀ (s t : State) (i : Instr), (i = .brReadBool ∨ ∃ w, i = .brReadUint w) →
    exec i s = .next t → t.status.errcode = .outOfData → t.brPos = s.brPos ∧ t.result = 0

/-- BR_READ_BOOL reads one bit: OUT_OF_DATA when none remains, whatever has been written, else RESULT is the bit and
the cursor moves by 1 (40_bitreader.md R75). Only the byte that holds the bit need have been written. -/
def Obligations.BrReadBoolReadsOneBit : Prop :=
  ∀ s : State, Ready s →
    (8 * s.inLen.toNat < s.brPos.toNat + 1 →
      exec .brReadBool s = .next (commandFailed 0x00000003 .outOfData 0 s)) ∧
    (s.brPos.toNat + 1 ≤ 8 * s.inLen.toNat → ∀ b : Bool, inBit s s.brPos.toNat = some b →
      exec .brReadBool s = .next
        { commandDone 0x00000003 (if b then 1 else 0) s with brPos := BitVec.ofNat 35 (s.brPos.toNat + 1) })

/-- BR_BYTE_ALIGN moves the cursor to the smallest multiple of 8 at or above it (40_bitreader.md R76). -/
def Obligations.BrByteAlignRoundsUp : Prop :=
  ∀ s : State, Ready s → s.brPos.toNat ≤ 8 * (2 ^ 32 - 1) →
    ∃ p : BitPos, exec .brByteAlign s = .next { commandDone 0x00000004 0 s with brPos := p } ∧
      p.toNat % 8 = 0 ∧ s.brPos.toNat ≤ p.toNat ∧ p.toNat < s.brPos.toNat + 8

/-- BR_BYTE_POS: NOT_ALIGNED off a byte boundary, else RESULT is `br_pos div 8` (40_bitreader.md R78). -/
def Obligations.BrBytePosReportsTheByte : Prop :=
  ∀ s : State, Ready s →
    (s.brPos.toNat % 8 ≠ 0 → exec .brBytePos s = .next (commandFailed 0x00000005 .notAligned 0 s)) ∧
    (s.brPos.toNat % 8 = 0 →
      ∃ v : Word, exec .brBytePos s = .next (commandDone 0x00000005 v s) ∧ v.toNat = s.brPos.toNat / 8)

/-- A read of `w + u` bits is the read of `w` bits followed by the read of `u` bits, split at bit `u`
(40_bitreader.md R80 (a)). -/
def Obligations.ReadsSplit : Prop :=
  ∀ (m : Memory) (inLen p w u a b q r : Nat), w + u ≤ 32 →
    brRead m inLen p w = .ok a q → brRead m inLen q u = .ok b r →
    brRead m inLen p (w + u) = .ok (a * 2 ^ u + b) r

/-! ### BitWriter -/

/-- BW_INIT empties the writer; `OUT` and OUT_LEN stay (41_bitwriter.md R81). -/
def Obligations.BwInitEmptiesTheWriter : Prop :=
  ∀ s : State, Ready s → exec .bwInit s = .next { commandDone 0x00000006 0 s with bwBits := [] }

/-- BW_WRITE_UINT: VALUE_TOO_WIDE when ARG0 ≥ 2^w, then OUTPUT_OVERFLOW past 8·`OUT_CAP` bits, neither changing
`bw_bits`; else the bits `v[w−1], …, v[0]` are appended (41_bitwriter.md R82). -/
def Obligations.BwWriteUintAppendsTheField : Prop :=
  ∀ (s : State) (w : BitVec 6), Ready s → w.toNat ≤ 32 →
    exec (.bwWriteUint w) s = .next
      (if 2 ^ w.toNat ≤ s.arg0.toNat then commandFailed (commandWordOf 0x7 w) .valueTooWide 0 s
       else if 8 * s.cfg.outCap < s.bwBits.length + w.toNat then
         commandFailed (commandWordOf 0x7 w) .outputOverflow 0 s
       else
         { commandDone (commandWordOf 0x7 w) 0 s with
           bwBits := s.bwBits ++ fieldBits s.arg0.toNat w.toNat })

/-- BW_PAD appends the fewest zero bits that make the length a multiple of 8 (41_bitwriter.md R85). -/
def Obligations.BwPadCompletesTheByte : Prop :=
  ∀ s : State, Ready s →
    ∃ k, exec .bwPad s = .next { commandDone 0x00000008 0 s with bwBits := s.bwBits ++ List.replicate k false } ∧
      (s.bwBits.length + k) % 8 = 0 ∧ k < 8

/-- BW_TO_BYTES on whole bytes: `OUT[m]` is the sum of R42 for each of the `bw_len div 8` bytes, every other byte of
`OUT` stays, OUT_LEN and RESULT are their number, `bw_bits` stays (41_bitwriter.md R87). R137 (b) says that bytes of `OUT`
at or above OUT_LEN hold no defined value: that they stay is the model's choice (log entry 6). -/
def Obligations.BwToBytesPacksTheWriter : Prop :=
  ∀ s : State, Ready s → s.cfg.legal = true → s.bwBits.length ≤ 8 * s.cfg.outCap → s.bwBits.length % 8 = 0 →
    ∃ (m : Memory) (n : Word), n.toNat = s.bwBits.length / 8 ∧
      exec .bwToBytes s = .next { commandDone 0x00000009 n s with outMem := m, outLen := n } ∧
      (∀ k, k < n.toNat → memRead m k = some (byteOfBits s.bwBits k)) ∧
      (∀ k, n.toNat ≤ k → memRead m k = memRead s.outMem k)

/-- BW_TO_BYTES with a partial last byte raises NOT_ALIGNED, and `OUT` and OUT_LEN keep their values
(41_bitwriter.md R88). -/
def Obligations.BwToBytesNeedsWholeBytes : Prop :=
  ∀ s : State, Ready s → s.bwBits.length % 8 ≠ 0 →
    exec .bwToBytes s = .next (commandFailed 0x00000009 .notAligned 0 s)

/-- BW_BIT_LEN returns `bw_len` (41_bitwriter.md R89). -/
def Obligations.BwBitLenReturnsTheLength : Prop :=
  ∀ s : State, Ready s → s.cfg.legal = true → s.bwBits.length ≤ 8 * s.cfg.outCap →
    ∃ v : Word, exec .bwBitLen s = .next (commandDone 0x0000000A v s) ∧ v.toNat = s.bwBits.length

/-- A field written anywhere in a bit sequence reads back as its value once the sequence is padded, packed and
placed in `IN` (41_bitwriter.md R90 (b)). -/
def Obligations.WrittenFieldReadsBack : Prop :=
  ∀ (before after : List Bool) (v w : Nat), v < 2 ^ w →
    brRead (memOfList (twBytes (twPad (before ++ valBits w v ++ after))))
      ((twPad (before ++ valBits w v ++ after)).length / 8) before.length w
      = .ok v (before.length + w)

/-- BR_BYTE_ALIGN, BW_PAD, BR_BYTE_POS, BW_BIT_LEN and BW_TO_BYTES repeated leave the state as the first one left it
(20_memory.md R50). -/
def Obligations.RepeatedCommandChangesNothing : Prop :=
  ∀ (s t : State) (i : Instr), Inv s →
    (i = .brByteAlign ∨ i = .bwPad ∨ i = .brBytePos ∨ i = .bwBitLen ∨ i = .bwToBytes) →
    exec i s = .next t → exec i t = .next t

/-! ### The decoder's items -/

/-- HDR in `READ_HEADER`: csw and clw are latched and shown in HDR, the cursor moves by 8, the token loop begins
(42_decoder.md R98). -/
def Obligations.HdrBeginsTheTokenLoop : Prop :=
  ∀ (s : State) (r : DecRegs) (csw clw : BitVec 4), s.engine = .decoding r → r.phase = .readHeader →
    exec (.hdr csw clw) s = .next
      { s with hdrCsw := csw, hdrClw := clw, brPos := BitVec.ofNat 35 (s.brPos.toNat + 8),
               engine := .decoding { r with phase := .tokenLoop, csw := csw, clw := clw } }

/-- LIT in the token loop with room in `OUT`: the byte is appended, the cursor moves by 9, every other byte of `OUT`
stays (42_decoder.md R103). That the bytes at or above the new OUT_LEN stay is the model's choice (log entry 6). -/
def Obligations.LitAppendsItsByte : Prop :=
  ∀ (s : State) (r : DecRegs) (b : BitVec 8), InTokenLoop s r → s.outLen.toNat < s.cfg.outCap →
    ∃ m, exec (.lit b) s = .next
        { s with outMem := m, outLen := s.outLen + 1, brPos := BitVec.ofNat 35 (s.brPos.toNat + 9),
                 engine := .decoding { r with opcode := 1 } } ∧
      memRead m s.outLen.toNat = some b ∧ ∀ a, a ≠ s.outLen.toNat → memRead m a = memRead s.outMem a

/-- REF in the token loop, `1 ≤ d ≤ OUT_LEN` and room for `r + 3` bytes: `OUT[q] = OUT[q − d]` for every new index
`q`, every other byte stays, OUT_LEN grows by `r + 3`, the cursor moves by `1 + csw + clw` (42_decoder.md R102). That the
bytes at or above the new OUT_LEN stay is the model's choice (log entry 6), and so is the counter `i` after the copy (log
entry 22). -/
def Obligations.RefCopiesByteByByte : Prop :=
  ∀ (s : State) (r : DecRegs) (out : List Byte) (d raw : BitVec 15),
    InTokenLoop s r → s.cfg.legal = true → OutputIs s out →
    1 ≤ d.toNat → d.toNat ≤ out.length → out.length + (raw.toNat + 3) ≤ s.cfg.outCap →
    ∃ (m : Memory) (r' : DecRegs), exec (.ref d raw) s = .next
        { s with outMem := m, outLen := BitVec.ofNat 32 (out.length + (raw.toNat + 3)),
                 brPos := BitVec.ofNat 35 (s.brPos.toNat + (1 + r.csw.toNat + r.clw.toNat)),
                 engine := .decoding r' } ∧
      r' = { r with opcode := 0, distance := d, rawLength := raw, length := BitVec.ofNat 16 (raw.toNat + 3),
                    i := BitVec.ofNat 16 (raw.toNat + 3) } ∧
      (∀ q, out.length ≤ q → q < out.length + (raw.toNat + 3) →
        (memRead m q).isSome = true ∧ memRead m q = memRead m (q - d.toNat)) ∧
      (∀ a, a < out.length ∨ out.length + (raw.toNat + 3) ≤ a → memRead m a = memRead s.outMem a)

/-- A back-reference with `distance > OUT_LEN` raises DISTANCE_OUT_OF_RANGE, whatever its length, with the cursor just
after the token (42_decoder.md R101). -/
def Obligations.RefBeforeTheStartIsAnError : Prop :=
  ∀ (s : State) (r : DecRegs) (d raw : BitVec 15), InTokenLoop s r → s.outLen.toNat < d.toNat →
    ∃ m, exec (.ref d raw) s = .next
      (decodeFailed .distanceOutOfRange (s.brPos.toNat + (1 + r.csw.toNat + r.clw.toNat)) m s)

/-- A literal with OUT_LEN = `OUT_CAP`, or a back-reference in range with `OUT_LEN + length > OUT_CAP`, raises
OUTPUT_OVERFLOW with the cursor just after the token (42_decoder.md R106). -/
def Obligations.TokenPastTheCapacityOverflows : Prop :=
  (∀ (s : State) (r : DecRegs) (b : BitVec 8), InTokenLoop s r → s.cfg.outCap ≤ s.outLen.toNat →
    ∃ m, exec (.lit b) s = .next (decodeFailed .outputOverflow (s.brPos.toNat + 9) m s)) ∧
  (∀ (s : State) (r : DecRegs) (d raw : BitVec 15), InTokenLoop s r → 1 ≤ d.toNat → d.toNat ≤ s.outLen.toNat →
    s.cfg.outCap < s.outLen.toNat + (raw.toNat + 3) →
    ∃ m, exec (.ref d raw) s = .next
      (decodeFailed .outputOverflow (s.brPos.toNat + (1 + r.csw.toNat + r.clw.toNat)) m s))

/-- END in the token loop: the loop exits whatever the raw length, the cursor is just after the token, `OUT` and
OUT_LEN stay (42_decoder.md R100). -/
def Obligations.EndExitsTheLoop : Prop :=
  ∀ (s : State) (r : DecRegs) (raw : BitVec 15), InTokenLoop s r →
    ∃ r' : DecRegs, r'.phase = .done ∧ r'.start = r.start ∧ r'.csw = r.csw ∧ r'.clw = r.clw ∧
      exec (.endStream raw) s = .next
        { s with brPos := BitVec.ofNat 35 (s.brPos.toNat + (1 + r.csw.toNat + r.clw.toNat)),
                 engine := .decoding r' }

/-- The exit after the terminator: the cursor is rounded up to a byte, RESULT is the byte count from the start, DECODE
completes (42_decoder.md R104). -/
def Obligations.ExitReportsTheCompressedSize : Prop :=
  ∀ (s : State) (r : DecRegs), Inv s → s.engine = .decoding r → r.phase = .done → s.host.head? ≠ some .reset →
    ∃ (p : BitPos) (v : Word), p.toNat % 8 = 0 ∧ s.brPos.toNat ≤ p.toNat ∧ p.toNat < s.brPos.toNat + 8 ∧
      v.toNat + r.start.toNat = p.toNat / 8 ∧
      step s = .next { commandDone s.cmd v s with brPos := p }

/-- Running out of bits is MALFORMED_STREAM at the start of the failing read: in the header, at the opcode, in a
literal's byte, in the distance, in the raw length (42_decoder.md R105). `p` is the cursor, `N` = 8·IN_LEN. Only the bytes
that hold the bits read before the failing read need have been written. -/
def Obligations.TruncatedStreamIsMalformed : Prop :=
  ∀ (s : State) (r : DecRegs) (p N : Nat),
    s.engine = .decoding r → s.host.head? ≠ some .reset → p = s.brPos.toNat → N = 8 * s.inLen.toNat →
    (r.phase = .readHeader → N < p + 4 → ∃ m, step s = .next (decodeFailed .malformedStream p m s)) ∧
    (r.phase = .readHeader → p + 4 ≤ N → N < p + 8 → (∀ i, i < 4 → (inBit s (p + i)).isSome = true) →
      ∃ m, step s = .next (decodeFailed .malformedStream (p + 4) m s)) ∧
    (r.phase = .tokenLoop → N < p + 1 → ∃ m, step s = .next (decodeFailed .malformedStream p m s)) ∧
    (r.phase = .tokenLoop → p + 1 ≤ N → inBit s p = some true → N < p + 9 →
      ∃ m, step s = .next (decodeFailed .malformedStream (p + 1) m s)) ∧
    (r.phase = .tokenLoop → p + 1 ≤ N → inBit s p = some false → N < p + 1 + r.csw.toNat →
      ∃ m, step s = .next (decodeFailed .malformedStream (p + 1) m s)) ∧
    (r.phase = .tokenLoop → p + 1 + r.csw.toNat ≤ N → inBit s p = some false →
      (∀ i, i < r.csw.toNat → (inBit s (p + 1 + i)).isSome = true) → N < p + 1 + r.csw.toNat + r.clw.toNat →
      ∃ m, step s = .next (decodeFailed .malformedStream (p + 1 + r.csw.toNat) m s))

/-! ### DECODE -/

/-- DECODE of a stream: a header, well-formed tokens that expand to `out`, a terminator with any raw length, at byte
ARG0 of `IN` and within IN_LEN, whatever its padding. Only the bytes that hold the stream need have been written
(70_reset_and_hazards.md R136 (a), 42_decoder.md R107 (d)). OUT is `out`, RESULT and the cursor are those of R104, HDR the
header (42_decoder.md R96). That `OUT` from `out.length` on stays is the model's choice (log entry 6). -/
def Obligations.DecodeExpandsItsStream : Prop :=
  ∀ (s : State) (out : List Byte) (csw clw : Nibble) (items : List Instr) (raw : BitVec 15),
    Ready s → s.cfg.legal = true →
    (∀ i ∈ items, i.wellFormed csw clw = true) → (Instr.endStream raw).wellFormed csw clw = true →
    expandItems [] items = some out → out.length ≤ s.cfg.outCap →
    8 * s.arg0.toNat + (streamBitsOf csw clw items raw).length ≤ 8 * s.inLen.toNat →
    FieldIs s (8 * s.arg0.toNat) (streamBitsOf csw clw items raw) →
    ∃ m, exec .decode s = .next
        { commandDone 0x0000000B (BitVec.ofNat 32 (ceil8 (streamBitsOf csw clw items raw).length / 8)) s with
          outMem := m, outLen := BitVec.ofNat 32 out.length, hdrCsw := csw, hdrClw := clw,
          brPos := BitVec.ofNat 35 (8 * s.arg0.toNat + ceil8 (streamBitsOf csw clw items raw).length) } ∧
      (∀ k, k < out.length → memRead m k = out[k]?) ∧
      (∀ k, out.length ≤ k → memRead m k = memRead s.outMem k)

/-- DECODE always ends within the bound of R94, in `DONE` or with one of its three errors; no stream makes it run for
ever. Only the bytes from ARG0 up to IN_LEN need have been written (42_decoder.md R107 (d)). -/
def Obligations.DecodeAlwaysEnds : Prop :=
  ∀ s : State, Ready s → s.cfg.legal = true → StreamWritten s →
    ∃ t, exec .decode s = .next t ∧ engineIdle t = true ∧ t.status.busy = false ∧ t.status.done = true ∧
      (t.status.errcode = .none ∨ t.status.errcode = .malformedStream ∨
       t.status.errcode = .distanceOutOfRange ∨ t.status.errcode = .outputOverflow)

/-- DECODE's outcome depends only on `IN[ARG0 .. IN_LEN-1]`, IN_LEN, ARG0 and `OUT_CAP`: not on the other bytes of
`IN`, the earlier `OUT`, writer, cursor or output length (42_decoder.md R95, R107 (d)). HDR agrees once the header is
there to be read. R95 counts HDR in the outcome always and R98 keeps it where the header read fails: following R98 there
is the model's choice (log entry 21). -/
def Obligations.DecodeDependsOnItsInputOnly : Prop :=
  ∀ s u t : State, Ready s → Ready u → s.inLen = u.inLen → s.arg0 = u.arg0 →
    (∀ i, s.arg0.toNat ≤ i → i < s.inLen.toNat → memRead s.inMem i = memRead u.inMem i) →
    s.cfg.outCap = u.cfg.outCap → s.cfg.legal = true →
    exec .decode s = .next t →
    ∃ v, exec .decode u = .next v ∧ v.status = t.status ∧ v.outLen = t.outLen ∧ v.result = t.result ∧
      v.brPos = t.brPos ∧ (∀ k, k < t.outLen.toNat → memRead v.outMem k = memRead t.outMem k) ∧
      (s.arg0.toNat < s.inLen.toNat → v.hdrCsw = t.hdrCsw ∧ v.hdrClw = t.hdrClw) ∧
      (s.inLen.toNat ≤ s.arg0.toNat → v.hdrCsw = u.hdrCsw ∧ v.hdrClw = u.hdrClw)

/-- DECODE and the reader commands share one cursor: a BR_BYTE_POS after a DECODE that succeeded returns ARG0 plus
its RESULT (40_bitreader.md R79). -/
def Obligations.BytePosAfterDecode : Prop :=
  ∀ (s t : State), Inv s → Ready s → exec .decode s = .next t → t.status.err = false →
    ∃ v : Word, exec .brBytePos t = .next (commandDone 0x00000005 v t) ∧
      v.toNat = s.arg0.toNat + t.result.toNat

/-- The one transition of DECODE and of ENCODE (10_state.md R32) is what running the engine step by step from the issue
gives. 42_decoder.md R93 allows a model DECODE's token steps; that ENCODE runs one position or one trial end a step, and
the place of the steps in the state, are the model's choice (log entry 1). -/
def Obligations.CommandIsItsEngineSteps : Prop :=
  ∀ s : State, Ready s → s.host = [] →
    core.run (decodeBound s) (beginDecode (issue 0x0000000B s)) = exec .decode s ∧
    core.run (encodeBound s) (beginEncode (issue 0x0000000C s)) = exec .encode s

/-! ### ENCODE -/

/-- Match extension: `matchLen(d)` is the length of the common run from `currentIndex − d` and `currentIndex`, stopped
by the first mismatch or by `maxMatchLen` (43_encoder.md R112). -/
def Obligations.MatchExtendsToTheFirstMismatch : Prop :=
  ∀ (L : List Byte) (cur maxLen d : Nat),
    matchLen L cur maxLen d ≤ maxLen ∧
    (∀ k, k < matchLen L cur maxLen d → L[cur - d + k]? = L[cur + k]?) ∧
    (matchLen L cur maxLen d < maxLen →
      L[cur - d + matchLen L cur maxLen d]? ≠ L[cur + matchLen L cur maxLen d]?)

/-- The search keeps the longest match and, among the longest, the smallest distance (43_encoder.md R113). -/
def Obligations.SearchPrefersLongestThenNearest : Prop :=
  ∀ (L : List Byte) (cur limit maxLen : Nat) (b : Search), b = searchAt L cur limit maxLen →
    (∀ d, 1 ≤ d → d ≤ limit → matchLen L cur maxLen d ≤ b.bestLength) ∧
    (b.bestLength = 0 → b.bestDistance = 0) ∧
    (0 < b.bestLength →
      1 ≤ b.bestDistance ∧ b.bestDistance ≤ limit ∧ matchLen L cur maxLen b.bestDistance = b.bestLength ∧
      ∀ d, 1 ≤ d → d < b.bestDistance → matchLen L cur maxLen d < b.bestLength)

/-- Every token of the greedy parse fits its format: a back-reference copies at least 3 bytes, its distance fits csw
bits and is not 0, its raw length fits clw bits (43_encoder.md R111, R114, R119 (b)). -/
def Obligations.GreedyTokensFitTheirFields : Prop :=
  ∀ (L : List Byte) (csw clw : Nibble) (fuel cur : Nat),
    ∀ i ∈ greedyTokens L csw clw fuel cur, i.wellFormed csw clw = true ∧
      ((∃ b, i = .lit b) ∨ ∃ d r, i = .ref d r)

/-- The greedy parse of `L` expands to `L` (43_encoder.md R119 (a), at the level of tokens). -/
def Obligations.GreedyTokensExpandToTheInput : Prop :=
  ∀ (L : List Byte) (csw clw : Nibble), expandItems [] (greedyTokens L csw clw L.length 0) = some L

/-- ENCODE selects the smallest trial, the first of the smallest, and commits it when it fits the limit: `bw_bits`,
`OUT`, OUT_LEN, RESULT and HDR are the trial's, the cursor stays (43_encoder.md R116, R117). That the bytes of `OUT` at or
above the new OUT_LEN stay is the model's choice (log entry 6). -/
def Obligations.EncodeCommitsTheSelectedTrial : Prop :=
  ∀ (s : State) (L : List Byte) (k : Nat) (p : Nibble × Nibble), Ready s → s.cfg.legal = true → InputIs s L →
    IsSelected L s.cfg.sweep k p →
    trialSize L p ≤ (if s.arg0 = 0 then s.cfg.outCap else min s.arg0.toNat s.cfg.outCap) →
    ∃ m, exec .encode s = .next
        { commandDone 0x0000000C (BitVec.ofNat 32 (trialSize L p)) s with
          bwBits := trialStream L p, outMem := m, outLen := BitVec.ofNat 32 (trialSize L p),
          hdrCsw := p.1, hdrClw := p.2 } ∧
      (∀ a, a < trialSize L p → memRead m a = some (byteOfBits (trialStream L p) a)) ∧
      (∀ a, trialSize L p ≤ a → memRead m a = memRead s.outMem a)

/-- When the selected trial is larger than the limit, ENCODE raises CAPACITY_EXCEEDED with the exact overflow in
RESULT, OUT_LEN 0, and nothing of `OUT`, `bw_bits` or HDR written (43_encoder.md R118). -/
def Obligations.EncodeReportsTheExactOverflow : Prop :=
  ∀ (s : State) (L : List Byte) (k : Nat) (p : Nibble × Nibble) (limit : Nat),
    Ready s → s.cfg.legal = true → InputIs s L → IsSelected L s.cfg.sweep k p →
    limit = (if s.arg0 = 0 then s.cfg.outCap else min s.arg0.toNat s.cfg.outCap) → limit < trialSize L p →
    exec .encode s = .next
      { commandFailed 0x0000000C .capacityExceeded (BitVec.ofNat 32 (trialSize L p - limit)) s with outLen := 0 }

/-- Round trip: the bytes a successful ENCODE of `L` leaves in `OUT`, placed in `IN` with IN_LEN their number, decode
with ARG0 = 0 to `L`, with the same RESULT (43_encoder.md R119 (a)). -/
def Obligations.DecodeUndoesEncode : Prop :=
  ∀ (s t u : State) (L C : List Byte), Ready s → s.cfg.legal = true → InputIs s L →
    exec .encode s = .next t → t.status.err = false → OutputIs t C →
    Ready u → u.cfg.legal = true → InputIs u C → u.arg0 = 0 → L.length ≤ u.cfg.outCap →
    ∃ v, exec .decode u = .next v ∧ v.status.err = false ∧ v.result = t.result ∧ OutputIs v L

/-! ### Frames -/

/-- The reader commands change nothing but CMD, STATUS, RESULT and the cursor, and end with the engine idle. -/
def Obligations.ReaderCommandsFrame : Prop :=
  ∀ (s t : State) (i : Instr),
    (i = .brInit ∨ (∃ w, i = .brReadUint w) ∨ i = .brReadBool ∨ i = .brByteAlign ∨ i = .brBytePos) →
    exec i s = .next t →
    t.arg0 = s.arg0 ∧ t.hdrCsw = s.hdrCsw ∧ t.hdrClw = s.hdrClw ∧ t.inLen = s.inLen ∧ t.outLen = s.outLen ∧
    t.bwBits = s.bwBits ∧ (∀ a, memRead t.inMem a = memRead s.inMem a) ∧
    (∀ a, memRead t.outMem a = memRead s.outMem a) ∧ t.host = s.host ∧ t.hostData = s.hostData ∧
    t.cfg = s.cfg ∧ (i = .brBytePos → t.brPos = s.brPos) ∧ engineIdle t = true

/-- The writer commands change nothing but CMD, STATUS, RESULT and `bw_bits`, and BW_TO_BYTES instead OUT_LEN and the
bytes of `OUT` it stores, those below `bw_len div 8`. That the bytes of `OUT` at or above them stay after BW_TO_BYTES is
the model's choice (log entry 6). -/
def Obligations.WriterCommandsFrame : Prop :=
  ∀ (s t : State) (i : Instr),
    (i = .bwInit ∨ (∃ w, i = .bwWriteUint w) ∨ i = .bwPad ∨ i = .bwToBytes ∨ i = .bwBitLen) →
    exec i s = .next t →
    t.arg0 = s.arg0 ∧ t.hdrCsw = s.hdrCsw ∧ t.hdrClw = s.hdrClw ∧ t.inLen = s.inLen ∧ t.brPos = s.brPos ∧
    (∀ a, memRead t.inMem a = memRead s.inMem a) ∧ t.host = s.host ∧ t.hostData = s.hostData ∧ t.cfg = s.cfg ∧
    (i = .bwToBytes ∨ i = .bwBitLen → t.bwBits = s.bwBits) ∧
    (i ≠ .bwToBytes → t.outLen = s.outLen ∧ ∀ a, memRead t.outMem a = memRead s.outMem a) ∧
    (i = .bwToBytes → ∀ a, s.bwBits.length / 8 ≤ a → memRead t.outMem a = memRead s.outMem a)

/-- The stream items change nothing but the cursor, the decoder's registers, and: HDR the header registers; LIT and REF
OUT_LEN and the bytes of `OUT` they append; an error STATUS, RESULT, OUT_LEN and `OUT`. That the bytes of `OUT` at or
above the new OUT_LEN stay is the model's choice (log entry 6). -/
def Obligations.StreamItemsFrame : Prop :=
  ∀ (s t : State) (i : Instr), i.isStreamItem = true → exec i s = .next t →
    t.cmd = s.cmd ∧ t.arg0 = s.arg0 ∧ t.inLen = s.inLen ∧ t.bwBits = s.bwBits ∧
    (∀ a, memRead t.inMem a = memRead s.inMem a) ∧ t.host = s.host ∧ t.hostData = s.hostData ∧ t.cfg = s.cfg ∧
    ((∀ c l, i ≠ .hdr c l) → t.hdrCsw = s.hdrCsw ∧ t.hdrClw = s.hdrClw) ∧
    (engineIdle t = false →
      t.status = s.status ∧ t.result = s.result ∧
      (∀ a, a < s.outLen.toNat ∨ (s.outLen.toNat ≤ t.outLen.toNat ∧ t.outLen.toNat ≤ a) →
        s.cfg.legal = true → memRead t.outMem a = memRead s.outMem a) ∧
      ((∃ c l, i = .hdr c l) ∨ (∃ r, i = .endStream r) →
        t.outLen = s.outLen ∧ ∀ a, memRead t.outMem a = memRead s.outMem a))

/-- DECODE changes nothing but CMD, STATUS, RESULT, OUT_LEN, the cursor, HDR, and the bytes of `OUT` below the new
OUT_LEN; after an error `OUT` is unspecified. ENCODE changes nothing but CMD, STATUS, RESULT, OUT_LEN, `bw_bits`, HDR and
the bytes of `OUT` below the new OUT_LEN; after an error `OUT`, `bw_bits` and HDR are as before (60_exceptions.md R123).
That the bytes of `OUT` at or above the new OUT_LEN stay after a command without error is the model's choice (log entry
6). -/
def Obligations.DecodeAndEncodeFrame : Prop :=
  ∀ (s t : State), s.cfg.legal = true →
    (exec .decode s = .next t →
      t.arg0 = s.arg0 ∧ t.inLen = s.inLen ∧ t.bwBits = s.bwBits ∧ (∀ a, memRead t.inMem a = memRead s.inMem a) ∧
      t.host = s.host ∧ t.hostData = s.hostData ∧ t.cfg = s.cfg ∧
      (t.status.err = false → ∀ a, t.outLen.toNat ≤ a → memRead t.outMem a = memRead s.outMem a)) ∧
    (exec .encode s = .next t →
      t.arg0 = s.arg0 ∧ t.inLen = s.inLen ∧ t.brPos = s.brPos ∧ (∀ a, memRead t.inMem a = memRead s.inMem a) ∧
      t.host = s.host ∧ t.hostData = s.hostData ∧ t.cfg = s.cfg ∧
      (∀ a, t.outLen.toNat ≤ a ∨ t.status.err = true → memRead t.outMem a = memRead s.outMem a) ∧
      (t.status.err = true → t.bwBits = s.bwBits ∧ t.hdrCsw = s.hdrCsw ∧ t.hdrClw = s.hdrClw))

/-! ### Whole-machine rules -/

/-- The engine never writes `IN`, IN_LEN or ARG0: no instruction does (10_state.md R14, R23, R27), and none touches
the host's moves or the parameters. -/
def Obligations.NoInstructionWritesTheHostsState : Prop :=
  ∀ (s t : State) (i : Instr), exec i s = .next t →
    t.inMem = s.inMem ∧ t.inLen = s.inLen ∧ t.arg0 = s.arg0 ∧ t.host = s.host ∧ t.cfg = s.cfg

/-- Every command that answers a next state has ended: BUSY = 0, DONE = 1, ERR exactly when ERRCODE is an error, the
engine idle, and CMD holds its word (10_state.md R29 to R31). -/
def Obligations.EveryCommandEnds : Prop :=
  ∀ (s t : State) (i : Instr) (csw clw : Nibble) (w : Word), encode csw clw i = .word w → exec i s = .next t →
    t.status.busy = false ∧ t.status.done = true ∧ (t.status.err = true ↔ t.status.errcode ≠ .none) ∧
    engineIdle t = true ∧ t.cmd = w

/-- Which errors each command can end with (60_exceptions.md R121). -/
def Obligations.CommandsRaiseOnlyTheirErrors : Prop :=
  ∀ (s t : State) (i : Instr), i.isStreamItem = false → exec i s = .next t →
    t.status.errcode = .none ∨ t.status.errcode = .illegalCommand ∨
    (t.status.errcode = .outOfData ∧ (i = .brReadBool ∨ ∃ w, i = .brReadUint w)) ∨
    (t.status.errcode = .notAligned ∧ (i = .brBytePos ∨ i = .bwToBytes)) ∨
    (t.status.errcode = .valueTooWide ∧ ∃ w, i = .bwWriteUint w) ∨
    (t.status.errcode = .outputOverflow ∧ (i = .decode ∨ ∃ w, i = .bwWriteUint w)) ∨
    (t.status.errcode = .malformedStream ∧ i = .decode) ∨
    (t.status.errcode = .distanceOutOfRange ∧ i = .decode) ∨
    (t.status.errcode = .capacityExceeded ∧ i = .encode)

/-- A command that ends with an error gives RESULT 0, but for CAPACITY_EXCEEDED; DECODE and ENCODE then set OUT_LEN to
0, the other commands leave OUT_LEN, the cursor, `bw_bits` and HDR (60_exceptions.md R123). -/
def Obligations.ErrorsLeaveTheTable : Prop :=
  ∀ (s t : State) (i : Instr), i.isStreamItem = false → exec i s = .next t → t.status.err = true →
    (t.status.errcode ≠ .capacityExceeded → t.result = 0) ∧
    (t.status.errcode ≠ .illegalCommand → i = .decode ∨ i = .encode → t.outLen = 0) ∧
    (t.status.errcode = .illegalCommand ∨ (i ≠ .decode ∧ i ≠ .encode) →
      t.outLen = s.outLen ∧ t.outMem = s.outMem ∧ t.brPos = s.brPos ∧ t.bwBits = s.bwBits ∧
      t.hdrCsw = s.hdrCsw ∧ t.hdrClw = s.hdrClw)

/-! ### The invariant -/

/-- The state after reset meets the invariant, with the parameters the model takes there (log entry 3). -/
def Obligations.ResetMeetsTheInvariant : Prop := Inv State.reset

/-- Every step from a state that meets the invariant gives a state that meets it. -/
def Obligations.StepKeepsTheInvariant : Prop :=
  ∀ (s t : State), Inv s → step s = .next t → Inv t
end

