-- ==== Sys2Proof/Laws/Bits.lean ====
section
/-! SUPPORT. The laws of bit sequences: values and bits are inverse, `ceil8` rounds up to a byte, packing cuts a
sequence into its bytes. -/

namespace Sys2Proof.Machine

@[simp] theorem bitsVal_nil : bitsVal [] = 0 := rfl

@[simp] theorem bitsVal_cons (b : Bool) (bs : List Bool) :
    bitsVal (b :: bs) = b.toNat * 2 ^ bs.length + bitsVal bs := rfl

@[simp] theorem valBits_length (w v : Nat) : (valBits w v).length = w := by
  induction w with
  | zero => rfl
  | succ w ih => simp [valBits, ih]

/-- The `i`-th bit of a written value is its bit `w − 1 − i` (20_memory.md R42). -/
theorem valBits_getElem? {w v i : Nat} (h : i < w) : (valBits w v)[i]? = some (v.testBit (w - 1 - i)) := by
  induction w generalizing i with
  | zero => omega
  | succ w ih =>
    cases i with
    | zero => rfl
    | succ i =>
      rw [valBits, List.getElem?_cons_succ, ih (by omega)]
      congr 2; omega

theorem bitsVal_lt (bs : List Bool) : bitsVal bs < 2 ^ bs.length := by
  induction bs with
  | nil => simp
  | cons b bs ih =>
    rw [bitsVal_cons, List.length_cons, Nat.pow_succ]
    have hb : b.toNat ≤ 1 := by cases b <;> simp
    have := Nat.mul_le_mul_right (2 ^ bs.length) hb
    omega

theorem bitsVal_append (xs ys : List Bool) :
    bitsVal (xs ++ ys) = bitsVal xs * 2 ^ ys.length + bitsVal ys := by
  induction xs with
  | nil => simp
  | cons x xs ih =>
    rw [List.cons_append, bitsVal_cons, ih, bitsVal_cons, List.length_append, Nat.pow_add]
    ring

/-- The bits of `v` weigh `v mod 2^w` (20_memory.md R41, R42). -/
theorem bitsVal_valBits_mod (w v : Nat) : bitsVal (valBits w v) = v % 2 ^ w := by
  induction w with
  | zero => simp [valBits, Nat.mod_one]
  | succ w ih =>
    rw [valBits, bitsVal_cons, valBits_length, ih, Nat.mod_pow_succ, Nat.toNat_testBit, Nat.mul_comm, Nat.add_comm]

theorem bitsVal_valBits {w v : Nat} (h : v < 2 ^ w) : bitsVal (valBits w v) = v := by
  rw [bitsVal_valBits_mod, Nat.mod_eq_of_lt h]

theorem valBits_congr {w a b : Nat} (h : a % 2 ^ w = b % 2 ^ w) : valBits w a = valBits w b := by
  induction w with
  | zero => rfl
  | succ w ih =>
    have hm : a % 2 ^ w = b % 2 ^ w := by
      have := congrArg (· % 2 ^ w) h
      simpa [Nat.mod_mod_of_dvd _ (Nat.pow_dvd_pow 2 (Nat.le_succ w))] using this
    have hb : a.testBit w = b.testBit w := by
      have := congrArg (Nat.testBit · w) h
      simpa [Nat.testBit_mod_two_pow] using this
    rw [valBits, valBits, hb, ih hm]

/-- The bits of a sequence's value are the sequence. -/
theorem valBits_bitsVal (bs : List Bool) : valBits bs.length (bitsVal bs) = bs := by
  induction bs with
  | nil => rfl
  | cons b bs ih =>
    have hlt := bitsVal_lt bs
    rw [List.length_cons, valBits]
    congr 1
    · rw [bitsVal_cons, Nat.mul_comm, Nat.testBit_two_pow_mul_add _ hlt, if_neg (Nat.lt_irrefl _), Nat.sub_self]
      cases b <;> rfl
    · refine Eq.trans (valBits_congr ?_) ih
      rw [bitsVal_cons, Nat.add_comm, Nat.add_mul_mod_self_right]

/-! `ceil8`. -/

theorem ceil8_mod (n : Nat) : ceil8 n % 8 = 0 := by unfold ceil8; omega

theorem le_ceil8 (n : Nat) : n ≤ ceil8 n := by unfold ceil8; omega

theorem ceil8_lt (n : Nat) : ceil8 n < n + 8 := by unfold ceil8; omega

theorem ceil8_eq_self {n : Nat} (h : n % 8 = 0) : ceil8 n = n := by unfold ceil8; omega

theorem ceil8_le {n m : Nat} (h : n ≤ 8 * m) : ceil8 n ≤ 8 * m := by unfold ceil8; omega

theorem ceil8_add {a : Nat} (h : a % 8 = 0) (n : Nat) : ceil8 (a + n) = a + ceil8 n := by unfold ceil8; omega

@[simp] theorem padBits_length (n : Nat) : (padBits n).length = ceil8 n - n := by simp [padBits]

/-! Packing. -/

/-- Packing gives the whole bytes of a sequence. -/
theorem packBytes_length_div (bits : List Bool) : (packBytes bits).length = bits.length / 8 := by simp [packBytes]

theorem packBytes_length {bits : List Bool} {n : Nat} (h : bits.length = 8 * n) : (packBytes bits).length = n := by
  rw [packBytes_length_div]; omega

/-- Byte `m` of a packed sequence is made of the bits `8m … 8m+7` (20_memory.md R42). -/
theorem packBytes_getElem? {bits : List Bool} {n : Nat} (h : bits.length = 8 * n) {m : Nat} (hm : m < n) :
    (packBytes bits)[m]? = some (BitVec.ofNat 8 (bitsVal ((bits.drop (8 * m)).take 8))) := by
  rw [packBytes, List.getElem?_map, List.getElem?_range (by omega)]; rfl

/-- The bits of a packed byte are the bits it was made of. -/
theorem byteBit_packed (bs : List Bool) (h : bs.length = 8) {i : Nat} (hi : i < 8) :
    bs[i]? = some (byteBit (BitVec.ofNat 8 (bitsVal bs)) i) := by
  have hlt : bitsVal bs < 2 ^ 8 := h ▸ bitsVal_lt bs
  have hv : valBits 8 (bitsVal bs) = bs := h ▸ valBits_bitsVal bs
  rw [byteBit, BitVec.toNat_ofNat, Nat.mod_eq_of_lt hlt]
  conv_lhs => rw [← hv, valBits_getElem? hi]

end Sys2Proof.Machine
end

