-- ==== Sys2Proof/Laws/Memory.lean ====
section
/-! SUPPORT. The laws of a byte memory: a read after a write, the canonical form and the capacity kept by every
operation. -/

namespace Sys2Proof.Machine

@[simp] theorem memRead_nil (i : Nat) : memRead [] i = none := rfl

@[simp] theorem memRead_memWrite_same (m : Memory) (i : Nat) (v : Byte) : memRead (memWrite m i v) i = some v := by
  induction m with
  | nil => simp [memWrite, memRead]
  | cons c m ih =>
    obtain ⟨a, b⟩ := c
    simp only [memWrite]
    split
    · simp [memRead]
    · split
      · simp [memRead]
      · next h => simp [memRead, h, ih]

theorem memRead_memWrite_other (m : Memory) {i j : Nat} (v : Byte) (h : j ≠ i) :
    memRead (memWrite m i v) j = memRead m j := by
  induction m with
  | nil => simp [memWrite, memRead, h]
  | cons c m ih =>
    obtain ⟨a, b⟩ := c
    simp only [memWrite]
    split
    · simp [memRead, h]
    · split
      · next h2 => subst h2; simp [memRead, h]
      · simp only [memRead, ih]

theorem memRead_memWrite (m : Memory) (i j : Nat) (v : Byte) :
    memRead (memWrite m i v) j = if j = i then some v else memRead m j := by
  split
  · next h => subst h; exact memRead_memWrite_same m j v
  · next h => exact memRead_memWrite_other m v h

/-- A sequence written at `i`: its bytes there, every other byte as before. -/
theorem memRead_memWriteList (m : Memory) (i : Nat) (vs : List Byte) (j : Nat) :
    memRead (memWriteList m i vs) j = if i ≤ j ∧ j < i + vs.length then vs[j - i]? else memRead m j := by
  induction vs generalizing m i with
  | nil => simp [memWriteList]
  | cons v vs ih =>
    rw [memWriteList, ih, memRead_memWrite]
    by_cases h1 : i + 1 ≤ j ∧ j < i + 1 + vs.length
    · have h2 : i ≤ j ∧ j < i + (v :: vs).length := by simp; omega
      have h3 : j - i = (j - (i + 1)) + 1 := by omega
      rw [if_pos h1, if_pos h2, h3, List.getElem?_cons_succ]
    · rw [if_neg h1]
      by_cases h4 : j = i
      · subst h4
        have h2 : j ≤ j ∧ j < j + (v :: vs).length := by simp
        rw [if_pos rfl, if_pos h2]; simp
      · have h2 : ¬ (i ≤ j ∧ j < i + (v :: vs).length) := by simp at h1 ⊢; omega
        rw [if_neg h4, if_neg h2]

theorem memRead_memOfList (bs : List Byte) (j : Nat) : memRead (memOfList bs) j = bs[j]? := by
  rw [memOfList, memRead_memWriteList]
  split
  · simp
  · next h => simp at h; simp [h]

theorem memReadList_eq_some {m : Memory} {i n : Nat} {bs : List Byte} :
    memReadList m i n = some bs ↔ bs.length = n ∧ ∀ k, k < n → memRead m (i + k) = bs[k]? := by
  induction n generalizing i bs with
  | zero =>
    simp only [memReadList, Option.some.injEq]
    constructor
    · rintro rfl; simp
    · rintro ⟨h, -⟩; exact (List.eq_nil_of_length_eq_zero h).symm
  | succ n ih =>
    rw [memReadList]
    constructor
    · intro h
      split at h
      · next b bs' hb hbs =>
        cases h
        obtain ⟨hl, hr⟩ := ih.1 hbs
        refine ⟨by simp [hl], fun k hk => ?_⟩
        cases k with
        | zero => simpa using hb
        | succ k =>
          have := hr k (by omega)
          rw [List.getElem?_cons_succ, ← this]
          congr 1; omega
      · cases h
    · rintro ⟨hl, hr⟩
      match bs, hl with
      | b :: bs', hl =>
        have h0 : memRead m i = some b := by simpa using hr 0 (by omega)
        have hbs : memReadList m (i + 1) n = some bs' := by
          refine ih.2 ⟨by simpa using hl, fun k hk => ?_⟩
          have := hr (k + 1) (by omega)
          rw [List.getElem?_cons_succ] at this
          rw [← this]; congr 1; omega
        rw [h0, hbs]

/-! The canonical form. -/

theorem memRisingFrom_weaken {m : Memory} {lo lo' : Nat} (h : memRisingFrom lo m = true) (hl : lo' ≤ lo) :
    memRisingFrom lo' m = true := by
  cases m with
  | nil => rfl
  | cons c m =>
    obtain ⟨a, b⟩ := c
    simp only [memRisingFrom, Bool.and_eq_true, decide_eq_true_eq] at h ⊢
    exact ⟨by omega, h.2⟩

theorem memRisingFrom_memWrite {m : Memory} {lo i : Nat} (v : Byte) (h : memRisingFrom lo m = true) (hi : lo ≤ i) :
    memRisingFrom lo (memWrite m i v) = true := by
  induction m generalizing lo with
  | nil => simp [memWrite, memRisingFrom, hi]
  | cons c m ih =>
    obtain ⟨a, b⟩ := c
    simp only [memRisingFrom, Bool.and_eq_true, decide_eq_true_eq] at h
    simp only [memWrite]
    split
    · simp only [memRisingFrom, Bool.and_eq_true, decide_eq_true_eq]
      exact ⟨hi, by omega, h.2⟩
    · split
      · next h2 =>
        subst h2
        simp only [memRisingFrom, Bool.and_eq_true, decide_eq_true_eq]
        exact ⟨hi, h.2⟩
      · simp only [memRisingFrom, Bool.and_eq_true, decide_eq_true_eq]
        exact ⟨h.1, ih h.2 (by omega)⟩

/-- A write keeps the canonical form. -/
theorem memWrite_wf {m : Memory} (i : Nat) (v : Byte) (h : Memory.wf m = true) : Memory.wf (memWrite m i v) = true :=
  memRisingFrom_memWrite v h (Nat.zero_le i)

/-- Writing a sequence keeps the canonical form. -/
theorem memWriteList_wf {m : Memory} (i : Nat) (vs : List Byte) (h : Memory.wf m = true) :
    Memory.wf (memWriteList m i vs) = true := by
  induction vs generalizing m i with
  | nil => exact h
  | cons v vs ih => exact ih (i + 1) (memWrite_wf i v h)

@[simp] theorem memory_nil_wf : Memory.wf [] = true := rfl

theorem memOfList_wf (bs : List Byte) : Memory.wf (memOfList bs) = true := memWriteList_wf 0 bs memory_nil_wf

/-! The capacity. -/

@[simp] theorem memBelow_nil (cap : Nat) : memBelow cap [] = true := rfl

theorem memBelow_memWrite {cap : Nat} {m : Memory} {i : Nat} (v : Byte) (h : memBelow cap m = true) (hi : i < cap) :
    memBelow cap (memWrite m i v) = true := by
  induction m with
  | nil => simp [memWrite, memBelow, hi]
  | cons c m ih =>
    obtain ⟨a, b⟩ := c
    simp only [memBelow, List.all_cons, Bool.and_eq_true, decide_eq_true_eq] at h ih
    simp only [memWrite]
    split
    · simp only [memBelow, List.all_cons, Bool.and_eq_true, decide_eq_true_eq]; exact ⟨hi, h⟩
    · split
      · simp only [memBelow, List.all_cons, Bool.and_eq_true, decide_eq_true_eq]; exact ⟨hi, h.2⟩
      · simp only [memBelow, List.all_cons, Bool.and_eq_true, decide_eq_true_eq]; exact ⟨h.1, ih h.2⟩

theorem memBelow_memWriteList {cap : Nat} {m : Memory} {i : Nat} (vs : List Byte) (h : memBelow cap m = true)
    (hi : i + vs.length ≤ cap) : memBelow cap (memWriteList m i vs) = true := by
  induction vs generalizing m i with
  | nil => exact h
  | cons v vs ih =>
    simp only [List.length_cons] at hi
    exact ih (memBelow_memWrite v h (by omega)) (by omega)

/-- Two canonical memories that read alike are equal: equal memories are equal data. -/
theorem memory_ext_from {m n : Memory} {lo : Nat} (hm : memRisingFrom lo m = true) (hn : memRisingFrom lo n = true)
    (h : ∀ i, memRead m i = memRead n i) : m = n := by
  have below : ∀ {m : Memory} {lo i : Nat}, memRisingFrom lo m = true → i < lo → memRead m i = none := by
    intro m
    induction m with
    | nil => intros; rfl
    | cons c m ih =>
      obtain ⟨a, b⟩ := c
      intro lo i hr hi
      simp only [memRisingFrom, Bool.and_eq_true, decide_eq_true_eq] at hr
      have hne : i ≠ a := by omega
      simp only [memRead, hne, if_false]
      exact ih hr.2 (by omega)
  induction m generalizing n lo with
  | nil =>
    cases n with
    | nil => rfl
    | cons c n => obtain ⟨a, b⟩ := c; simpa [memRead] using h a
  | cons c m ih =>
    obtain ⟨a, b⟩ := c
    cases n with
    | nil => simpa [memRead] using h a
    | cons c' n =>
      obtain ⟨a', b'⟩ := c'
      have hm' := hm
      have hn' := hn
      simp only [memRisingFrom, Bool.and_eq_true, decide_eq_true_eq] at hm hn
      have haa : a = a' := by
        rcases Nat.lt_trichotomy a a' with hlt | heq | hgt
        · have := h a
          have hz : memRead ((a', b') :: n) a = none :=
            below (lo := a') (by simp only [memRisingFrom, Bool.and_eq_true, decide_eq_true_eq]; exact ⟨Nat.le_refl _, hn.2⟩) hlt
          simp [memRead] at this hz
          simp [hz] at this
        · exact heq
        · have := h a'
          have hz : memRead ((a, b) :: m) a' = none :=
            below (lo := a) (by simp only [memRisingFrom, Bool.and_eq_true, decide_eq_true_eq]; exact ⟨Nat.le_refl _, hm.2⟩) hgt
          rw [hz] at this
          simp [memRead] at this
      subst haa
      have hb : b = b' := by simpa [memRead] using h a
      subst hb
      congr 1
      refine ih hm.2 hn.2 (fun i => ?_)
      by_cases hi : i = a
      · subst hi; rw [below hm.2 (Nat.lt_succ_self _), below hn.2 (Nat.lt_succ_self _)]
      · simpa [memRead, hi] using h i

theorem memory_ext {m n : Memory} (hm : Memory.wf m = true) (hn : Memory.wf n = true)
    (h : ∀ i, memRead m i = memRead n i) : m = n :=
  memory_ext_from hm hn h

end Sys2Proof.Machine
end

