-- ==== Sys2Proof/Laws/State.lean ====
section
/-! SUPPORT. The named updates of the state, field by field: what each sets and what it leaves. -/

namespace Sys2Proof.Machine

@[simp] theorem issue_cmd (w : Word) (s : State) : (issue w s).cmd = w := rfl
@[simp] theorem issue_arg0 (w : Word) (s : State) : (issue w s).arg0 = s.arg0 := rfl
@[simp] theorem issue_status (w : Word) (s : State) : (issue w s).status = Status.issued := rfl
@[simp] theorem issue_result (w : Word) (s : State) : (issue w s).result = s.result := rfl
@[simp] theorem issue_hdrCsw (w : Word) (s : State) : (issue w s).hdrCsw = s.hdrCsw := rfl
@[simp] theorem issue_hdrClw (w : Word) (s : State) : (issue w s).hdrClw = s.hdrClw := rfl
@[simp] theorem issue_inLen (w : Word) (s : State) : (issue w s).inLen = s.inLen := rfl
@[simp] theorem issue_outLen (w : Word) (s : State) : (issue w s).outLen = s.outLen := rfl
@[simp] theorem issue_brPos (w : Word) (s : State) : (issue w s).brPos = s.brPos := rfl
@[simp] theorem issue_bwBits (w : Word) (s : State) : (issue w s).bwBits = s.bwBits := rfl
@[simp] theorem issue_inMem (w : Word) (s : State) : (issue w s).inMem = s.inMem := rfl
@[simp] theorem issue_outMem (w : Word) (s : State) : (issue w s).outMem = s.outMem := rfl
@[simp] theorem issue_engine (w : Word) (s : State) : (issue w s).engine = s.engine := rfl
@[simp] theorem issue_host (w : Word) (s : State) : (issue w s).host = s.host := rfl
@[simp] theorem issue_hostData (w : Word) (s : State) : (issue w s).hostData = s.hostData := rfl
@[simp] theorem issue_cfg (w : Word) (s : State) : (issue w s).cfg = s.cfg := rfl

@[simp] theorem complete_cmd (r : Word) (s : State) : (complete r s).cmd = s.cmd := rfl
@[simp] theorem complete_arg0 (r : Word) (s : State) : (complete r s).arg0 = s.arg0 := rfl
@[simp] theorem complete_status (r : Word) (s : State) : (complete r s).status = Status.completed := rfl
@[simp] theorem complete_result (r : Word) (s : State) : (complete r s).result = r := rfl
@[simp] theorem complete_hdrCsw (r : Word) (s : State) : (complete r s).hdrCsw = s.hdrCsw := rfl
@[simp] theorem complete_hdrClw (r : Word) (s : State) : (complete r s).hdrClw = s.hdrClw := rfl
@[simp] theorem complete_inLen (r : Word) (s : State) : (complete r s).inLen = s.inLen := rfl
@[simp] theorem complete_outLen (r : Word) (s : State) : (complete r s).outLen = s.outLen := rfl
@[simp] theorem complete_brPos (r : Word) (s : State) : (complete r s).brPos = s.brPos := rfl
@[simp] theorem complete_bwBits (r : Word) (s : State) : (complete r s).bwBits = s.bwBits := rfl
@[simp] theorem complete_inMem (r : Word) (s : State) : (complete r s).inMem = s.inMem := rfl
@[simp] theorem complete_outMem (r : Word) (s : State) : (complete r s).outMem = s.outMem := rfl
@[simp] theorem complete_engine (r : Word) (s : State) : (complete r s).engine = .idle := rfl
@[simp] theorem complete_host (r : Word) (s : State) : (complete r s).host = s.host := rfl
@[simp] theorem complete_hostData (r : Word) (s : State) : (complete r s).hostData = s.hostData := rfl
@[simp] theorem complete_cfg (r : Word) (s : State) : (complete r s).cfg = s.cfg := rfl

@[simp] theorem raise_cmd (e : ErrCode) (info : Word) (s : State) : (raise e info s).cmd = s.cmd := rfl
@[simp] theorem raise_arg0 (e : ErrCode) (info : Word) (s : State) : (raise e info s).arg0 = s.arg0 := rfl
@[simp] theorem raise_status (e : ErrCode) (info : Word) (s : State) : (raise e info s).status = Status.failed e := rfl
@[simp] theorem raise_result (e : ErrCode) (info : Word) (s : State) : (raise e info s).result = info := rfl
@[simp] theorem raise_hdrCsw (e : ErrCode) (info : Word) (s : State) : (raise e info s).hdrCsw = s.hdrCsw := rfl
@[simp] theorem raise_hdrClw (e : ErrCode) (info : Word) (s : State) : (raise e info s).hdrClw = s.hdrClw := rfl
@[simp] theorem raise_inLen (e : ErrCode) (info : Word) (s : State) : (raise e info s).inLen = s.inLen := rfl
@[simp] theorem raise_outLen (e : ErrCode) (info : Word) (s : State) : (raise e info s).outLen = s.outLen := rfl
@[simp] theorem raise_brPos (e : ErrCode) (info : Word) (s : State) : (raise e info s).brPos = s.brPos := rfl
@[simp] theorem raise_bwBits (e : ErrCode) (info : Word) (s : State) : (raise e info s).bwBits = s.bwBits := rfl
@[simp] theorem raise_inMem (e : ErrCode) (info : Word) (s : State) : (raise e info s).inMem = s.inMem := rfl
@[simp] theorem raise_outMem (e : ErrCode) (info : Word) (s : State) : (raise e info s).outMem = s.outMem := rfl
@[simp] theorem raise_engine (e : ErrCode) (info : Word) (s : State) : (raise e info s).engine = .idle := rfl
@[simp] theorem raise_host (e : ErrCode) (info : Word) (s : State) : (raise e info s).host = s.host := rfl
@[simp] theorem raise_hostData (e : ErrCode) (info : Word) (s : State) : (raise e info s).hostData = s.hostData := rfl
@[simp] theorem raise_cfg (e : ErrCode) (info : Word) (s : State) : (raise e info s).cfg = s.cfg := rfl

@[simp] theorem withholdOutput_cmd (s : State) : (withholdOutput s).cmd = s.cmd := rfl
@[simp] theorem withholdOutput_arg0 (s : State) : (withholdOutput s).arg0 = s.arg0 := rfl
@[simp] theorem withholdOutput_status (s : State) : (withholdOutput s).status = s.status := rfl
@[simp] theorem withholdOutput_result (s : State) : (withholdOutput s).result = s.result := rfl
@[simp] theorem withholdOutput_hdrCsw (s : State) : (withholdOutput s).hdrCsw = s.hdrCsw := rfl
@[simp] theorem withholdOutput_hdrClw (s : State) : (withholdOutput s).hdrClw = s.hdrClw := rfl
@[simp] theorem withholdOutput_inLen (s : State) : (withholdOutput s).inLen = s.inLen := rfl
@[simp] theorem withholdOutput_outLen (s : State) : (withholdOutput s).outLen = 0 := rfl
@[simp] theorem withholdOutput_brPos (s : State) : (withholdOutput s).brPos = s.brPos := rfl
@[simp] theorem withholdOutput_bwBits (s : State) : (withholdOutput s).bwBits = s.bwBits := rfl
@[simp] theorem withholdOutput_inMem (s : State) : (withholdOutput s).inMem = s.inMem := rfl
@[simp] theorem withholdOutput_outMem (s : State) : (withholdOutput s).outMem = [] := rfl
@[simp] theorem withholdOutput_engine (s : State) : (withholdOutput s).engine = s.engine := rfl
@[simp] theorem withholdOutput_host (s : State) : (withholdOutput s).host = s.host := rfl
@[simp] theorem withholdOutput_hostData (s : State) : (withholdOutput s).hostData = s.hostData := rfl
@[simp] theorem withholdOutput_cfg (s : State) : (withholdOutput s).cfg = s.cfg := rfl

@[simp] theorem setBrPos_cmd (n : Nat) (s : State) : (setBrPos n s).cmd = s.cmd := rfl
@[simp] theorem setBrPos_arg0 (n : Nat) (s : State) : (setBrPos n s).arg0 = s.arg0 := rfl
@[simp] theorem setBrPos_status (n : Nat) (s : State) : (setBrPos n s).status = s.status := rfl
@[simp] theorem setBrPos_result (n : Nat) (s : State) : (setBrPos n s).result = s.result := rfl
@[simp] theorem setBrPos_hdrCsw (n : Nat) (s : State) : (setBrPos n s).hdrCsw = s.hdrCsw := rfl
@[simp] theorem setBrPos_hdrClw (n : Nat) (s : State) : (setBrPos n s).hdrClw = s.hdrClw := rfl
@[simp] theorem setBrPos_inLen (n : Nat) (s : State) : (setBrPos n s).inLen = s.inLen := rfl
@[simp] theorem setBrPos_outLen (n : Nat) (s : State) : (setBrPos n s).outLen = s.outLen := rfl
@[simp] theorem setBrPos_brPos (n : Nat) (s : State) : (setBrPos n s).brPos = BitVec.ofNat 35 n := rfl
@[simp] theorem setBrPos_bwBits (n : Nat) (s : State) : (setBrPos n s).bwBits = s.bwBits := rfl
@[simp] theorem setBrPos_inMem (n : Nat) (s : State) : (setBrPos n s).inMem = s.inMem := rfl
@[simp] theorem setBrPos_outMem (n : Nat) (s : State) : (setBrPos n s).outMem = s.outMem := rfl
@[simp] theorem setBrPos_engine (n : Nat) (s : State) : (setBrPos n s).engine = s.engine := rfl
@[simp] theorem setBrPos_host (n : Nat) (s : State) : (setBrPos n s).host = s.host := rfl
@[simp] theorem setBrPos_hostData (n : Nat) (s : State) : (setBrPos n s).hostData = s.hostData := rfl
@[simp] theorem setBrPos_cfg (n : Nat) (s : State) : (setBrPos n s).cfg = s.cfg := rfl

@[simp] theorem advance_cmd (n : Nat) (s : State) : (advance n s).cmd = s.cmd := rfl
@[simp] theorem advance_arg0 (n : Nat) (s : State) : (advance n s).arg0 = s.arg0 := rfl
@[simp] theorem advance_status (n : Nat) (s : State) : (advance n s).status = s.status := rfl
@[simp] theorem advance_result (n : Nat) (s : State) : (advance n s).result = s.result := rfl
@[simp] theorem advance_hdrCsw (n : Nat) (s : State) : (advance n s).hdrCsw = s.hdrCsw := rfl
@[simp] theorem advance_hdrClw (n : Nat) (s : State) : (advance n s).hdrClw = s.hdrClw := rfl
@[simp] theorem advance_inLen (n : Nat) (s : State) : (advance n s).inLen = s.inLen := rfl
@[simp] theorem advance_outLen (n : Nat) (s : State) : (advance n s).outLen = s.outLen := rfl
@[simp] theorem advance_brPos (n : Nat) (s : State) : (advance n s).brPos = BitVec.ofNat 35 (s.brPos.toNat + n) := rfl
@[simp] theorem advance_bwBits (n : Nat) (s : State) : (advance n s).bwBits = s.bwBits := rfl
@[simp] theorem advance_inMem (n : Nat) (s : State) : (advance n s).inMem = s.inMem := rfl
@[simp] theorem advance_outMem (n : Nat) (s : State) : (advance n s).outMem = s.outMem := rfl
@[simp] theorem advance_engine (n : Nat) (s : State) : (advance n s).engine = s.engine := rfl
@[simp] theorem advance_host (n : Nat) (s : State) : (advance n s).host = s.host := rfl
@[simp] theorem advance_hostData (n : Nat) (s : State) : (advance n s).hostData = s.hostData := rfl
@[simp] theorem advance_cfg (n : Nat) (s : State) : (advance n s).cfg = s.cfg := rfl

@[simp] theorem setDec_cmd (r : DecRegs) (s : State) : (setDec r s).cmd = s.cmd := rfl
@[simp] theorem setDec_arg0 (r : DecRegs) (s : State) : (setDec r s).arg0 = s.arg0 := rfl
@[simp] theorem setDec_status (r : DecRegs) (s : State) : (setDec r s).status = s.status := rfl
@[simp] theorem setDec_result (r : DecRegs) (s : State) : (setDec r s).result = s.result := rfl
@[simp] theorem setDec_hdrCsw (r : DecRegs) (s : State) : (setDec r s).hdrCsw = s.hdrCsw := rfl
@[simp] theorem setDec_hdrClw (r : DecRegs) (s : State) : (setDec r s).hdrClw = s.hdrClw := rfl
@[simp] theorem setDec_inLen (r : DecRegs) (s : State) : (setDec r s).inLen = s.inLen := rfl
@[simp] theorem setDec_outLen (r : DecRegs) (s : State) : (setDec r s).outLen = s.outLen := rfl
@[simp] theorem setDec_brPos (r : DecRegs) (s : State) : (setDec r s).brPos = s.brPos := rfl
@[simp] theorem setDec_bwBits (r : DecRegs) (s : State) : (setDec r s).bwBits = s.bwBits := rfl
@[simp] theorem setDec_inMem (r : DecRegs) (s : State) : (setDec r s).inMem = s.inMem := rfl
@[simp] theorem setDec_outMem (r : DecRegs) (s : State) : (setDec r s).outMem = s.outMem := rfl
@[simp] theorem setDec_engine (r : DecRegs) (s : State) : (setDec r s).engine = .decoding r := rfl
@[simp] theorem setDec_host (r : DecRegs) (s : State) : (setDec r s).host = s.host := rfl
@[simp] theorem setDec_hostData (r : DecRegs) (s : State) : (setDec r s).hostData = s.hostData := rfl
@[simp] theorem setDec_cfg (r : DecRegs) (s : State) : (setDec r s).cfg = s.cfg := rfl

@[simp] theorem setEnc_cmd (e : EncRegs) (s : State) : (setEnc e s).cmd = s.cmd := rfl
@[simp] theorem setEnc_arg0 (e : EncRegs) (s : State) : (setEnc e s).arg0 = s.arg0 := rfl
@[simp] theorem setEnc_status (e : EncRegs) (s : State) : (setEnc e s).status = s.status := rfl
@[simp] theorem setEnc_result (e : EncRegs) (s : State) : (setEnc e s).result = s.result := rfl
@[simp] theorem setEnc_hdrCsw (e : EncRegs) (s : State) : (setEnc e s).hdrCsw = s.hdrCsw := rfl
@[simp] theorem setEnc_hdrClw (e : EncRegs) (s : State) : (setEnc e s).hdrClw = s.hdrClw := rfl
@[simp] theorem setEnc_inLen (e : EncRegs) (s : State) : (setEnc e s).inLen = s.inLen := rfl
@[simp] theorem setEnc_outLen (e : EncRegs) (s : State) : (setEnc e s).outLen = s.outLen := rfl
@[simp] theorem setEnc_brPos (e : EncRegs) (s : State) : (setEnc e s).brPos = s.brPos := rfl
@[simp] theorem setEnc_bwBits (e : EncRegs) (s : State) : (setEnc e s).bwBits = s.bwBits := rfl
@[simp] theorem setEnc_inMem (e : EncRegs) (s : State) : (setEnc e s).inMem = s.inMem := rfl
@[simp] theorem setEnc_outMem (e : EncRegs) (s : State) : (setEnc e s).outMem = s.outMem := rfl
@[simp] theorem setEnc_engine (e : EncRegs) (s : State) : (setEnc e s).engine = .encoding e := rfl
@[simp] theorem setEnc_host (e : EncRegs) (s : State) : (setEnc e s).host = s.host := rfl
@[simp] theorem setEnc_hostData (e : EncRegs) (s : State) : (setEnc e s).hostData = s.hostData := rfl
@[simp] theorem setEnc_cfg (e : EncRegs) (s : State) : (setEnc e s).cfg = s.cfg := rfl

/-- DECODE's failing end is `raise` after the output is withheld. -/
@[simp] theorem raiseDecode_eq (e : ErrCode) (s : State) : raiseDecode e s = raise e 0 (withholdOutput s) := rfl

@[simp] theorem andThen_next (s : State) (k : State → Exec) : andThen (.next s) k = k s := rfl

@[simp] theorem andThen_fault (r : Fault) (k : State → Exec) : andThen (.fault r) k = .fault r := rfl

@[simp] theorem andThen_refused (r : Refusal) (k : State → Exec) : andThen (.refused r) k = .refused r := rfl

/-- A sequence answers a next state exactly when both parts do. -/
theorem andThen_eq_next {x : Exec} {k : State → Exec} {t : State} :
    andThen x k = .next t ↔ ∃ u, x = .next u ∧ k u = .next t := by
  cases x <;> simp [andThen]

theorem engineIdle_iff (s : State) : engineIdle s = true ↔ s.engine = .idle := by
  unfold engineIdle; cases s.engine <;> simp

end Sys2Proof.Machine
end

