-- ==== Sys2Proof/Laws/Ops.lean ====
section
/-! SUPPORT. What each shared operation can do, said once. -/

namespace Sys2Proof.Machine

/-- A command answers a next state in two ways: ILLEGAL_COMMAND because IN_LEN > `IN_CAP`, or its body's. -/
theorem command_eq_next {w : Word} {body : State → Exec} {s t : State} :
    command w body s = .next t ↔
      s.status.busy = false ∧
      ((s.cfg.inCap < s.inLen.toNat ∧ t = raise .illegalCommand 0 (issue w s)) ∨
       (s.inLen.toNat ≤ s.cfg.inCap ∧ body (issue w s) = .next t)) := by
  unfold command
  cases hb : s.status.busy with
  | true => simp
  | false =>
    simp only [Bool.false_eq_true, if_false, true_and]
    split
    · next h =>
      constructor
      · intro h'; cases h'; exact .inl ⟨h, rfl⟩
      · rintro (⟨-, rfl⟩ | ⟨h', -⟩)
        · rfl
        · omega
    · next h =>
      constructor
      · intro h'; exact .inr ⟨by omega, h'⟩
      · rintro (⟨h', -⟩ | ⟨-, h'⟩)
        · omega
        · exact h'

/-- A command that may run is its body after the issue. -/
theorem command_of_ready {w : Word} {body : State → Exec} {s : State} (hb : s.status.busy = false)
    (hl : s.inLen.toNat ≤ s.cfg.inCap) : command w body s = body (issue w s) := by
  simp [command, hb, Nat.not_lt.2 hl]

theorem illegalCommand_eq_next {w : Word} {s t : State} :
    illegalCommand w s = .next t ↔ s.status.busy = false ∧ t = raise .illegalCommand 0 (issue w s) := by
  unfold illegalCommand
  cases hb : s.status.busy with
  | true => simp
  | false => simp [eq_comm]

/-- Appending a byte: there is room, the byte goes to `OUT[OUT_LEN]`, OUT_LEN grows by 1. -/
theorem appendOut_eq_next {b : Byte} {s t : State} :
    appendOut b s = .next t ↔
      s.outLen.toNat < s.cfg.outCap ∧
      t = { s with outMem := memWrite s.outMem s.outLen.toNat b, outLen := s.outLen + 1 } := by
  unfold appendOut
  split
  · next h => constructor
              · intro h'; cases h'; exact ⟨h, rfl⟩
              · rintro ⟨-, rfl⟩; rfl
  · next h => simp [h]

/-- One step of a copy: the source byte has a value and is appended. -/
theorem copyByte_eq_next {d : Nat} {s t : State} :
    copyByte d s = .next t ↔ ∃ b, memRead s.outMem (s.outLen.toNat - d) = some b ∧ appendOut b s = .next t := by
  unfold copyByte
  split
  · next b hb => simp [hb]
  · next hb => simp [hb]

/-- Writing a byte sequence to `OUT`: it fits, and OUT_LEN is its length. -/
theorem putOut_eq_next {bs : List Byte} {s t : State} :
    putOut bs s = .next t ↔
      bs.length ≤ s.cfg.outCap ∧
      t = { s with outMem := memWriteList s.outMem 0 bs, outLen := BitVec.ofNat 32 bs.length } := by
  unfold putOut
  split
  · next h => constructor
              · intro h'; cases h'; exact ⟨h, rfl⟩
              · rintro ⟨-, rfl⟩; rfl
  · next h => simp [h]

/-- An item that answers a next state runs in its phase of DECODE. -/
theorem inPhase_eq_next {p : DecPhase} {k : DecRegs → Exec} {s t : State} :
    inPhase p k s = .next t ↔ ∃ r, s.engine = .decoding r ∧ r.phase = p ∧ k r = .next t := by
  unfold inPhase
  split
  · next r hr =>
    split
    · next h => constructor
                · intro h'; exact ⟨r, hr, h, h'⟩
                · rintro ⟨r', hr', -, h'⟩; rw [hr] at hr'; cases hr'; exact h'
    · next h => constructor
                · intro h'; cases h'
                · rintro ⟨r', hr', hp, -⟩; rw [hr] at hr'; cases hr'; exact absurd hp h
  · next hr => simp [hr]
  · next e he => simp [he]

theorem inPhase_of {p : DecPhase} {k : DecRegs → Exec} {s : State} {r : DecRegs} (hr : s.engine = .decoding r)
    (hp : r.phase = p) : inPhase p k s = k r := by
  unfold inPhase; rw [hr]; simp [hp]

end Sys2Proof.Machine
end

