-- ==== Sys2Proof/Laws/Tokens.lean ====
section
/-! SUPPORT. The copy of a back-reference and what a stream item can do: one inversion lemma each. -/

namespace Sys2Proof.Machine

/-- The bounds of legal parameters (00_scope.md R6). -/
theorem Config.legal_bounds {c : Config} (h : c.legal = true) :
    1 ≤ c.inCap ∧ c.inCap ≤ 2 ^ 28 ∧ 1 ≤ c.outCap ∧ c.outCap ≤ 2 ^ 28 := by
  simp only [Config.legal, Bool.and_eq_true, decide_eq_true_eq] at h; omega

/-- `length = rawLength + 3` is exact in 16 bits (30_encoding.md R64). -/
@[simp] theorem copyLength_toNat (raw : BitVec 15) : (copyLength raw).toNat = raw.toNat + 3 := by
  have := raw.isLt
  simp [copyLength]; omega

theorem copyLength_eq (raw : BitVec 15) : copyLength raw = BitVec.ofNat 16 (raw.toNat + 3) := by
  apply BitVec.eq_of_toNat_eq
  have := raw.isLt
  rw [copyLength_toNat, BitVec.toNat_ofNat]; omega

/-- A copy within reach and within the capacity: it completes, every new byte equals the byte `d` before it, every
other byte stays (42_decoder.md R102). -/
theorem copyBytes_next {d n : Nat} {s : State} (hd : 1 ≤ d) (hdl : d ≤ s.outLen.toNat)
    (hw : ∀ a, a < s.outLen.toNat → (memRead s.outMem a).isSome = true) (hc : s.outLen.toNat + n ≤ s.cfg.outCap)
    (h32 : s.cfg.outCap < 2 ^ 32) :
    ∃ m, copyBytes d n s = .next { s with outMem := m, outLen := BitVec.ofNat 32 (s.outLen.toNat + n) } ∧
      (∀ q, s.outLen.toNat ≤ q → q < s.outLen.toNat + n →
        (memRead m q).isSome = true ∧ memRead m q = memRead m (q - d)) ∧
      (∀ a, a < s.outLen.toNat ∨ s.outLen.toNat + n ≤ a → memRead m a = memRead s.outMem a) := by
  induction n generalizing s with
  | zero => exact ⟨s.outMem, by simp [copyBytes], fun q h1 h2 => by omega, fun a _ => rfl⟩
  | succ n ih =>
    obtain ⟨b, hb⟩ := Option.isSome_iff_exists.1 (hw (s.outLen.toNat - d) (by omega))
    set s1 : State := { s with outMem := memWrite s.outMem s.outLen.toNat b, outLen := s.outLen + 1 } with hs1
    have hstep : copyByte d s = .next s1 := copyByte_eq_next.2 ⟨b, hb, appendOut_eq_next.2 ⟨by omega, rfl⟩⟩
    have hl : s1.outLen.toNat = s.outLen.toNat + 1 := by
      rw [hs1]; simp [BitVec.toNat_add]; omega
    have hw1 : ∀ a, a < s1.outLen.toNat → (memRead s1.outMem a).isSome = true := by
      intro a ha
      rw [hs1]; simp only [memRead_memWrite]
      split
      · rfl
      · exact hw a (by omega)
    obtain ⟨m, hm, hq, ha⟩ := ih (s := s1) (by omega) hw1 (by rw [hl]; simp only [hs1]; omega) h32
    refine ⟨m, ?_, ?_, ?_⟩
    · rw [copyBytes, hstep, andThen_next, hm, hl]
      simp only [hs1]; congr 3; omega
    · intro q h1 h2
      by_cases hq0 : q = s.outLen.toNat
      · subst hq0
        have e1 := ha s.outLen.toNat (by omega)
        have e2 := ha (s.outLen.toNat - d) (by omega)
        rw [e1, e2]
        simp only [hs1, memRead_memWrite, if_true]
        rw [if_neg (by omega), hb]; simp
      · exact hq q (by omega) (by omega)
    · intro a h
      rw [ha a (by omega)]
      simp only [hs1]
      exact memRead_memWrite_other _ _ (by omega)

/-- Whatever a copy does, it writes `OUT` and OUT_LEN only, keeps `OUT` canonical and within its capacity, and leaves
every byte outside the new ones. -/
theorem copyBytes_frame {d n : Nat} {s t : State} (h : copyBytes d n s = .next t) :
    ∃ m l, t = { s with outMem := m, outLen := l } ∧
      (Memory.wf s.outMem = true → Memory.wf m = true) ∧
      (memBelow s.cfg.outCap s.outMem = true → memBelow s.cfg.outCap m = true) ∧
      (s.outLen.toNat + n < 2 ^ 32 → l.toNat = s.outLen.toNat + n ∧
        (∀ a, s.outLen.toNat ≤ a → a < s.outLen.toNat + n → (memRead m a).isSome = true) ∧
        ∀ a, a < s.outLen.toNat ∨ s.outLen.toNat + n ≤ a → memRead m a = memRead s.outMem a) := by
  induction n generalizing s with
  | zero =>
    simp only [copyBytes, Host.Outcome.next.injEq] at h
    exact ⟨s.outMem, s.outLen, h.symm, id, id, fun _ => ⟨rfl, fun a h1 h2 => by omega, fun _ _ => rfl⟩⟩
  | succ n ih =>
    rw [copyBytes, andThen_eq_next] at h
    obtain ⟨u, hu, h⟩ := h
    obtain ⟨b, -, hu⟩ := copyByte_eq_next.1 hu
    obtain ⟨hlt, rfl⟩ := appendOut_eq_next.1 hu
    obtain ⟨m, l, rfl, h1, h2, h3⟩ := ih h
    refine ⟨m, l, rfl, fun hw => h1 (memWrite_wf _ _ hw), fun hw => h2 (memBelow_memWrite _ hw hlt), fun hn => ?_⟩
    have hl : (s.outLen + 1).toNat = s.outLen.toNat + 1 := by simp [BitVec.toNat_add]; omega
    simp only [hl] at h3
    obtain ⟨h4, h5, h6⟩ := h3 (by omega)
    refine ⟨by omega, fun a ha1 ha2 => ?_, fun a ha => ?_⟩
    · by_cases hq : a = s.outLen.toNat
      · rw [h6 a (by omega), hq, memRead_memWrite_same]; rfl
      · exact h5 a (by omega) (by omega)
    · rw [h6 a (by omega)]
      exact memRead_memWrite_other _ _ (by omega)

/-- HDR: it runs in `READ_HEADER`, and its next state is the header's (42_decoder.md R98). -/
theorem execHdr_eq_next {csw clw : BitVec 4} {s t : State} :
    execHdr csw clw s = .next t ↔ ∃ r, s.engine = .decoding r ∧ r.phase = .readHeader ∧
      t = setDec { r with phase := .tokenLoop, csw := csw, clw := clw }
            { advance 8 s with hdrCsw := csw, hdrClw := clw } := by
  unfold execHdr
  rw [inPhase_eq_next]
  constructor
  · rintro ⟨r, h1, h2, h3⟩; cases h3; exact ⟨r, h1, h2, rfl⟩
  · rintro ⟨r, h1, h2, rfl⟩; exact ⟨r, h1, h2, rfl⟩

/-- LIT: it runs in the token loop, and either overflows or appends its byte (42_decoder.md R103, R106). -/
theorem execLit_eq_next {b : BitVec 8} {s t : State} :
    execLit b s = .next t ↔ ∃ r, s.engine = .decoding r ∧ r.phase = .tokenLoop ∧
      ((s.cfg.outCap ≤ s.outLen.toNat ∧
        t = raise .outputOverflow 0 (withholdOutput (setDec { r with opcode := 1 } (advance 9 s)))) ∨
       (s.outLen.toNat < s.cfg.outCap ∧
        t = { setDec { r with opcode := 1 } (advance 9 s) with
              outMem := memWrite s.outMem s.outLen.toNat b, outLen := s.outLen + 1 })) := by
  unfold execLit
  rw [inPhase_eq_next]
  refine exists_congr fun r => and_congr_right fun h1 => and_congr_right fun h2 => ?_
  show (if s.outLen.toNat + 1 > s.cfg.outCap then _ else _) = _ ↔ _
  split
  · next h =>
    constructor
    · intro h'; cases h'; exact .inl ⟨by omega, rfl⟩
    · rintro (⟨-, rfl⟩ | ⟨h', -⟩)
      · rfl
      · omega
  · next h =>
    rw [appendOut_eq_next]
    constructor
    · rintro ⟨h', rfl⟩; exact .inr ⟨h', rfl⟩
    · rintro (⟨h', -⟩ | ⟨h', rfl⟩)
      · omega
      · exact ⟨h', rfl⟩

/-- A copy from the registers: out of reach, past the capacity, or done (42_decoder.md R101, R102, R106). -/
theorem expandRef_eq_next {r : DecRegs} {s t : State} :
    expandRef r s = .next t ↔
      (s.outLen.toNat < r.distance.toNat ∧ t = raise .distanceOutOfRange 0 (withholdOutput s)) ∨
      (r.distance.toNat ≤ s.outLen.toNat ∧ s.cfg.outCap < s.outLen.toNat + r.length.toNat ∧
        t = raise .outputOverflow 0 (withholdOutput s)) ∨
      (r.distance.toNat ≤ s.outLen.toNat ∧ s.outLen.toNat + r.length.toNat ≤ s.cfg.outCap ∧
        ∃ u, copyBytes r.distance.toNat r.length.toNat s = .next u ∧ t = setDec { r with i := r.length } u) := by
  unfold expandRef
  split
  · next h => constructor
              · intro h'; cases h'; exact .inl ⟨h, rfl⟩
              · rintro (⟨-, rfl⟩ | ⟨h', -⟩ | ⟨h', -⟩)
                · rfl
                · omega
                · omega
  · next h =>
    split
    · next h2 => constructor
                 · intro h'; cases h'; exact .inr (.inl ⟨by omega, h2, rfl⟩)
                 · rintro (⟨h', -⟩ | ⟨-, -, rfl⟩ | ⟨-, h', -⟩)
                   · omega
                   · rfl
                   · omega
    · next h2 =>
      rw [andThen_eq_next]
      constructor
      · rintro ⟨u, hu, h'⟩; cases h'; exact .inr (.inr ⟨by omega, by omega, u, hu, rfl⟩)
      · rintro (⟨h', -⟩ | ⟨-, h', -⟩ | ⟨-, -, u, hu, rfl⟩)
        · omega
        · omega
        · exact ⟨u, hu, rfl⟩

/-- An opcode-0 token: it runs in the token loop; distance 0 leaves the loop, any other is a back-reference
(42_decoder.md R100 to R102). -/
theorem opcodeZero_eq_next {d raw : BitVec 15} {s t : State} :
    opcodeZero d raw s = .next t ↔ ∃ r, s.engine = .decoding r ∧ r.phase = .tokenLoop ∧
      ((d = 0 ∧ t = setDec { latchFields d raw r with phase := .done } (advance (1 + r.csw.toNat + r.clw.toNat) s)) ∨
       (d ≠ 0 ∧ expandRef (latchFields d raw r)
          (setDec (latchFields d raw r) (advance (1 + r.csw.toNat + r.clw.toNat) s)) = .next t)) := by
  unfold opcodeZero
  rw [inPhase_eq_next]
  refine exists_congr fun r => and_congr_right fun h1 => and_congr_right fun h2 => ?_
  show (if d = 0 then _ else _) = _ ↔ _
  split
  · next h =>
    constructor
    · intro h'; cases h'; exact .inl ⟨h, rfl⟩
    · rintro (⟨-, rfl⟩ | ⟨h', -⟩)
      · rfl
      · exact absurd h h'
  · next h =>
    constructor
    · intro h'; exact .inr ⟨h, h'⟩
    · rintro (⟨h', -⟩ | ⟨-, h'⟩)
      · exact absurd h' h
      · exact h'

end Sys2Proof.Machine
end

