-- ==== Sys2Proof/Laws/Engine.lean ====
section
/-! SUPPORT. What one engine step leaves, and running the engine: the induction packaged once. -/

namespace Sys2Proof.Machine

/-- What no step of DECODE writes. -/
structure DecoderKeeps (s t : State) : Prop where
  cmd      : t.cmd = s.cmd
  arg0     : t.arg0 = s.arg0
  inLen    : t.inLen = s.inLen
  bwBits   : t.bwBits = s.bwBits
  inMem    : t.inMem = s.inMem
  host     : t.host = s.host
  hostData : t.hostData = s.hostData
  cfg      : t.cfg = s.cfg

/-- What no step of ENCODE writes. -/
structure EncoderKeeps (s t : State) : Prop where
  cmd      : t.cmd = s.cmd
  arg0     : t.arg0 = s.arg0
  inLen    : t.inLen = s.inLen
  brPos    : t.brPos = s.brPos
  inMem    : t.inMem = s.inMem
  host     : t.host = s.host
  hostData : t.hostData = s.hostData
  cfg      : t.cfg = s.cfg

theorem DecoderKeeps.refl (s : State) : DecoderKeeps s s := ⟨rfl, rfl, rfl, rfl, rfl, rfl, rfl, rfl⟩

theorem DecoderKeeps.trans {s t u : State} (h1 : DecoderKeeps s t) (h2 : DecoderKeeps t u) : DecoderKeeps s u :=
  ⟨h2.1.trans h1.1, h2.2.trans h1.2, h2.3.trans h1.3, h2.4.trans h1.4, h2.5.trans h1.5, h2.6.trans h1.6,
   h2.7.trans h1.7, h2.8.trans h1.8⟩

theorem EncoderKeeps.refl (s : State) : EncoderKeeps s s := ⟨rfl, rfl, rfl, rfl, rfl, rfl, rfl, rfl⟩

theorem EncoderKeeps.trans {s t u : State} (h1 : EncoderKeeps s t) (h2 : EncoderKeeps t u) : EncoderKeeps s u :=
  ⟨h2.1.trans h1.1, h2.2.trans h1.2, h2.3.trans h1.3, h2.4.trans h1.4, h2.5.trans h1.5, h2.6.trans h1.6,
   h2.7.trans h1.7, h2.8.trans h1.8⟩

theorem opcodeZero_keeps {d raw : BitVec 15} {s t : State} (h : opcodeZero d raw s = .next t) :
    DecoderKeeps s t := by
  obtain ⟨r, -, -, ⟨-, rfl⟩ | ⟨-, h⟩⟩ := opcodeZero_eq_next.1 h
  · exact ⟨rfl, rfl, rfl, rfl, rfl, rfl, rfl, rfl⟩
  · obtain ⟨-, rfl⟩ | ⟨-, -, rfl⟩ | ⟨-, -, u, hu, rfl⟩ := expandRef_eq_next.1 h
    · exact ⟨rfl, rfl, rfl, rfl, rfl, rfl, rfl, rfl⟩
    · exact ⟨rfl, rfl, rfl, rfl, rfl, rfl, rfl, rfl⟩
    · obtain ⟨m, l, rfl, -⟩ := copyBytes_frame hu
      exact ⟨rfl, rfl, rfl, rfl, rfl, rfl, rfl, rfl⟩

theorem execItem_keeps {i : Instr} {s t : State} (h : execItem i s = .next t) : DecoderKeeps s t := by
  cases i with
  | hdr c l => obtain ⟨r, -, -, rfl⟩ := execHdr_eq_next.1 h; exact ⟨rfl, rfl, rfl, rfl, rfl, rfl, rfl, rfl⟩
  | lit b =>
    obtain ⟨r, -, -, ⟨-, rfl⟩ | ⟨-, rfl⟩⟩ := execLit_eq_next.1 h <;> exact ⟨rfl, rfl, rfl, rfl, rfl, rfl, rfl, rfl⟩
  | ref d raw => exact opcodeZero_keeps h
  | endStream raw => exact opcodeZero_keeps h
  | _ => cases h

/-- A stream item ends DECODE with an error, `OUT` withheld, or goes on in a later phase from the same start, with HDR
the registers' header if it was; either way the cursor is just past the item (42_decoder.md R98 to R106). -/
theorem execItem_cases {i : Instr} {r : DecRegs} {s t : State} (hr : s.engine = .decoding r)
    (h : execItem i s = .next t) :
    t.brPos = BitVec.ofNat 35 (s.brPos.toNat + itemLength r.csw r.clw i) ∧
    ((∃ e, (e = .distanceOutOfRange ∨ e = .outputOverflow) ∧ t.status = Status.failed e ∧ t.result = 0 ∧
        t.outLen = 0 ∧ t.outMem = [] ∧ t.engine = .idle ∧ t.hdrCsw = s.hdrCsw ∧ t.hdrClw = s.hdrClw) ∨
     (t.status = s.status ∧ t.result = s.result ∧ ∃ r', t.engine = .decoding r' ∧ r'.start = r.start ∧
        ((∃ c l, i = .hdr c l ∧ r'.phase = .tokenLoop ∧ r'.csw = c ∧ r'.clw = l ∧ t.hdrCsw = c ∧ t.hdrClw = l ∧
            t.outLen = s.outLen ∧ t.outMem = s.outMem) ∨
         ((∀ c l, i ≠ .hdr c l) ∧ r.phase = .tokenLoop ∧ r'.phase ≠ .readHeader ∧ r'.csw = r.csw ∧
            r'.clw = r.clw ∧ t.hdrCsw = s.hdrCsw ∧ t.hdrClw = s.hdrClw)))) := by
  have zero : ∀ {d raw : BitVec 15}, opcodeZero d raw s = .next t →
      t.brPos = BitVec.ofNat 35 (s.brPos.toNat + (1 + r.csw.toNat + r.clw.toNat)) ∧
      ((∃ e, (e = .distanceOutOfRange ∨ e = .outputOverflow) ∧ t.status = Status.failed e ∧ t.result = 0 ∧
          t.outLen = 0 ∧ t.outMem = [] ∧ t.engine = .idle ∧ t.hdrCsw = s.hdrCsw ∧ t.hdrClw = s.hdrClw) ∨
       (t.status = s.status ∧ t.result = s.result ∧ ∃ r', t.engine = .decoding r' ∧ r'.start = r.start ∧
          r.phase = .tokenLoop ∧ r'.phase ≠ .readHeader ∧ r'.csw = r.csw ∧ r'.clw = r.clw ∧
          t.hdrCsw = s.hdrCsw ∧ t.hdrClw = s.hdrClw)) := by
    intro d raw h
    obtain ⟨r0, hr0, hp, h⟩ := opcodeZero_eq_next.1 h
    rw [hr] at hr0; cases hr0
    obtain ⟨-, rfl⟩ | ⟨-, h⟩ := h
    · exact ⟨rfl, .inr ⟨rfl, rfl, _, rfl, rfl, hp, by simp, rfl, rfl, rfl, rfl⟩⟩
    · obtain ⟨-, rfl⟩ | ⟨-, -, rfl⟩ | ⟨-, -, u, hu, rfl⟩ := expandRef_eq_next.1 h
      · exact ⟨rfl, .inl ⟨_, .inl rfl, rfl, rfl, rfl, rfl, rfl, rfl, rfl⟩⟩
      · exact ⟨rfl, .inl ⟨_, .inr rfl, rfl, rfl, rfl, rfl, rfl, rfl, rfl⟩⟩
      · obtain ⟨m, l, rfl, -⟩ := copyBytes_frame hu
        exact ⟨rfl, .inr ⟨rfl, rfl, _, rfl, rfl, hp, by simp [latchFields, hp], rfl, rfl, rfl, rfl⟩⟩
  cases i with
  | hdr c l =>
    obtain ⟨r0, hr0, hp, rfl⟩ := execHdr_eq_next.1 h
    rw [hr] at hr0; cases hr0
    exact ⟨rfl, .inr ⟨rfl, rfl, _, rfl, rfl, .inl ⟨c, l, rfl, rfl, rfl, rfl, rfl, rfl, rfl, rfl⟩⟩⟩
  | lit b =>
    obtain ⟨r0, hr0, hp, h⟩ := execLit_eq_next.1 h
    rw [hr] at hr0; cases hr0
    obtain ⟨-, rfl⟩ | ⟨-, rfl⟩ := h
    · exact ⟨rfl, .inl ⟨_, .inr rfl, rfl, rfl, rfl, rfl, rfl, rfl, rfl⟩⟩
    · exact ⟨rfl, .inr ⟨rfl, rfl, _, rfl, rfl, .inr ⟨by simp, hp, by simp [hp], rfl, rfl, rfl, rfl⟩⟩⟩
  | ref d raw =>
    obtain ⟨h1, h2 | ⟨h2, h3, r', h4, h5, h6, h7⟩⟩ := zero h
    · exact ⟨h1, .inl h2⟩
    · exact ⟨h1, .inr ⟨h2, h3, r', h4, h5, .inr ⟨by simp, h6, h7⟩⟩⟩
  | endStream raw =>
    obtain ⟨h1, h2 | ⟨h2, h3, r', h4, h5, h6, h7⟩⟩ := zero h
    · exact ⟨h1, .inl h2⟩
    · exact ⟨h1, .inr ⟨h2, h3, r', h4, h5, .inr ⟨by simp, h6, h7⟩⟩⟩
  | _ => cases h

/-- What a stream item that does not end DECODE does to `OUT`: it grows within the capacity, the new bytes have values,
the others stay (42_decoder.md R102, R103; 10_state.md R28). -/
structure OutGrows (s t : State) : Prop where
  le        : s.outLen.toNat ≤ t.outLen.toNat
  cap       : s.outLen.toNat ≤ s.cfg.outCap → t.outLen.toNat ≤ s.cfg.outCap
  new       : ∀ a, s.outLen.toNat ≤ a → a < t.outLen.toNat → (memRead t.outMem a).isSome = true
  other     : ∀ a, a < s.outLen.toNat ∨ t.outLen.toNat ≤ a → memRead t.outMem a = memRead s.outMem a
  canonical : Memory.wf s.outMem = true → Memory.wf t.outMem = true
  within    : memBelow s.cfg.outCap s.outMem = true → memBelow s.cfg.outCap t.outMem = true

theorem OutGrows.same {s t : State} (h1 : t.outLen = s.outLen) (h2 : t.outMem = s.outMem) : OutGrows s t := by
  constructor
  · rw [h1]
  · rw [h1]; exact id
  · intro a h3 h4; rw [h1] at h4; omega
  · intro a _; rw [h2]
  · rw [h2]; exact id
  · rw [h2]; exact id

theorem opcodeZero_out {d raw : BitVec 15} {s t : State} (h : opcodeZero d raw s = .next t)
    (hn : engineIdle t = false) (hc : s.cfg.outCap < 2 ^ 32) : OutGrows s t := by
  obtain ⟨r, -, -, ⟨-, rfl⟩ | ⟨-, h⟩⟩ := opcodeZero_eq_next.1 h
  · exact OutGrows.same rfl rfl
  · obtain ⟨-, rfl⟩ | ⟨-, -, rfl⟩ | ⟨-, hl, u, hu, rfl⟩ := expandRef_eq_next.1 h
    · simp [engineIdle] at hn
    · simp [engineIdle] at hn
    · obtain ⟨m, l, rfl, h1, h2, h3⟩ := copyBytes_frame hu
      simp only [setDec_outLen, advance_outLen, setDec_cfg, advance_cfg, setDec_outMem, advance_outMem]
        at hl h1 h2 h3
      obtain ⟨h4, h5, h6⟩ := h3 (by omega)
      constructor <;> simp only [setDec_outLen, setDec_outMem]
      · omega
      · omega
      · intro a ha hb; exact h5 a ha (by omega)
      · intro a ha; exact h6 a (by omega)
      · exact h1
      · exact h2

theorem execItem_out {i : Instr} {s t : State} (h : execItem i s = .next t) (hn : engineIdle t = false)
    (hc : s.cfg.outCap < 2 ^ 32) : OutGrows s t := by
  cases i with
  | hdr c l => obtain ⟨r, -, -, rfl⟩ := execHdr_eq_next.1 h; exact OutGrows.same rfl rfl
  | lit b =>
    obtain ⟨r, -, -, ⟨-, rfl⟩ | ⟨hl, rfl⟩⟩ := execLit_eq_next.1 h
    · simp [engineIdle] at hn
    · have h1 : (s.outLen + 1).toNat = s.outLen.toNat + 1 := by simp [BitVec.toNat_add]; omega
      constructor <;> simp only [h1]
      · omega
      · omega
      · intro a ha hb
        have : a = s.outLen.toNat := by omega
        rw [this, memRead_memWrite_same]; rfl
      · intro a ha; exact memRead_memWrite_other _ _ (by omega)
      · exact fun h => memWrite_wf _ _ h
      · exact fun h => memBelow_memWrite _ h hl
  | ref d raw => exact opcodeZero_out h hn hc
  | endStream raw => exact opcodeZero_out h hn hc
  | _ => cases h

/-- One step of DECODE that answers a next state: the exit, the item at the cursor, or MALFORMED_STREAM at the failing
read (42_decoder.md R93, R104, R105). -/
theorem decoderStep_eq_next {r : DecRegs} {s t : State} :
    decoderStep r s = .next t ↔
      (fetchItem r s = none ∧ t = exitDecode r s) ∨
      (∃ i next, fetchItem r s = some (.item i next) ∧ execItem i s = .next t) ∨
      (∃ pos, fetchItem r s = some (.lacks pos) ∧
        t = raise .malformedStream 0 (withholdOutput (setBrPos pos s))) := by
  unfold decoderStep
  cases hf : fetchItem r s with
  | none => simp [eq_comm]
  | some p => cases p <;> simp [eq_comm]

theorem decoderStep_keeps {r : DecRegs} {s t : State} (h : decoderStep r s = .next t) : DecoderKeeps s t := by
  obtain ⟨-, rfl⟩ | ⟨i, next, -, h⟩ | ⟨pos, -, rfl⟩ := decoderStep_eq_next.1 h
  · exact ⟨rfl, rfl, rfl, rfl, rfl, rfl, rfl, rfl⟩
  · exact execItem_keeps h
  · exact ⟨rfl, rfl, rfl, rfl, rfl, rfl, rfl, rfl⟩

/-- The end of ENCODE: over the limit, or the commit of the best trial (43_encoder.md R117, R118). -/
theorem finishEncode_eq_next {b : BestTrial} {s t : State} :
    finishEncode b s = .next t ↔
      (encodeLimit s < b.size ∧
        t = raise .capacityExceeded (BitVec.ofNat 32 (b.size - encodeLimit s)) { s with outLen := 0 }) ∨
      (b.size ≤ encodeLimit s ∧ (twBytes b.tw).length ≤ s.cfg.outCap ∧
        t = complete (BitVec.ofNat 32 (b.tw.length / 8))
          { s with outMem := memWriteList s.outMem 0 (twBytes b.tw),
                   outLen := BitVec.ofNat 32 (twBytes b.tw).length,
                   bwBits := b.tw, hdrCsw := b.csw, hdrClw := b.clw }) := by
  unfold finishEncode
  split
  · next h => constructor
              · intro h'; cases h'; exact .inl ⟨h, rfl⟩
              · rintro (⟨-, rfl⟩ | ⟨h', -⟩)
                · rfl
                · omega
  · next h =>
    unfold commitTrial
    rw [andThen_eq_next]
    constructor
    · rintro ⟨u, hu, h'⟩
      obtain ⟨hl, rfl⟩ := putOut_eq_next.1 hu
      cases h'; exact .inr ⟨by omega, hl, rfl⟩
    · rintro (⟨h', -⟩ | ⟨-, hl, rfl⟩)
      · omega
      · exact ⟨_, putOut_eq_next.2 ⟨hl, rfl⟩, rfl⟩

/-- One step of ENCODE that answers a next state: a position of the trial, the next trial, or the end
(43_encoder.md R108 to R118). -/
theorem encoderStep_eq_next {e : EncRegs} {s t : State} :
    encoderStep e s = .next t ↔
      ∃ L, inputBytes s = some L ∧
        ((e.currentIndex.toNat < L.length ∧ t = setEnc (encodePosition L e) s) ∨
         (L.length ≤ e.currentIndex.toNat ∧ ∃ p, s.cfg.sweep[e.t + 1]? = some p ∧
            t = setEnc (EncRegs.start (e.t + 1) p (some (bestAfter e))) s) ∨
         (L.length ≤ e.currentIndex.toNat ∧ s.cfg.sweep[e.t + 1]? = none ∧
            finishEncode (bestAfter e) s = .next t)) := by
  unfold encoderStep
  cases hL : inputBytes s with
  | none => simp
  | some L =>
    simp only [Option.some.injEq, exists_eq_left']
    split
    · next h => constructor
                · intro h'; cases h'; exact .inl ⟨h, rfl⟩
                · rintro (⟨-, rfl⟩ | ⟨h', -⟩ | ⟨h', -⟩)
                  · rfl
                  · omega
                  · omega
    · next h =>
      cases hp : s.cfg.sweep[e.t + 1]? with
      | none =>
        constructor
        · intro h'; exact .inr (.inr ⟨by omega, rfl, h'⟩)
        · rintro (⟨h', -⟩ | ⟨-, p, h', -⟩ | ⟨-, -, h'⟩)
          · omega
          · cases h'
          · exact h'
      | some p =>
        constructor
        · intro h'; cases h'; exact .inr (.inl ⟨by omega, p, rfl, rfl⟩)
        · rintro (⟨h', -⟩ | ⟨-, p, h', rfl⟩ | ⟨-, h', -⟩)
          · omega
          · cases h'; rfl
          · cases h'

theorem encoderStep_keeps {e : EncRegs} {s t : State} (h : encoderStep e s = .next t) : EncoderKeeps s t := by
  obtain ⟨L, -, ⟨-, rfl⟩ | ⟨-, p, -, rfl⟩ | ⟨-, -, h⟩⟩ := encoderStep_eq_next.1 h
  · exact ⟨rfl, rfl, rfl, rfl, rfl, rfl, rfl, rfl⟩
  · exact ⟨rfl, rfl, rfl, rfl, rfl, rfl, rfl, rfl⟩
  · obtain ⟨-, rfl⟩ | ⟨-, -, rfl⟩ := finishEncode_eq_next.1 h <;> exact ⟨rfl, rfl, rfl, rfl, rfl, rfl, rfl, rfl⟩

/-! Running the engine. -/

theorem runEngine_of_idle {n : Nat} {s : State} (h : engineIdle s = true) : runEngine n s = .next s := by
  cases n with
  | zero => rfl
  | succ n => simp [runEngine, h]

theorem runEngine_succ {n : Nat} {s : State} (h : engineIdle s = false) :
    runEngine (n + 1) s = andThen (engineStep s) (runEngine n) := by
  simp [runEngine, h]

/-- What every engine step keeps holds at the end. -/
theorem runEngine_induct {P : State → Prop}
    (hP : ∀ u v, P u → engineIdle u = false → engineStep u = .next v → P v)
    {n : Nat} {s t : State} (hs : P s) (h : runEngine n s = .next t) : P t := by
  induction n generalizing s with
  | zero => cases h; exact hs
  | succ n ih =>
    cases hi : engineIdle s with
    | true => rw [runEngine_of_idle hi] at h; cases h; exact hs
    | false =>
      rw [runEngine_succ hi, andThen_eq_next] at h
      obtain ⟨u, hu, h⟩ := h
      exact ih (hP s u hs hi hu) h

/-- Where every engine step ends the command or lowers a measure, a long enough run ends with the engine idle. -/
theorem runEngine_idle {P : State → Prop} {μ : State → Nat}
    (hP : ∀ u v, P u → engineIdle u = false → engineStep u = .next v → P v ∧ (engineIdle v = true ∨ μ v < μ u))
    {n : Nat} {s t : State} (hs : P s) (hn : μ s < n) (h : runEngine n s = .next t) : engineIdle t = true := by
  induction n generalizing s with
  | zero => omega
  | succ n ih =>
    cases hi : engineIdle s with
    | true => rw [runEngine_of_idle hi] at h; cases h; exact hi
    | false =>
      rw [runEngine_succ hi, andThen_eq_next] at h
      obtain ⟨u, hu, h⟩ := h
      obtain ⟨hPu, hu' | hu'⟩ := hP s u hs hi hu
      · rw [runEngine_of_idle hu'] at h; cases h; exact hu'
      · exact ih hPu (by omega) h

/-- Where every engine step answers a next state, so does the run. -/
theorem runEngine_total {P : State → Prop}
    (hP : ∀ u, P u → engineIdle u = false → ∃ v, engineStep u = .next v ∧ P v)
    {n : Nat} {s : State} (hs : P s) : ∃ t, runEngine n s = .next t ∧ P t := by
  induction n generalizing s with
  | zero => exact ⟨s, rfl, hs⟩
  | succ n ih =>
    cases hi : engineIdle s with
    | true => exact ⟨s, runEngine_of_idle hi, hs⟩
    | false =>
      obtain ⟨u, hu, hPu⟩ := hP s hs hi
      obtain ⟨t, ht, hPt⟩ := ih hPu
      exact ⟨t, by rw [runEngine_succ hi, hu, andThen_next, ht], hPt⟩

/-! Steps and runs of the machine. -/

/-- In the middle of a command, with no reset pending, a step is the engine's. -/
theorem step_of_running {s : State} (hi : engineIdle s = false) (hh : s.host.head? ≠ some .reset) :
    step s = engineStep s := by
  have hr : resetPending s = false := by simpa [resetPending] using hh
  simp [step, hi, hr]

/-- Between commands a step is the host's. -/
theorem step_of_idle {s : State} (hi : engineIdle s = true) : step s = hostStep s := by simp [step, hi]

theorem run_next {n : Nat} {s t : State} (h : step s = .next t) : core.run (n + 1) s = core.run n t := by
  have hu : ∀ (M : Host.Core) (a : M.State), M.run (n + 1) a =
      (match M.step a with
       | .next b => M.run n b
       | .fault r => .fault r
       | .refused r => .refused r) := fun _ _ => rfl
  refine (hu core s).trans ?_
  rw [show core.step s = .next t from h]

end Sys2Proof.Machine
end

