-- ==== Sys2Proof/Laws/Commands.lean ====
section
/-! SUPPORT. Each command as the shared lifecycle around its body, and the inversion lemmas of the two bodies that
branch. -/

namespace Sys2Proof.Machine

theorem exec_brInit (s : State) :
    exec .brInit s = command (commandWordOf 0x1 0) (fun t => .next (complete 0 (setBrPos (startBit t) t))) s := rfl

/-- A legal WIDTH runs the read; any other is an illegal command word (30_encoding.md R68 (c)). -/
theorem exec_brReadUint (w : BitVec 6) (s : State) :
    exec (.brReadUint w) s = if w.toNat ≤ 32 then command (commandWordOf 0x2 w) (readField w.toNat) s
      else illegalCommand (commandWordOf 0x2 w) s := rfl

theorem exec_brReadBool (s : State) : exec .brReadBool s = command (commandWordOf 0x3 0) (readField 1) s := rfl

theorem exec_brByteAlign (s : State) :
    exec .brByteAlign s =
      command (commandWordOf 0x4 0) (fun t => .next (complete 0 (setBrPos (ceil8 t.brPos.toNat) t))) s := rfl

theorem exec_brBytePos (s : State) :
    exec .brBytePos s = command (commandWordOf 0x5 0) (fun t =>
      if bitAligned t.brPos.toNat then .next (complete (BitVec.ofNat 32 (t.brPos.toNat / 8)) t)
      else .next (raise .notAligned 0 t)) s := rfl

theorem exec_bwInit (s : State) :
    exec .bwInit s = command (commandWordOf 0x6 0) (fun t => .next (complete 0 { t with bwBits := [] })) s := rfl

/-- A legal WIDTH runs the write; any other is an illegal command word (30_encoding.md R68 (c)). -/
theorem exec_bwWriteUint (w : BitVec 6) (s : State) :
    exec (.bwWriteUint w) s = if w.toNat ≤ 32 then command (commandWordOf 0x7 w) (writeField w.toNat) s
      else illegalCommand (commandWordOf 0x7 w) s := rfl

theorem exec_bwPad (s : State) :
    exec .bwPad s =
      command (commandWordOf 0x8 0) (fun t => .next (complete 0 { t with bwBits := twPad t.bwBits })) s := rfl

theorem exec_bwToBytes (s : State) :
    exec .bwToBytes s = command (commandWordOf 0x9 0) (fun t =>
      if bitAligned t.bwBits.length then
        andThen (putOut (twBytes t.bwBits) t) (fun u => .next (complete (BitVec.ofNat 32 (t.bwBits.length / 8)) u))
      else .next (raise .notAligned 0 t)) s := rfl

theorem exec_bwBitLen (s : State) :
    exec .bwBitLen s =
      command (commandWordOf 0xA 0) (fun t => .next (complete (BitVec.ofNat 32 t.bwBits.length) t)) s := rfl

theorem exec_decode (s : State) :
    exec .decode s = command (commandWordOf 0xB 0) (fun t => runEngine (decodeBound t) (beginDecode t)) s := rfl

theorem exec_encode (s : State) :
    exec .encode s = command (commandWordOf 0xC 0) (fun t => runEngine (encodeBound t) (beginEncode t)) s := rfl

/-- A field read at the cursor: a value, or OUT_OF_DATA (40_bitreader.md R72 to R74). -/
theorem readField_eq_next {w : Nat} {s t : State} :
    readField w s = .next t ↔
      (∃ v n, inReader s s.brPos.toNat w = .ok v n ∧ t = complete (BitVec.ofNat 32 v) (setBrPos n s)) ∨
      ((∃ p, inReader s s.brPos.toNat w = .lacks p) ∧ t = raise .outOfData 0 s) := by
  unfold readField
  cases inReader s s.brPos.toNat w <;> simp [eq_comm]

/-- A field write: VALUE_TOO_WIDE, OUTPUT_OVERFLOW, or the bits appended (41_bitwriter.md R82). -/
theorem writeField_eq_next {w : Nat} {s t : State} :
    writeField w s = .next t ↔
      (2 ^ w ≤ s.arg0.toNat ∧ t = raise .valueTooWide 0 s) ∨
      (s.arg0.toNat < 2 ^ w ∧ 8 * s.cfg.outCap < s.bwBits.length + w ∧ t = raise .outputOverflow 0 s) ∨
      (s.arg0.toNat < 2 ^ w ∧ s.bwBits.length + w ≤ 8 * s.cfg.outCap ∧
        t = complete 0 { s with bwBits := twWrite s.bwBits s.arg0.toNat w }) := by
  unfold writeField
  by_cases h1 : 2 ^ w ≤ s.arg0.toNat
  · simp [h1, Nat.not_lt.2 h1, eq_comm]
  · by_cases h2 : 8 * s.cfg.outCap < s.bwBits.length + w
    · simp [h1, h2, Nat.not_le.1 h1, Nat.not_le.2 h2, eq_comm]
    · simp [h1, h2, Nat.not_le.1 h1, Nat.not_lt.1 h2, eq_comm]

end Sys2Proof.Machine
end

