-- ==== Sys2Proof/Laws/Encoder.lean ====
section
/-! SUPPORT. The encoder's operations: bounds of the search, a position moves on, a trial has whole bytes. -/

namespace Sys2Proof.Machine

theorem extendMatch_bounds (L : List Byte) (cur d fuel j : Nat) :
    j ≤ extendMatch L cur d fuel j ∧ extendMatch L cur d fuel j ≤ j + fuel := by
  induction fuel generalizing j with
  | zero => simp [extendMatch]
  | succ fuel ih =>
    rw [extendMatch]
    split
    · have := ih (j + 1); omega
    · omega

theorem foldl_tryCandidate_le (L : List Byte) (cur maxLen : Nat) (ds : List Nat) {b : Search}
    (hb : b.bestLength ≤ maxLen) : (ds.foldl (tryCandidate L cur maxLen) b).bestLength ≤ maxLen := by
  induction ds generalizing b with
  | nil => exact hb
  | cons d ds ih =>
    rw [List.foldl_cons]
    apply ih
    have := extendMatch_bounds L cur d maxLen 0
    by_cases hc : extendMatch L cur d maxLen 0 > b.bestLength <;> simp [tryCandidate, matchLen, hc] <;> omega

/-- No match is longer than `maxMatchLen` (43_encoder.md R112). -/
theorem searchAt_le (L : List Byte) (cur limit maxLen : Nat) : (searchAt L cur limit maxLen).bestLength ≤ maxLen :=
  foldl_tryCandidate_le L cur maxLen _ (Nat.zero_le _)

/-- A position moves forward and stays within the input (43_encoder.md R114). -/
theorem emitToken_advances (L : List Byte) (csw clw : Nibble) {cur : Nat} {b : Search} (tw : List Bool)
    (hb : b.bestLength ≤ L.length - cur) (hc : cur < L.length) :
    1 ≤ (emitToken L csw clw cur b tw).2 ∧ cur + (emitToken L csw clw cur b tw).2 ≤ L.length := by
  unfold emitToken; split <;> simp <;> omega

/-- One position of a trial: `currentIndex` moves forward within the input (43_encoder.md R119 (f)). -/
theorem encodePosition_advances {L : List Byte} {e : EncRegs} (hc : e.currentIndex.toNat < L.length)
    (h32 : L.length < 2 ^ 32) :
    e.currentIndex.toNat < (encodePosition L e).currentIndex.toNat ∧
      (encodePosition L e).currentIndex.toNat ≤ L.length := by
  have hs := searchAt_le L e.currentIndex.toNat (searchLimitOf e.csw e.currentIndex.toNat)
    (maxMatchLenOf e.clw L.length e.currentIndex.toNat)
  have he := emitToken_advances L e.csw e.clw e.tw (Nat.le_trans hs (by unfold maxMatchLenOf; omega)) hc
  simp only [encodePosition]
  rw [BitVec.toNat_ofNat, Nat.mod_eq_of_lt (by omega)]
  omega

theorem twPad_length (tw : List Bool) : (twPad tw).length = ceil8 tw.length := by
  have := le_ceil8 tw.length
  simp [twPad]; omega

/-- A trial ends in whole bytes (43_encoder.md R115), and so does the best of them. -/
theorem bestAfter_whole {e : EncRegs} (h : ∀ b, e.best = some b → b.tw.length = 8 * b.size) :
    (bestAfter e).tw.length = 8 * (bestAfter e).size := by
  have hx : (trialEnd e.csw e.clw e.tw).length = 8 * ((trialEnd e.csw e.clw e.tw).length / 8) := by
    unfold trialEnd
    rw [twPad_length]
    have := ceil8_mod (twWrite (twWrite (twWrite e.tw 0 1) 0 e.csw.toNat) 0 e.clw.toNat).length
    omega
  unfold bestAfter
  cases hb : e.best with
  | none => exact hx
  | some b =>
    simp only []
    split
    · exact hx
    · exact h b hb

/-- `L` has `IN_LEN` bytes (10_state.md R14). -/
theorem inputBytes_length {s : State} {L : List Byte} (h : inputBytes s = some L) : L.length = s.inLen.toNat :=
  (memReadList_eq_some.1 h).1

end Sys2Proof.Machine
end

