-- ==== Sys2Proof/Laws/Operands.lean ====
section
/-! SUPPORT. What reading a field can do (40_bitreader.md R77): one inversion lemma, and reads put together and taken
apart. -/

namespace Sys2Proof.Machine

theorem streamBits_length {m : Memory} {pos w : Nat} {bs : List Bool} (h : streamBits m pos w = .ok bs) :
    bs.length = w := by
  induction w generalizing pos bs with
  | zero => cases h; rfl
  | succ w ih =>
    rw [streamBits] at h
    split at h
    · cases h
    · split at h
      · cases h
      · next hbs => cases h; simp [ih hbs]

theorem streamBits_append {m : Memory} {pos w u : Nat} {xs ys : List Bool} (h1 : streamBits m pos w = .ok xs)
    (h2 : streamBits m (pos + w) u = .ok ys) : streamBits m pos (w + u) = .ok (xs ++ ys) := by
  induction w generalizing pos xs with
  | zero => cases h1; simpa using h2
  | succ w ih =>
    rw [streamBits] at h1
    split at h1
    · cases h1
    · next b hb =>
      split at h1
      · cases h1
      · next bs hbs =>
        cases h1
        have h3 : streamBits m (pos + 1 + w) u = .ok ys := by
          rw [← h2]; congr 1; omega
        have h4 : w + 1 + u = (w + u) + 1 := by omega
        rw [h4, streamBits, hb]
        simp only [ih hbs h3]
        rfl

/-- The `i`-th of the bits read is the stream bit there. -/
theorem streamBits_getElem? {m : Memory} {pos w : Nat} {bs : List Bool} (h : streamBits m pos w = .ok bs) {i : Nat}
    (hi : i < w) : ∃ b, bs[i]? = some b ∧ streamBit m (pos + i) = .ok b := by
  induction w generalizing pos bs i with
  | zero => omega
  | succ w ih =>
    rw [streamBits] at h
    split at h
    · cases h
    · next b hb =>
      split at h
      · cases h
      · next bs' hbs =>
        cases h
        cases i with
        | zero => exact ⟨b, by simp, by simpa using hb⟩
        | succ i =>
          obtain ⟨c, hc, hs⟩ := ih hbs (show i < w by omega)
          refine ⟨c, by simpa using hc, ?_⟩
          rw [← hs]; congr 1; omega

/-- Where every stream bit of a field is known, the field's bits are. -/
theorem streamBits_eq_ok {m : Memory} {pos w : Nat} {bs : List Bool} (hl : bs.length = w)
    (h : ∀ i b, bs[i]? = some b → streamBit m (pos + i) = .ok b) : streamBits m pos w = .ok bs := by
  induction w generalizing pos bs with
  | zero => rw [List.eq_nil_of_length_eq_zero hl]; rfl
  | succ w ih =>
    match bs, hl with
    | b :: bs', hl =>
      have h0 : streamBit m pos = .ok b := by simpa using h 0 b (by simp)
      have h1 : streamBits m (pos + 1) w = .ok bs' := by
        refine ih (by simpa using hl) (fun i c hc => ?_)
        have := h (i + 1) c (by simpa using hc)
        rw [← this]; congr 1; omega
      rw [streamBits, h0]
      simp only [h1]

/-- A field read answers a value exactly when the bits are within `IN_LEN` and have values (40_bitreader.md R72,
R77). -/
theorem brRead_eq_ok {m : Memory} {inLen pos w v next : Nat} :
    brRead m inLen pos w = .ok v next ↔
      (w = 0 ∨ pos + w ≤ 8 * inLen) ∧ next = pos + w ∧ ∃ bs, streamBits m pos w = .ok bs ∧ v = bitsVal bs := by
  unfold brRead
  split
  · next h => constructor
              · intro h'; cases h'
              · rintro ⟨h', -⟩; omega
  · next h =>
    have hw : w = 0 ∨ pos + w ≤ 8 * inLen := by omega
    split
    · next bs hbs =>
      constructor
      · intro h'; cases h'; exact ⟨hw, rfl, bs, hbs, rfl⟩
      · rintro ⟨-, rfl, bs', hbs', rfl⟩
        rw [hbs] at hbs'; cases hbs'; rfl
    · next i hi =>
      constructor
      · intro h'; cases h'
      · rintro ⟨-, -, bs', hbs', -⟩; rw [hi] at hbs'; cases hbs'

/-- A field read lacks bits exactly when `w > 0` and `pos + w > 8·IN_LEN`, and it says where it began
(40_bitreader.md R72, R74). -/
theorem brRead_eq_lacks {m : Memory} {inLen pos w p : Nat} :
    brRead m inLen pos w = .lacks p ↔ (0 < w ∧ 8 * inLen < pos + w) ∧ p = pos := by
  unfold brRead
  split
  · next h => simp only [FieldRead.lacks.injEq]; constructor
              · intro h'; exact ⟨by omega, h'.symm⟩
              · intro h'; exact h'.2.symm
  · next h => constructor
              · intro h'; split at h' <;> cases h'
              · rintro ⟨h', -⟩; omega

/-- A value read in `w` bits is below `2^w`. -/
theorem brRead_lt {m : Memory} {inLen pos w v next : Nat} (h : brRead m inLen pos w = .ok v next) : v < 2 ^ w := by
  obtain ⟨-, -, bs, hbs, rfl⟩ := brRead_eq_ok.1 h
  have := bitsVal_lt bs
  rwa [streamBits_length hbs] at this

/-- A width of 0 reads nothing and cannot fail (40_bitreader.md R73). -/
@[simp] theorem brRead_zero (m : Memory) (inLen pos : Nat) : brRead m inLen pos 0 = .ok 0 pos := by
  simp [brRead, streamBits]

end Sys2Proof.Machine
end

