-- ==== Sys2Proof/Laws/Input.lean ====
section
/-! SUPPORT. Reading fields of `IN` whose bits are known: the machine's reader gives the spec's formulas
(20_memory.md R41, R42). -/

namespace Sys2Proof.Machine

/-- The bits of an indexed sequence weigh the sum of 20_memory.md R41. -/
theorem bitsVal_map_range (f : Nat → Bool) (w : Nat) :
    bitsVal ((List.range w).map f) = ((List.range w).map (fun i => (f i).toNat * 2 ^ (w - 1 - i))).sum := by
  induction w generalizing f with
  | zero => rfl
  | succ w ih =>
    rw [List.range_succ_eq_map, List.map_cons, List.map_map, bitsVal_cons, ih]
    simp only [List.length_map, List.length_range, List.map_cons, List.map_map, List.sum_cons]
    congr 2
    refine List.map_congr_left (fun i _ => ?_)
    simp only [Function.comp_apply]
    congr 2; omega

/-- The spec's sum is the value of the bits. -/
theorem fieldValue_eq (bits : List Bool) : fieldValue bits = bitsVal bits := by
  have h : bits = (List.range bits.length).map (fun i => bits.getD i false) := by
    apply List.ext_getElem?
    intro i
    by_cases hi : i < bits.length
    · simp [List.getElem?_range hi, List.getD_eq_getElem?_getD, List.getElem?_eq_getElem hi]
    · rw [List.getElem?_eq_none (by omega), List.getElem?_eq_none (by simp; omega)]
  conv_rhs => rw [h, bitsVal_map_range]
  rfl

theorem fieldValue_lt (bits : List Bool) : fieldValue bits < 2 ^ bits.length := fieldValue_eq bits ▸ bitsVal_lt bits

/-- The bits appended by a write are those of 20_memory.md R42. -/
theorem valBits_eq_fieldBits (w v : Nat) : valBits w v = fieldBits v w := by
  apply List.ext_getElem?
  intro i
  by_cases hi : i < w
  · rw [valBits_getElem? hi, fieldBits, List.getElem?_map, List.getElem?_range hi]; rfl
  · rw [List.getElem?_eq_none (by simp; omega), List.getElem?_eq_none (by simp [fieldBits]; omega)]

/-- The machine's stream bit is the spec's. -/
theorem streamBit_eq_ok {s : State} {k : Nat} {b : Bool} : streamBit s.inMem k = .ok b ↔ inBit s k = some b := by
  unfold streamBit inBit byteBit
  cases memRead s.inMem (k / 8) <;> simp

theorem fieldIs_nil (s : State) (p : Nat) : FieldIs s p [] := fun _ h => absurd h (Nat.not_lt_zero _)

theorem fieldIs_append {s : State} {p : Nat} {a b : List Bool} :
    FieldIs s p (a ++ b) ↔ FieldIs s p a ∧ FieldIs s (p + a.length) b := by
  constructor
  · refine fun h => ⟨fun k hk => ?_, fun k hk => ?_⟩
    · rw [h k (by simp; omega), List.getElem?_append_left hk]
    · rw [Nat.add_assoc, h (a.length + k) (by simp; omega), List.getElem?_append_right (by omega),
        Nat.add_sub_cancel_left]
  · rintro ⟨ha, hb⟩ k hk
    by_cases hka : k < a.length
    · rw [ha k hka, List.getElem?_append_left hka]
    · have := hb (k - a.length) (by simp at hk; omega)
      rw [List.getElem?_append_right (by omega), ← this]; congr 1; omega

/-- Bytes that hold the same bits from `p` on hold them in every state with that `IN`. -/
theorem fieldIs_congr {s t : State} {p : Nat} {bits : List Bool} (h : t.inMem = s.inMem) :
    FieldIs t p bits ↔ FieldIs s p bits := by simp only [FieldIs, inBit, h]

/-- A field whose bits are known reads as their value; its width is 0 or it ends at or below `8·IN_LEN`
(40_bitreader.md R77). -/
theorem inReader_of_fieldIs {s : State} {p w : Nat} {bits : List Bool} (hl : bits.length = w) (h : FieldIs s p bits)
    (hp : w = 0 ∨ p + w ≤ 8 * s.inLen.toNat) : inReader s p w = .ok (bitsVal bits) (p + w) := by
  rw [inReader, brRead_eq_ok]
  refine ⟨hp, rfl, bits, streamBits_eq_ok hl (fun i b hb => ?_), rfl⟩
  have hi : i < bits.length := by
    by_contra hc
    rw [List.getElem?_eq_none (by omega)] at hb
    cases hb
  rw [streamBit_eq_ok, h i hi, hb]

/-- Where every bit of a field has a value, the field has bits. -/
theorem fieldIs_of_written {s : State} {p w : Nat} (h : ∀ i, i < w → (inBit s (p + i)).isSome = true) :
    ∃ bits : List Bool, bits.length = w ∧ FieldIs s p bits := by
  induction w with
  | zero => exact ⟨[], rfl, fieldIs_nil s p⟩
  | succ w ih =>
    obtain ⟨bits, hl, hb⟩ := ih (fun i hi => h i (by omega))
    obtain ⟨b, hb'⟩ := Option.isSome_iff_exists.1 (h w (by omega))
    refine ⟨bits ++ [b], by simp [hl], fieldIs_append.2 ⟨hb, fun i hi => ?_⟩⟩
    have : i = 0 := by simpa using hi
    subst this
    simpa [hl] using hb'

/-- A field written as `w` bits reads back as its value. -/
theorem inReader_of_valBits {s : State} {p v w : Nat} (h : FieldIs s p (valBits w v)) (hv : v < 2 ^ w)
    (hp : w = 0 ∨ p + w ≤ 8 * s.inLen.toNat) : inReader s p w = .ok v (p + w) := by
  rw [inReader_of_fieldIs (valBits_length w v) h hp, bitsVal_valBits hv]

theorem inReader_lacks_of {s : State} {p w : Nat} (hw : 0 < w) (hp : 8 * s.inLen.toNat < p + w) :
    inReader s p w = .lacks p := by
  rw [inReader, brRead_eq_lacks]; exact ⟨⟨hw, hp⟩, rfl⟩

/-- The bits of a field depend on nothing but those bits. -/
theorem streamBits_congr {m m' : Memory} {p w : Nat} (h : ∀ i, i < w → streamBit m (p + i) = streamBit m' (p + i)) :
    streamBits m p w = streamBits m' p w := by
  induction w generalizing p with
  | zero => rfl
  | succ w ih =>
    have h0 : streamBit m p = streamBit m' p := h 0 (by omega)
    have h1 : streamBits m (p + 1) w = streamBits m' (p + 1) w :=
      ih (fun i hi => by rw [Nat.add_assoc, Nat.add_comm 1 i]; exact h (i + 1) (by omega))
    rw [streamBits, streamBits, h0, h1]

/-- A read depends on nothing but the bytes of the input from its first bit on (20_memory.md R39). -/
theorem brRead_congr {m m' : Memory} {inLen p w : Nat}
    (h : ∀ i, p / 8 ≤ i → i < inLen → memRead m i = memRead m' i) : brRead m inLen p w = brRead m' inLen p w := by
  unfold brRead
  split
  · rfl
  · have hs : streamBits m p w = streamBits m' p w :=
      streamBits_congr (fun i hi => by unfold streamBit; rw [h _ (by omega) (by omega)])
    rw [hs]

/-- A byte made of a sequence's bits (20_memory.md R42). -/
theorem byteOfBits_eq {bits : List Bool} {m : Nat} (h : 8 * m + 8 ≤ bits.length) :
    byteOfBits bits m = BitVec.ofNat 8 (bitsVal ((bits.drop (8 * m)).take 8)) := by
  have hl : (bits.drop (8 * m)).take 8 = (List.range 8).map (fun i => bits.getD (8 * m + i) false) := by
    apply List.ext_getElem?
    intro i
    by_cases hi : i < 8
    · rw [List.getElem?_take_of_lt hi, List.getElem?_drop, List.getElem?_map, List.getElem?_range hi,
        List.getElem?_eq_getElem (by omega)]
      simp [List.getD_eq_getElem?_getD, List.getElem?_eq_getElem (show 8 * m + i < bits.length by omega)]
    · rw [List.getElem?_eq_none (by simp; omega), List.getElem?_eq_none (by simp; omega)]
  rw [hl, bitsVal_map_range]; rfl

/-- Every bit of a whole input has a value (10_state.md R14). -/
theorem inBit_of_input {s : State} {L : List Byte} (h : InputIs s L) {k : Nat} (hk : k < 8 * L.length) :
    inBit s k = some ((L.getD (k / 8) 0).toNat.testBit (7 - k % 8)) := by
  have hk8 : k / 8 < L.length := by omega
  rw [inBit, h.2 _ hk8, List.getD_eq_getElem?_getD, List.getElem?_eq_getElem hk8]; rfl

/-- A whole input is what `inputBytes` answers. -/
theorem inputBytes_of_input {s : State} {L : List Byte} (h : InputIs s L) : inputBytes s = some L := by
  rw [inputBytes, memReadList_eq_some]
  refine ⟨h.1, fun k hk => ?_⟩
  rw [Nat.zero_add]; exact h.2 k (by rw [h.1]; exact hk)

end Sys2Proof.Machine
end

