-- ==== Sys2Proof/Laws/Parse.lean ====
section
/-! SUPPORT. What parsing an item can answer, in terms of the field reads. -/

namespace Sys2Proof

open Sys2Proof.Machine

theorem FieldRead.andThen_eq_item {r : FieldRead} {k : Nat → Nat → Parse} {i : Instr} {n : Nat} :
    r.andThen k = .item i n ↔ ∃ v p, r = .ok v p ∧ k v p = .item i n := by
  cases r <;> simp [FieldRead.andThen]

theorem FieldRead.andThen_eq_lacks {r : FieldRead} {k : Nat → Nat → Parse} {n : Nat} :
    r.andThen k = .lacks n ↔ r = .lacks n ∨ ∃ v p, r = .ok v p ∧ k v p = .lacks n := by
  cases r <;> simp [FieldRead.andThen]

/-- A header is two 4-bit fields (30_encoding.md R58). -/
theorem parseHeader_eq_item {rd : FieldReader} {pos : Nat} {i : Instr} {n : Nat} :
    parseHeader rd pos = .item i n ↔ ∃ csw p1 clw, rd pos 4 = .ok csw p1 ∧ rd p1 4 = .ok clw n ∧
      i = .hdr (BitVec.ofNat 4 csw) (BitVec.ofNat 4 clw) := by
  unfold parseHeader
  simp only [FieldRead.andThen_eq_item, Parse.item.injEq]
  constructor
  · rintro ⟨c, p1, h1, l, p2, h2, rfl, rfl⟩; exact ⟨c, p1, l, h1, h2, rfl⟩
  · rintro ⟨c, p1, l, h1, h2, rfl⟩; exact ⟨c, p1, h1, l, n, h2, rfl, rfl⟩

/-- A token is the opcode bit, then a byte, or the distance and the raw length (30_encoding.md R59 to R62). -/
theorem parseToken_eq_item {rd : FieldReader} {csw clw : Nibble} {pos : Nat} {i : Instr} {n : Nat} :
    parseToken rd csw clw pos = .item i n ↔ ∃ opcode p1, rd pos 1 = .ok opcode p1 ∧
      ((opcode = 0 ∧ ∃ d p2 raw, rd p1 csw.toNat = .ok d p2 ∧ rd p2 clw.toNat = .ok raw n ∧
          i = opcodeZeroItem d raw) ∨
       (opcode ≠ 0 ∧ ∃ b, rd p1 8 = .ok b n ∧ i = .lit (BitVec.ofNat 8 b))) := by
  unfold parseToken
  rw [FieldRead.andThen_eq_item]
  refine exists_congr fun o => exists_congr fun p1 => and_congr_right fun _ => ?_
  split
  · next h =>
    simp only [h, FieldRead.andThen_eq_item, Parse.item.injEq, true_and, ne_eq, not_true, false_and, or_false]
    constructor
    · rintro ⟨d, p2, h1, raw, p3, h2, rfl, rfl⟩; exact ⟨d, p2, raw, h1, h2, rfl⟩
    · rintro ⟨d, p2, raw, h1, h2, rfl⟩; exact ⟨d, p2, h1, raw, n, h2, rfl, rfl⟩
  · next h =>
    simp only [h, FieldRead.andThen_eq_item, Parse.item.injEq, false_and, false_or, ne_eq, not_false_eq_true, true_and]
    constructor
    · rintro ⟨b, p2, h1, rfl, rfl⟩; exact ⟨b, h1, rfl⟩
    · rintro ⟨b, h1, rfl⟩; exact ⟨b, n, h1, rfl, rfl⟩

theorem opcodeZeroItem_length (csw clw : Nibble) (d raw : Nat) :
    itemLength csw clw (opcodeZeroItem d raw) = 1 + csw.toNat + clw.toNat := by
  unfold opcodeZeroItem; split <;> rfl

theorem opcodeZeroItem_isStreamItem (d raw : Nat) : (opcodeZeroItem d raw).isStreamItem = true := by
  unfold opcodeZeroItem; split <;> rfl

/-- A parsed item is a stream item, its bits are the ones just before the cursor after it, and they are within
`IN_LEN`. -/
theorem fetchItem_item {r : DecRegs} {s : State} {i : Instr} {n : Nat} (h : fetchItem r s = some (.item i n)) :
    i.isStreamItem = true ∧ n = s.brPos.toNat + itemLength r.csw r.clw i ∧ n ≤ 8 * s.inLen.toNat ∧
    ((r.phase = .readHeader ∧ ∃ c l, i = .hdr c l) ∨ (r.phase = .tokenLoop ∧ ∀ c l, i ≠ .hdr c l)) := by
  unfold fetchItem at h
  split at h
  · next hp =>
    obtain ⟨c, p1, l, h1, h2, rfl⟩ := parseHeader_eq_item.1 (Option.some.inj h)
    obtain ⟨b1, rfl, -⟩ := brRead_eq_ok.1 h1
    obtain ⟨b2, rfl, -⟩ := brRead_eq_ok.1 h2
    exact ⟨rfl, by simp only [itemLength], by omega, .inl ⟨hp, _, _, rfl⟩⟩
  · next hp =>
    obtain ⟨o, p1, h1, ⟨-, d, p2, raw, h2, h3, rfl⟩ | ⟨-, b, h2, rfl⟩⟩ := parseToken_eq_item.1 (Option.some.inj h)
    · obtain ⟨b1, rfl, -⟩ := brRead_eq_ok.1 h1
      obtain ⟨b2, rfl, -⟩ := brRead_eq_ok.1 h2
      obtain ⟨b3, rfl, -⟩ := brRead_eq_ok.1 h3
      refine ⟨opcodeZeroItem_isStreamItem d raw, by rw [opcodeZeroItem_length]; omega, by omega, .inr ⟨hp, ?_⟩⟩
      intro c l; unfold opcodeZeroItem; split <;> simp
    · obtain ⟨b1, rfl, -⟩ := brRead_eq_ok.1 h1
      obtain ⟨b2, rfl, -⟩ := brRead_eq_ok.1 h2
      exact ⟨rfl, by simp only [itemLength], by omega, .inr ⟨hp, by simp⟩⟩
  · cases h

/-- The start of a failing read is at or past the cursor, and where it is past the cursor it is within `IN_LEN`
(42_decoder.md R105). -/
theorem fetchItem_lacks {r : DecRegs} {s : State} {n : Nat} (h : fetchItem r s = some (.lacks n)) :
    s.brPos.toNat ≤ n ∧ (n = s.brPos.toNat ∨ n ≤ 8 * s.inLen.toNat) ∧
    (n = s.brPos.toNat → 8 * s.inLen.toNat < n + 4) := by
  unfold fetchItem at h
  split at h
  · next hp =>
    have h := Option.some.inj h
    unfold parseHeader at h
    rw [FieldRead.andThen_eq_lacks] at h
    obtain h | ⟨v, p, h1, h⟩ := h
    · obtain ⟨h', rfl⟩ := brRead_eq_lacks.1 h; omega
    · obtain ⟨b1, rfl, -⟩ := brRead_eq_ok.1 h1
      rw [FieldRead.andThen_eq_lacks] at h
      obtain h | ⟨v, p, h1, h⟩ := h
      · obtain ⟨h', rfl⟩ := brRead_eq_lacks.1 h; omega
      · cases h
  · next hp =>
    have h := Option.some.inj h
    unfold parseToken at h
    rw [FieldRead.andThen_eq_lacks] at h
    obtain h | ⟨v, p, h1, h⟩ := h
    · obtain ⟨h', rfl⟩ := brRead_eq_lacks.1 h; omega
    · obtain ⟨b1, rfl, -⟩ := brRead_eq_ok.1 h1
      split at h
      · rw [FieldRead.andThen_eq_lacks] at h
        obtain h | ⟨v, p, h1, h⟩ := h
        · obtain ⟨h', rfl⟩ := brRead_eq_lacks.1 h; omega
        · obtain ⟨b2, rfl, -⟩ := brRead_eq_ok.1 h1
          rw [FieldRead.andThen_eq_lacks] at h
          obtain h | ⟨v, p, h1, h⟩ := h
          · obtain ⟨h', rfl⟩ := brRead_eq_lacks.1 h; omega
          · cases h
      · rw [FieldRead.andThen_eq_lacks] at h
        obtain h | ⟨v, p, h1, h⟩ := h
        · obtain ⟨h', rfl⟩ := brRead_eq_lacks.1 h; omega
        · cases h
  · cases h

end Sys2Proof
end

