-- ==== Sys2Proof/Laws/PerInstr.lean ====
section
/-! SUPPORT. The layout of every instruction's encoding, one lemma per constructor. -/

namespace Sys2Proof.Laws.FieldLayout

open Sys2Proof Sys2Proof.Machine

/-- A stream item's encoding has the item's length, 1 to 31 bits (30_encoding.md R58, R65). A command's word has bits 31..10 clear, OP 0x1..0xC and WIDTH at most 32 (R67, R68). -/
def Statement (i : Instr) : Prop :=
  ∀ csw clw : Nibble, i.wellFormed csw clw = true →
    match encode csw clw i with
    | .bits bs => i.isStreamItem = true ∧ bs.length = itemLength csw clw i ∧ 1 ≤ bs.length ∧ bs.length ≤ 31
    | .word w => i.isStreamItem = false ∧ w.toNat / 1024 = 0 ∧ 1 ≤ w.toNat % 16 ∧ w.toNat % 16 ≤ 0xC ∧
        w.toNat / 16 % 64 ≤ 32

/-- The fields of a command word stand where R67 puts them. -/
theorem commandWordOf_toNat (op : BitVec 4) (width : BitVec 6) :
    (commandWordOf op width).toNat = 16 * width.toNat + op.toNat := by
  have h1 := op.isLt
  have h2 := width.isLt
  have h : commandWordOf op width = BitVec.ofNat 32 (16 * width.toNat + op.toNat) := by
    apply BitVec.eq_of_toNat_eq
    simp only [commandWordOf, BitVec.toNat_or, BitVec.toNat_shiftLeft, BitVec.toNat_setWidth, BitVec.toNat_ofNat]
    rw [Nat.mod_eq_of_lt (show width.toNat < 2 ^ 32 by omega), Nat.shiftLeft_eq,
      Nat.mod_eq_of_lt (show width.toNat * 2 ^ 4 < 2 ^ 32 by omega),
      Nat.mod_eq_of_lt (show op.toNat < 2 ^ 32 by omega),
      Nat.mod_eq_of_lt (show 16 * width.toNat + op.toNat < 2 ^ 32 by omega), Nat.mul_comm,
      ← Nat.two_pow_add_eq_or_of_lt (i := 4) (by omega)]
  rw [h, BitVec.toNat_ofNat, Nat.mod_eq_of_lt (by omega)]

theorem bits_layout {i : Instr} {csw clw : Nibble} {bs : List Bool} (hs : i.isStreamItem = true)
    (h : bs.length = itemLength csw clw i) :
    i.isStreamItem = true ∧ bs.length = itemLength csw clw i ∧ 1 ≤ bs.length ∧ bs.length ≤ 31 := by
  have h1 := csw.isLt
  have h2 := clw.isLt
  refine ⟨hs, h, ?_⟩
  rw [h]
  cases i <;> first | (cases hs; done) | (simp only [itemLength]; omega)

theorem word_layout {i : Instr} (op : BitVec 4) (width : BitVec 6) (hi : i.isStreamItem = false)
    (h1 : 1 ≤ op.toNat) (h2 : op.toNat ≤ 0xC) (h3 : width.toNat ≤ 32) :
    i.isStreamItem = false ∧ (commandWordOf op width).toNat / 1024 = 0 ∧
      1 ≤ (commandWordOf op width).toNat % 16 ∧ (commandWordOf op width).toNat % 16 ≤ 0xC ∧
      (commandWordOf op width).toNat / 16 % 64 ≤ 32 := by
  rw [commandWordOf_toNat]
  exact ⟨hi, by omega, by omega, by omega, by omega⟩

theorem hdr (csw clw : BitVec 4) : Statement (.hdr csw clw) := fun _ _ _ =>
  bits_layout rfl (by simp [itemLength])

theorem lit (b : BitVec 8) : Statement (.lit b) := fun _ _ _ => bits_layout rfl (by simp [itemLength])

theorem ref (distance rawLength : BitVec 15) : Statement (.ref distance rawLength) := fun _ _ _ =>
  bits_layout rfl (by simp [itemLength]; omega)

theorem endStream (rawLength : BitVec 15) : Statement (.endStream rawLength) := fun _ _ _ =>
  bits_layout rfl (by simp [itemLength]; omega)

theorem brInit : Statement .brInit := fun _ _ _ => word_layout 0x1 0 rfl (by decide) (by decide) (by decide)

theorem brReadUint (width : BitVec 6) : Statement (.brReadUint width) := fun _ _ h =>
  word_layout 0x2 width rfl (by decide) (by decide) (by simpa [Instr.wellFormed] using h)

theorem brReadBool : Statement .brReadBool := fun _ _ _ => word_layout 0x3 0 rfl (by decide) (by decide) (by decide)

theorem brByteAlign : Statement .brByteAlign := fun _ _ _ =>
  word_layout 0x4 0 rfl (by decide) (by decide) (by decide)

theorem brBytePos : Statement .brBytePos := fun _ _ _ => word_layout 0x5 0 rfl (by decide) (by decide) (by decide)

theorem bwInit : Statement .bwInit := fun _ _ _ => word_layout 0x6 0 rfl (by decide) (by decide) (by decide)

theorem bwWriteUint (width : BitVec 6) : Statement (.bwWriteUint width) := fun _ _ h =>
  word_layout 0x7 width rfl (by decide) (by decide) (by simpa [Instr.wellFormed] using h)

theorem bwPad : Statement .bwPad := fun _ _ _ => word_layout 0x8 0 rfl (by decide) (by decide) (by decide)

theorem bwToBytes : Statement .bwToBytes := fun _ _ _ => word_layout 0x9 0 rfl (by decide) (by decide) (by decide)

theorem bwBitLen : Statement .bwBitLen := fun _ _ _ => word_layout 0xA 0 rfl (by decide) (by decide) (by decide)

theorem decode : Statement .decode := fun _ _ _ => word_layout 0xB 0 rfl (by decide) (by decide) (by decide)

theorem encode : Statement .encode := fun _ _ _ => word_layout 0xC 0 rfl (by decide) (by decide) (by decide)

end Sys2Proof.Laws.FieldLayout
end

