-- ==== Sys2Proof/Laws/Runs.lean ====
section
/-! SUPPORT. Running DECODE and ENCODE from their issue: what holds on the way, that they end, and what they can
answer. -/

namespace Sys2Proof.Machine

/-! DECODE. -/

/-- Engine steps DECODE may still take (42_decoder.md R94). -/
def decodeMeasure (u : State) : Nat :=
  match u.engine with
  | .idle => 0
  | .encoding _ => 0
  | .decoding r =>
    match r.phase with
    | .readHeader => 2 + (8 * (u.inLen.toNat - r.start.toNat) - 8)
    | .tokenLoop => 1 + (8 * u.inLen.toNat - u.brPos.toNat)
    | .done => 0

/-- Under legal parameters OUT_LEN is within the capacity, and the bytes of `OUT` above it are those of `s`. -/
def OutKept (s u : State) : Prop :=
  s.cfg.legal = true →
    u.outLen.toNat ≤ s.cfg.outCap ∧ ∀ a, u.outLen.toNat ≤ a → memRead u.outMem a = memRead s.outMem a

/-- The errors of DECODE (60_exceptions.md R121). -/
def IsDecodeError (e : ErrCode) : Prop := e = .malformedStream ∨ e = .distanceOutOfRange ∨ e = .outputOverflow

/-- `u` is reached by DECODE issued in `s`: it runs from its start, or has completed, or has failed. -/
structure DecodeRun (s u : State) : Prop where
  keeps : DecoderKeeps s u
  cases :
    (∃ r, u.engine = .decoding r ∧ r.start = s.arg0 ∧ u.status = s.status ∧
      (r.phase = .readHeader → u.brPos.toNat = 8 * r.start.toNat) ∧
      (r.phase ≠ .readHeader → u.brPos.toNat ≤ 8 * u.inLen.toNat) ∧ OutKept s u) ∨
    (u.engine = .idle ∧ u.status = .completed ∧ OutKept s u) ∨
    (u.engine = .idle ∧ ∃ e, IsDecodeError e ∧ u.status = .failed e ∧ u.result = 0 ∧ u.outLen = 0)

theorem decodeRun_step {s u v : State} (h : DecodeRun s u) (hi : engineIdle u = false)
    (hv : engineStep u = .next v) :
    DecodeRun s v ∧ (engineIdle v = true ∨ decodeMeasure v < decodeMeasure u) := by
  obtain ⟨k, ⟨r, hr, hst, hss, hA, hB, hO⟩ | ⟨h, -⟩ | ⟨h, -⟩⟩ := h
  rotate_left
  · simp [engineIdle, h] at hi
  · simp [engineIdle, h] at hi
  have hv : decoderStep r u = .next v := by simpa [engineStep, hr] using hv
  have hk := k.trans (decoderStep_keeps hv)
  have hlen := u.inLen.isLt
  obtain ⟨-, rfl⟩ | ⟨i, n, hf, hx⟩ | ⟨pos, hf, rfl⟩ := decoderStep_eq_next.1 hv
  · exact ⟨⟨hk, .inr (.inl ⟨rfl, rfl, hO⟩)⟩, .inl rfl⟩
  · obtain ⟨-, hn, hn2, hph⟩ := fetchItem_item hf
    obtain ⟨hb, ⟨e, he, h1, h2, h3, h4, h5, h6, h7⟩ | ⟨h1, h2, r', hr', hs', hc⟩⟩ := execItem_cases hr hx
    · exact ⟨⟨hk, .inr (.inr ⟨h5, e, .inr he, h1, h2, h3⟩)⟩, .inl (by simp [engineIdle, h5])⟩
    · have hvn : engineIdle v = false := by simp [engineIdle, hr']
      have hvb : v.brPos.toNat = n := by rw [hb, BitVec.toNat_ofNat]; omega
      have hvin : v.inLen = u.inLen := (decoderStep_keeps hv).inLen
      have hnr : r'.phase ≠ .readHeader := by
        obtain ⟨_, _, _, hp, _⟩ | ⟨_, _, hp, _⟩ := hc
        · rw [hp]; simp
        · exact hp
      have hpos : 1 ≤ itemLength r.csw r.clw i := by
        obtain ⟨-, c, l, rfl⟩ | ⟨-, _⟩ := hph
        · simp [itemLength]
        · rename_i hh; cases i <;> simp [itemLength] <;> first | omega | (cases hx)
      refine ⟨⟨hk, .inl ⟨r', hr', by rw [hs', hst], by rw [h1, hss], fun h => absurd h hnr,
        fun _ => by rw [hvb, hvin]; exact hn2, ?_⟩⟩, .inr ?_⟩
      · intro hl
        have hbd := Config.legal_bounds hl
        obtain ⟨o1, o2⟩ := hO hl
        have g := execItem_out hx hvn (by rw [k.cfg]; omega)
        refine ⟨by have := g.cap; rw [k.cfg] at this; exact this o1, fun a ha => ?_⟩
        rw [g.other a (.inr ha), o2 a (Nat.le_trans g.le ha)]
      · simp only [decodeMeasure, hr, hr', hvb, hvin]
        obtain ⟨c, l, rfl, hp, -⟩ | ⟨hnh, hp, -⟩ := hc
        · have hrp : r.phase = .readHeader := by
            obtain ⟨h, -⟩ | ⟨_, h⟩ := hph
            · exact h
            · exact absurd rfl (h c l)
          have := hA hrp
          simp only [hp, hrp]; simp [itemLength] at hn; omega
        · simp only [hp]
          cases hp' : r'.phase with
          | readHeader => exact absurd hp' hnr
          | tokenLoop => simp only []; omega
          | done => simp only []; omega
  · exact ⟨⟨hk, .inr (.inr ⟨rfl, _, .inl rfl, rfl, rfl, rfl⟩)⟩, .inl rfl⟩

theorem decodeRun_begin (s : State) : DecodeRun s (beginDecode s) := by
  have := s.arg0.isLt
  refine ⟨⟨rfl, rfl, rfl, rfl, rfl, rfl, rfl, rfl⟩, .inl ⟨DecRegs.init s.arg0, rfl, rfl, rfl, fun _ => ?_,
    fun h => absurd rfl h, fun h => ⟨by simp [beginDecode], fun a _ => rfl⟩⟩⟩
  simp [beginDecode, startBit, DecRegs.init]; omega

/-- DECODE ends within its bound (42_decoder.md R94). -/
theorem decodeRun_end {s t : State} (h : runEngine (decodeBound s) (beginDecode s) = .next t) :
    DecodeRun s t ∧ t.engine = .idle := by
  refine ⟨runEngine_induct (fun u v hu hi hv => (decodeRun_step hu hi hv).1) (decodeRun_begin s) h,
    (engineIdle_iff _).1 (runEngine_idle (P := DecodeRun s) (μ := decodeMeasure)
      (fun u v hu hi hv => decodeRun_step hu hi hv) (decodeRun_begin s) ?_ h)⟩
  simp [decodeMeasure, beginDecode, DecRegs.init, decodeBound]; omega

/-- What DECODE can answer. -/
theorem exec_decode_eq_next {s t : State} (h : exec .decode s = .next t) :
    s.status.busy = false ∧
    ((s.cfg.inCap < s.inLen.toNat ∧ t = raise .illegalCommand 0 (issue 0x0000000B s)) ∨
     (s.inLen.toNat ≤ s.cfg.inCap ∧ DecoderKeeps (issue 0x0000000B s) t ∧ t.engine = .idle ∧
      ((t.status = .completed ∧ OutKept s t) ∨
        (∃ e, IsDecodeError e ∧ t.status = .failed e ∧ t.result = 0 ∧ t.outLen = 0)))) := by
  rw [exec_decode] at h
  obtain ⟨hb, h | ⟨hl, h⟩⟩ := command_eq_next.1 h
  · exact ⟨hb, .inl h⟩
  · refine ⟨hb, .inr ⟨hl, ?_⟩⟩
    have h : runEngine (decodeBound (issue 0x0000000B s)) (beginDecode (issue 0x0000000B s)) = .next t := h
    obtain ⟨⟨k, ⟨r, hr, _⟩ | ⟨-, h1, h2⟩ | ⟨-, h1⟩⟩, hi⟩ := decodeRun_end h
    · rw [hi] at hr; cases hr
    · exact ⟨k, hi, .inl ⟨h1, h2⟩⟩
    · exact ⟨k, hi, .inr h1⟩

/-! ENCODE. -/

/-- Engine steps ENCODE may still take after the one it takes now (43_encoder.md R119 (f)). -/
def encodeMeasure (u : State) : Nat :=
  match u.engine with
  | .idle => 0
  | .decoding _ => 0
  | .encoding e =>
    (u.cfg.sweep.length - 1 - e.t) * (u.inLen.toNat + 1) + (u.inLen.toNat - e.currentIndex.toNat)

/-- Nothing of the output has been written (43_encoder.md R118). -/
structure NothingWritten (s u : State) : Prop where
  outMem : u.outMem = s.outMem
  bwBits : u.bwBits = s.bwBits
  hdrCsw : u.hdrCsw = s.hdrCsw
  hdrClw : u.hdrClw = s.hdrClw

/-- `u` is reached by ENCODE issued in `s`: it runs and has written nothing, or has completed, or has failed. -/
structure EncodeRun (s u : State) : Prop where
  keeps : EncoderKeeps s u
  cases :
    (∃ e, u.engine = .encoding e ∧ u.status = s.status ∧ u.outLen = s.outLen ∧ u.result = s.result ∧
      NothingWritten s u ∧ e.t < s.cfg.sweep.length ∧ e.currentIndex.toNat ≤ s.inLen.toNat ∧
      ∀ b, e.best = some b → b.tw.length = 8 * b.size) ∨
    (u.engine = .idle ∧ u.status = .completed ∧
      (s.cfg.legal = true → ∀ a, u.outLen.toNat ≤ a → memRead u.outMem a = memRead s.outMem a)) ∨
    (u.engine = .idle ∧ u.status = .failed .capacityExceeded ∧ u.outLen = 0 ∧ NothingWritten s u)

theorem encodeRun_step {s u v : State} (h : EncodeRun s u) (hi : engineIdle u = false)
    (hv : engineStep u = .next v) :
    EncodeRun s v ∧ (engineIdle v = true ∨ encodeMeasure v < encodeMeasure u) := by
  obtain ⟨k, ⟨e, hr, h1, h2, h3, h4, h5, h6, h7⟩ | ⟨h, -⟩ | ⟨h, -⟩⟩ := h
  rotate_left
  · simp [engineIdle, h] at hi
  · simp [engineIdle, h] at hi
  have hv : encoderStep e u = .next v := by simpa [engineStep, hr] using hv
  have hk := k.trans (encoderStep_keeps hv)
  have h4' : NothingWritten s u := h4
  obtain ⟨w1, w2, w3, w4⟩ := h4
  obtain ⟨L, hL, hc⟩ := encoderStep_eq_next.1 hv
  have hlen := inputBytes_length hL
  have hin := s.inLen.isLt
  rw [k.inLen] at hlen
  obtain ⟨hlt, rfl⟩ | ⟨hge, p, hp, rfl⟩ | ⟨hge, hp, hfin⟩ := hc
  · obtain ⟨a1, a2⟩ := encodePosition_advances hlt (by omega)
    refine ⟨⟨hk, .inl ⟨_, rfl, h1, h2, h3, ⟨w1, w2, w3, w4⟩, h5, by omega, h7⟩⟩, .inr ?_⟩
    simp only [encodeMeasure, hr, setEnc_engine, setEnc_cfg, setEnc_inLen, k.inLen]
    rw [show (encodePosition L e).t = e.t from rfl]
    omega
  · have hpl : e.t + 1 < u.cfg.sweep.length := by
      by_contra hc
      rw [List.getElem?_eq_none (by omega)] at hp
      cases hp
    refine ⟨⟨hk, .inl ⟨_, rfl, h1, h2, h3, ⟨w1, w2, w3, w4⟩, by rw [← k.cfg]; exact hpl, by simp [EncRegs.start],
      ?_⟩⟩, .inr ?_⟩
    · intro b hb; cases hb; exact bestAfter_whole h7
    · simp only [encodeMeasure, hr, setEnc_engine, setEnc_cfg, setEnc_inLen, EncRegs.start]
      have : u.cfg.sweep.length - 1 - e.t = (u.cfg.sweep.length - 1 - (e.t + 1)) + 1 := by omega
      rw [this, Nat.add_mul]; simp; omega
  · obtain ⟨-, rfl⟩ | ⟨hsz, hcap, rfl⟩ := finishEncode_eq_next.1 hfin
    · exact ⟨⟨hk, .inr (.inr ⟨rfl, rfl, rfl, ⟨w1, w2, w3, w4⟩⟩)⟩, .inl rfl⟩
    · refine ⟨⟨hk, .inr (.inl ⟨rfl, rfl, fun hl a ha => ?_⟩)⟩, .inl rfl⟩
      have := Config.legal_bounds hl
      rw [k.cfg] at hcap
      simp only [complete_outLen, complete_outMem] at ha ⊢
      rw [BitVec.toNat_ofNat, Nat.mod_eq_of_lt (by omega)] at ha
      rw [memRead_memWriteList, if_neg (by omega), w1]

theorem encodeRun_begin (s : State) : EncodeRun s (beginEncode s) :=
  ⟨⟨rfl, rfl, rfl, rfl, rfl, rfl, rfl, rfl⟩, .inl ⟨_, rfl, rfl, rfl, rfl, ⟨rfl, rfl, rfl, rfl⟩,
    by simp [EncRegs.start, Config.sweep], by simp [EncRegs.start], by simp [EncRegs.start]⟩⟩

/-- ENCODE ends within its bound (43_encoder.md R119 (f)). -/
theorem encodeRun_end {s t : State} (h : runEngine (encodeBound s) (beginEncode s) = .next t) :
    EncodeRun s t ∧ t.engine = .idle := by
  refine ⟨runEngine_induct (fun u v hu hi hv => (encodeRun_step hu hi hv).1) (encodeRun_begin s) h,
    (engineIdle_iff _).1 (runEngine_idle (P := EncodeRun s) (μ := encodeMeasure)
      (fun u v hu hi hv => encodeRun_step hu hi hv) (encodeRun_begin s) ?_ h)⟩
  simp [encodeMeasure, beginEncode, EncRegs.start, encodeBound, Config.sweep]
  rw [Nat.add_mul]; omega

/-- What ENCODE can answer. -/
theorem exec_encode_eq_next {s t : State} (h : exec .encode s = .next t) :
    s.status.busy = false ∧
    ((s.cfg.inCap < s.inLen.toNat ∧ t = raise .illegalCommand 0 (issue 0x0000000C s)) ∨
     (s.inLen.toNat ≤ s.cfg.inCap ∧ EncoderKeeps (issue 0x0000000C s) t ∧ t.engine = .idle ∧
      ((t.status = .completed ∧
          (s.cfg.legal = true → ∀ a, t.outLen.toNat ≤ a → memRead t.outMem a = memRead s.outMem a)) ∨
       (t.status = .failed .capacityExceeded ∧ t.outLen = 0 ∧ NothingWritten (issue 0x0000000C s) t)))) := by
  rw [exec_encode] at h
  obtain ⟨hb, h | ⟨hl, h⟩⟩ := command_eq_next.1 h
  · exact ⟨hb, .inl h⟩
  · refine ⟨hb, .inr ⟨hl, ?_⟩⟩
    have h : runEngine (encodeBound (issue 0x0000000C s)) (beginEncode (issue 0x0000000C s)) = .next t := h
    obtain ⟨⟨k, ⟨r, hr, _⟩ | ⟨-, h1, h2⟩ | ⟨-, h1⟩⟩, hi⟩ := encodeRun_end h
    · rw [hi] at hr; cases hr
    · exact ⟨k, hi, .inl ⟨h1, h2⟩⟩
    · exact ⟨k, hi, .inr h1⟩

end Sys2Proof.Machine
end

