-- ==== Sys2Proof/Laws/Stream.lean ====
section
/-! SUPPORT. Bits of the input known as a sequence: fields and items read back from them, and what a token does to an
output known as a list. -/

namespace Sys2Proof.Machine

/-- Packed bits placed in `IN` from its first byte stand where they were put (20_memory.md R42). -/
theorem fieldIs_packBytes {s : State} {bits : List Bool} {n : Nat} (h : bits.length = 8 * n)
    (hs : InputIs s (packBytes bits)) : FieldIs s 0 bits := by
  intro k hk
  have hm : k / 8 < n := by omega
  have hb := hs.2 (k / 8) (by rw [packBytes_length h]; exact hm)
  rw [packBytes_getElem? h hm] at hb
  have hl : ((bits.drop (8 * (k / 8))).take 8).length = 8 := by simp; omega
  have := byteBit_packed _ hl (show k % 8 < 8 by omega)
  rw [List.getElem?_take, if_pos (by omega), List.getElem?_drop, show 8 * (k / 8) + k % 8 = k by omega] at this
  rw [Nat.zero_add, inBit, hb, this]; rfl

/-- A copy within reach from an output known as a list (42_decoder.md R102). -/
theorem copyBytes_output {d n : Nat} {u : State} {out : List Byte} (ho : OutputIs u out) (h1 : 1 ≤ d)
    (h2 : d ≤ out.length) (h3 : out.length + n ≤ u.cfg.outCap) (h4 : u.cfg.outCap < 2 ^ 32) :
    ∃ m l, copyBytes d n u = .next { u with outMem := m, outLen := l } ∧
      OutputIs { u with outMem := m, outLen := l } (copyRun d n out) ∧
      ∀ a, out.length + n ≤ a → memRead m a = memRead u.outMem a := by
  induction n generalizing u out with
  | zero => exact ⟨u.outMem, u.outLen, rfl, ho, fun _ _ => rfl⟩
  | succ n ih =>
    have hl := ho.1
    have hsrc : memRead u.outMem (u.outLen.toNat - d) = some (out.getD (out.length - d) 0) := by
      rw [ho.2 _ (by omega), List.getD_eq_getElem?_getD, ← hl, List.getElem?_eq_getElem (by omega)]; rfl
    set b := out.getD (out.length - d) 0 with hb
    set v : State := { u with outMem := memWrite u.outMem u.outLen.toNat b, outLen := u.outLen + 1 } with hv
    have hstep : copyByte d u = .next v := copyByte_eq_next.2 ⟨_, hsrc, appendOut_eq_next.2 ⟨by omega, rfl⟩⟩
    have hov : OutputIs v (out ++ [b]) := by
      refine ⟨by simp [hv, BitVec.toNat_add]; omega, fun i hi => ?_⟩
      simp only [hv, memRead_memWrite]
      simp only [List.length_append, List.length_singleton] at hi
      split
      · next h => rw [h, ← hl, List.getElem?_append_right (Nat.le_refl _)]; simp
      · next h => rw [ho.2 i (by omega), List.getElem?_append_left (by omega)]
    obtain ⟨m, l, q1, q2, q3⟩ := ih hov (by simp; omega) (by simp [hv]; omega) h4
    refine ⟨m, l, by rw [copyBytes, hstep, andThen_next, q1], q2, fun a ha => ?_⟩
    rw [q3 a (by simp; omega)]
    exact memRead_memWrite_other _ _ (by omega)

@[simp] theorem copyRun_length (d n : Nat) (out : List Byte) : (copyRun d n out).length = out.length + n := by
  induction n generalizing out with
  | zero => rfl
  | succ n ih => rw [copyRun, ih]; simp; omega

theorem itemBits_length {csw clw : Nibble} {i : Instr} (h : i.isStreamItem = true) :
    (itemBits csw clw i).length = itemLength csw clw i := by
  cases i <;> first | (cases h; done) | (simp [itemBits, encode, itemLength] <;> omega)

end Sys2Proof.Machine
end

