-- ==== Sys2Proof/Tests/Slice0.lean ====
section
/-! SUPPORT. Tests. Expected values come from 95_test_vectors.md or are written out by hand from the encoding tables;
each comment names its source. The witnesses show that the hypotheses of a statement can be met together. -/

namespace Sys2Proof.Tests

open Sys2Proof Sys2Proof.Machine

/-! Helpers. -/

/-- Small capacities, the default sweep. -/
def tiny : Config := { Config.default with inCap := 64, outCap := 16 }

/-- Reset, then `IN`, IN_LEN and ARG0 written. -/
def block (bytes : List Byte) (arg : Word) : State :=
  { State.resetWith tiny [] 0 with
    inMem := memOfList bytes, inLen := BitVec.ofNat 32 bytes.length, arg0 := arg }

/-- The cursor at bit `n`. -/
def atBit (n : Nat) (s : State) : State := setBrPos n s

/-- `bw_bits` at `bits`. -/
def withBits (bits : List Bool) (s : State) : State := { s with bwBits := bits }

/-- DECODE running in phase `p` with header widths 10 and 3. -/
def decoding (p : DecPhase) (s : State) : State :=
  setDec { DecRegs.init s.arg0 with phase := p, csw := 10, clw := 3 }
    { s with status := Status.issued, hdrCsw := 10, hdrClw := 3 }

/-- `OUT` at `bytes`, OUT_LEN their number. -/
def withOut (bytes : List Byte) (s : State) : State :=
  { s with outMem := memOfList bytes, outLen := BitVec.ofNat 32 bytes.length }

/-- What `f` says of the next state, none on a fault or a refusal. -/
def after {α : Type} (x : Exec) (f : State → α) : Option α :=
  match x with
  | .next t => some (f t)
  | .fault _ => none
  | .refused _ => none

def isNext (x : Exec) : Bool := (after x id).isSome

def nextOf (x : Exec) (d : State) : State := (after x id).getD d

theorem eq_nextOf {x : Exec} {d : State} (h : isNext x = true) : x = .next (nextOf x d) := by
  cases x <;> first | rfl | cases h

/-- `OUT[0..OUT_LEN-1]`. -/
def outBytes (s : State) : Option (List Byte) := memReadList s.outMem 0 s.outLen.toNat

/-- The stream of V-L5: HDR 10, 3; LIT 0x41; REF 1, 4; END. -/
def runStream : List Byte := [0xa3, 0xa0, 0x80, 0x12, 0x00, 0x00]

/-! WellFormed: an ill-formed term for each check. -/

theorem test_wf_ref_zero_distance : (Instr.ref 0 0).wellFormed 10 3 = false := by decide
theorem test_wf_ref_distance_too_large : (Instr.ref 1024 0).wellFormed 10 3 = false := by decide
theorem test_wf_ref_length_too_large : (Instr.ref 1 8).wellFormed 10 3 = false := by decide
theorem test_wf_ref_largest : (Instr.ref 1023 7).wellFormed 10 3 = true := by decide
theorem test_wf_end_length_too_large : (Instr.endStream 8).wellFormed 10 3 = false := by decide
theorem test_wf_read_width_33 : (Instr.brReadUint 33).wellFormed 10 3 = false := by decide
theorem test_wf_write_width_33 : (Instr.bwWriteUint 33).wellFormed 10 3 = false := by decide

/-! Decode: words and bits written out from 30_encoding.md sections 2 and 5. -/

theorem test_decode_brInit : decodeCommand 0x001 = .ok .brInit := by rfl
/-- V-R2. -/
theorem test_decode_brReadUint : decodeCommand 0x072 = .ok (.brReadUint 7) := by rfl
theorem test_decode_brReadUint_32 : decodeCommand 0x202 = .ok (.brReadUint 32) := by rfl
theorem test_decode_brReadBool : decodeCommand 0x003 = .ok .brReadBool := by rfl
theorem test_decode_brByteAlign : decodeCommand 0x004 = .ok .brByteAlign := by rfl
theorem test_decode_brBytePos : decodeCommand 0x005 = .ok .brBytePos := by rfl
theorem test_decode_bwInit : decodeCommand 0x006 = .ok .bwInit := by rfl
/-- V-W4. -/
theorem test_decode_bwWriteUint : decodeCommand 0x087 = .ok (.bwWriteUint 8) := by rfl
theorem test_decode_bwPad : decodeCommand 0x008 = .ok .bwPad := by rfl
theorem test_decode_bwToBytes : decodeCommand 0x009 = .ok .bwToBytes := by rfl
theorem test_decode_bwBitLen : decodeCommand 0x00A = .ok .bwBitLen := by rfl
theorem test_decode_decode : decodeCommand 0x00B = .ok .decode := by rfl
theorem test_decode_encode : decodeCommand 0x00C = .ok .encode := by rfl
/-- V-R11, V-R12. -/
theorem test_reject_width_33 : decodeCommand 0x212 = .error .widthTooLarge := by rfl
theorem test_reject_width_on_brInit : decodeCommand 0x011 = .error .widthNotZero := by rfl
theorem test_reject_reserved_bit : decodeCommand 0x401 = .error .reservedBits := by rfl
theorem test_reject_op_D : decodeCommand 0x00D = .error .reservedOp := by rfl
theorem test_reject_op_0 : decodeCommand 0x000 = .error .reservedOp := by rfl

/-- V-D3's header 0x03: csw 0, clw 3. -/
theorem test_parse_hdr :
    parseHeader (listReader [false, false, false, false, false, false, true, true]) 0 = .item (.hdr 0 3) 8 := by
  decide
/-- R60: LIT 0x5A is `1 01011010` (V-D7). -/
theorem test_parse_lit :
    parseToken (listReader [true, false, true, false, true, true, false, true, false]) 10 0 0 =
      .item (.lit 0x5a) 9 := by decide
/-- R61: REF 5, 4 is `0 0000000101 001` (V-E12). -/
theorem test_parse_ref :
    parseToken (listReader [false, false, false, false, false, false, false, false, true, false, true,
      false, false, true]) 10 3 0 = .item (.ref 5 1) 14 := by decide
/-- R62: a terminator of raw length 7 is `0 0000000000 111` (V-D4). -/
theorem test_parse_end :
    parseToken (listReader [false, false, false, false, false, false, false, false, false, false, false,
      true, true, true]) 10 3 0 = .item (.endStream 7) 14 := by decide
/-- R66: with csw = clw = 0 the single bit `0` is the terminator (V-D2). -/
theorem test_parse_end_width_0 : parseToken (listReader [false]) 0 0 0 = .item (.endStream 0) 1 := by decide

/-- The table's rows: a command word, the header, LIT's pattern. -/
theorem test_table_command : decodeTableWord 32 0x00000072 = some (.brReadUint 7) := by decide
theorem test_table_hdr : decodeTableWord 0 0 = some (.hdr 0 0) := by decide
theorem test_table_lit : decodeTableWord 16 0x100 = some (.lit 0) := by decide

/-- A placed row runs as the first instruction after reset. -/
theorem test_fetch_command :
    after (step (State.reset.withFetchWord 32 0x00000004)) (fun t => (t.cmd, t.status.word)) = some (4, 0x02) := by
  decide
theorem test_fetch_lit :
    after (step (State.reset.withFetchWord 16 0x141)) (fun t => (outBytes t, t.brPos)) =
      some (some [0x41], 9) := by decide

/-! The commands. -/

/-- V-R10 (a). -/
theorem test_brInit :
    after (exec .brInit (block [0xa5, 0x3c] 3)) (fun t => (t.status.word, t.result, t.brPos)) =
      some (0x02, 0, 24) := by decide
/-- V-R2. -/
theorem test_brReadUint :
    after (exec (.brReadUint 7) (atBit 3 (block [0xa5, 0x3c] 0))) (fun t => (t.status.word, t.result, t.brPos)) =
      some (0x02, 20, 10) := by decide
/-- V-R10 (b). -/
theorem test_brReadUint_out_of_data :
    after (exec (.brReadUint 1) (atBit 24 (block [0xa5, 0x3c] 0))) (fun t => (t.status.word, t.result, t.brPos)) =
      some (0x16, 0, 24) := by decide
/-- V-R9. -/
theorem test_brReadBool :
    after (exec .brReadBool (block [0x80] 0)) (fun t => (t.status.word, t.result, t.brPos)) =
      some (0x02, 1, 1) := by decide
/-- V-R6. -/
theorem test_brReadBool_out_of_data :
    after (exec .brReadBool (atBit 16 (block [0xa5, 0x3c] 0))) (fun t => (t.status.word, t.result, t.brPos)) =
      some (0x16, 0, 16) := by decide
/-- V-R5. -/
theorem test_brByteAlign :
    after (exec .brByteAlign (atBit 10 (block [0xa5, 0x3c] 0))) (fun t => (t.status.word, t.brPos)) =
      some (0x02, 16) := by decide
/-- V-R5. -/
theorem test_brBytePos :
    after (exec .brBytePos (atBit 16 (block [0xa5, 0x3c] 0))) (fun t => (t.status.word, t.result)) =
      some (0x02, 2) := by decide
/-- V-R4. -/
theorem test_brBytePos_not_aligned :
    after (exec .brBytePos (atBit 10 (block [0xa5, 0x3c] 0))) (fun t => (t.status.word, t.result, t.brPos)) =
      some (0x66, 0, 10) := by decide
/-- R81. -/
theorem test_bwInit :
    after (exec .bwInit (withBits [true] (block [] 0))) (fun t => (t.status.word, t.bwBits)) =
      some (0x02, []) := by decide
/-- V-W1 (a). -/
theorem test_bwWriteUint :
    after (exec (.bwWriteUint 3) (block [] 5)) (fun t => (t.status.word, t.bwBits)) =
      some (0x02, [true, false, true]) := by decide
/-- V-W7 (b): both too wide and past the capacity. -/
theorem test_bwWriteUint_too_wide_first :
    after (exec (.bwWriteUint 1) (withBits (List.replicate 128 true) (block [] 2))) (fun t => t.status.word) =
      some 0x56 := by decide
/-- V-W1 (c). -/
theorem test_bwPad :
    after (exec .bwPad (withBits [true, false, true, true] (block [] 0))) (fun t => (t.status.word, t.bwBits)) =
      some (0x02, [true, false, true, true, false, false, false, false]) := by decide
/-- V-W3. -/
theorem test_bwToBytes :
    after (exec .bwToBytes (withBits [true, false, true, false, false, false, true, true] (block [] 0)))
      (fun t => (t.status.word, t.result, outBytes t)) = some (0x02, 1, some [0xa3]) := by decide
/-- V-W1 (b). -/
theorem test_bwToBytes_not_aligned :
    after (exec .bwToBytes (withBits [true, false, true, true] (block [] 0)))
      (fun t => (t.status.word, t.result, t.outLen)) = some (0x66, 0, 0) := by decide
/-- V-W1 (a). -/
theorem test_bwBitLen :
    after (exec .bwBitLen (withBits [true, false, true, true] (block [] 0))) (fun t => (t.status.word, t.result)) =
      some (0x02, 4) := by decide
/-- V-D5: a copy with distance below length. -/
theorem test_decode :
    after (exec .decode (block [0xa3, 0xa0, 0xd0, 0x80, 0x10, 0x00, 0x00] 0))
      (fun t => (t.status.word, t.result, outBytes t, t.brPos)) =
      some (0x02, 7, some [0x41, 0x42, 0x41, 0x42, 0x41], 56) := by decide
/-- V-D6: the distance reaches before the start. -/
theorem test_decode_distance :
    after (exec .decode (block [0xa3, 0xa0, 0x80, 0x20, 0x00, 0x00] 0))
      (fun t => (t.status.word, t.result, t.outLen, t.brPos, hdrWord t.hdrCsw t.hdrClw)) =
      some (0x46, 0, 0, 31, 0xa3) := by decide
/-- V-E2. -/
theorem test_encode :
    after (exec .encode (block [0x41, 0x41, 0x41, 0x41, 0x41] 0))
      (fun t => (t.status.word, t.result, outBytes t, hdrWord t.hdrCsw t.hdrClw)) =
      some (0x02, 6, some runStream, 0xa3) := by decide +kernel
/-- V-E8: ENCODE 4 of a 6-byte result. -/
theorem test_encode_capacity :
    after (exec .encode (block [0x41, 0x41, 0x41, 0x41, 0x41] 4))
      (fun t => (t.status.word, t.result, t.outLen, t.bwBits)) = some (0x36, 2, 0, []) := by decide +kernel

/-! The stream items, each at its cursor in V-L5. -/

/-- The header of V-L5. -/
theorem test_hdr :
    after (step (decoding .readHeader (block runStream 0)))
      (fun t => (t.brPos, hdrWord t.hdrCsw t.hdrClw, t.outLen)) = some (8, 0xa3, 0) := by decide
/-- LIT 0x41 at bit 8. -/
theorem test_lit :
    after (step (decoding .tokenLoop (atBit 8 (block runStream 0)))) (fun t => (t.brPos, outBytes t)) =
      some (17, some [0x41]) := by decide
/-- REF 1, 4 at bit 17, byte by byte over its own output. -/
theorem test_ref :
    after (step (decoding .tokenLoop (withOut [0x41] (atBit 17 (block runStream 0)))))
      (fun t => (t.brPos, outBytes t)) = some (31, some [0x41, 0x41, 0x41, 0x41, 0x41]) := by decide
/-- END at bit 31: the loop is left, the cursor is not yet aligned. -/
theorem test_endStream :
    after (step (decoding .tokenLoop (withOut [0x41] (atBit 31 (block runStream 0)))))
      (fun t => (t.brPos, t.status.word, outBytes t)) = some (45, 0x01, some [0x41]) := by decide

/-! Witnesses: for each statement with hypotheses, a state and operands that meet them all, each clause at a boundary. -/

/-- Two bytes of input, reset otherwise. -/
def reader : State := block [0xa5, 0x3c] 0

/-- Five bytes to encode (V-E2). -/
def source : State := block [0x41, 0x41, 0x41, 0x41, 0x41] 0

/-- A host that has written one of two bytes of input. -/
def partly : State := { reader with inMem := memWrite [] 1 0x3c }

/-- The stream of V-L5 written at byte 1, IN_LEN `n`: byte 0 and the bytes after the stream have not been written. -/
def placedAt1 (n : Nat) : State :=
  { State.resetWith tiny [] 0 with
    inMem := memWriteList [] 1 runStream, inLen := BitVec.ofNat 32 n, arg0 := 1 }

/-- The next move of the host. -/
def hostDoes (op : HostOp) (s : State) : State := { s with host := [op] }

/-- The registers of `decoding p s`. -/
def regsAt (p : DecPhase) (s : State) : DecRegs := { DecRegs.init s.arg0 with phase := p, csw := 10, clw := 3 }

theorem inputIs_of {s : State} {L : List Byte}
    (h : L.length = s.inLen.toNat ∧ ∀ i, i < L.length → memRead s.inMem i = L[i]?) : InputIs s L := h

theorem fieldIs_of {s : State} {p : Nat} {bits : List Bool}
    (h : ∀ i, i < bits.length → inBit s (p + i) = bits[i]?) : FieldIs s p bits := h

theorem streamWritten_of {s : State}
    (h : ∀ i, i < s.inLen.toNat → s.arg0.toNat ≤ i → (memRead s.inMem i).isSome = true) : StreamWritten s :=
  fun i h1 h2 => h i h2 h1

theorem outputIs_of {s : State} {out : List Byte}
    (h : out.length = s.outLen.toNat ∧ ∀ i, i < out.length → memRead s.outMem i = out[i]?) : OutputIs s out := h

theorem runStream_input : InputIs (block runStream 0) runStream := inputIs_of (by decide)
theorem source_input : InputIs source [0x41, 0x41, 0x41, 0x41, 0x41] := inputIs_of (by decide)

/-- The invariant of a state whose engine is idle, from what can be evaluated. -/
theorem inv_of_idle {s : State}
    (h : s.cfg.legal = true ∧ Memory.wf s.inMem = true ∧ Memory.wf s.outMem = true ∧
      memBelow s.cfg.inCap s.inMem = true ∧ memBelow s.cfg.outCap s.outMem = true ∧
      s.outLen.toNat ≤ s.cfg.outCap ∧ (∀ i, i < s.outLen.toNat → (memRead s.outMem i).isSome = true) ∧
      s.bwBits.length ≤ 8 * s.cfg.outCap ∧ s.brPos.toNat ≤ 8 * (2 ^ 32 - 1) ∧ s.status.legal = true ∧
      s.status.busy = !engineIdle s) (he : s.engine = .idle) : Inv s := by
  obtain ⟨h1, h2, h3, h4, h5, h6, h7, h8, h9, h10, h11⟩ := h
  exact ⟨h1, h2, h3, h4, h5, h6, h7, h8, h9, h10, h11, by unfold EngineInv; rw [he]; trivial⟩

theorem reader_inv : Inv reader := inv_of_idle (by decide) rfl
theorem runStream_inv : Inv (block runStream 0) := inv_of_idle (by decide) rfl

theorem test_witness_CommandDecodesItsEncoding :
    (Instr.brReadUint 32).wellFormed 0 0 = true ∧ encode 0 0 (.brReadUint 32) = .word 0x202 := by decide
theorem test_witness_StreamItemDecodesItsEncoding :
    ((Instr.hdr 15 15).wellFormed 0 0 = true ∧ (Instr.hdr 15 15).isStreamItem = true) ∧
    (Instr.ref 1023 7).wellFormed 10 3 = true ∧ (Instr.ref 1023 7).isStreamItem = true := by decide
theorem test_witness_LegalWordIsItsCommandsEncoding : decodeCommand 0x207 = .ok (.bwWriteUint 32) := by rfl
theorem test_witness_StepRunsTheWrittenCommand :
    engineIdle (hostDoes (.writeReg 0x00 0x004) reader) = true ∧
    (hostDoes (.writeReg 0x00 0x004) reader).host = .writeReg 0x00 0x004 :: [] ∧
    decodeCommand 0x004 = .ok .brByteAlign := ⟨rfl, rfl, rfl⟩
theorem test_witness_StepRunsTheFetchedItem :
    (decoding .tokenLoop (atBit 8 (block runStream 0))).engine =
      .decoding (regsAt .tokenLoop (block runStream 0)) ∧
    (decoding .tokenLoop (atBit 8 (block runStream 0))).host.head? ≠ some .reset ∧
    fetchItem (regsAt .tokenLoop (block runStream 0)) (decoding .tokenLoop (atBit 8 (block runStream 0))) =
      some (.item (.lit 0x41) 17) := by decide
theorem test_witness_IdleEngineStays : engineIdle State.reset = true ∧ State.reset.host = [] := by decide
theorem test_witness_ResetEventAbandonsEverything :
    (hostDoes .reset (decoding .tokenLoop reader)).host = .reset :: [] := by decide
theorem test_witness_HostReadsTheRegisterMap :
    ∀ o ∈ [0x00, 0x04, 0x08, 0x0C, 0x10, 0x14, 0x18, 0x1C, 0xFC],
      engineIdle (hostDoes (.readReg o) reader) = true ∧
      (hostDoes (.readReg o) reader).host = .readReg o :: [] ∧ o.toNat % 4 = 0 := by decide
theorem test_witness_HostWritesTheRegisterMap :
    ∀ o ∈ [0x04, 0x08, 0x0C, 0x10, 0x14, 0x18, 0x1C, 0xFC],
      engineIdle (hostDoes (.writeReg o 9) reader) = true ∧ reader.status.busy = false ∧
      (hostDoes (.writeReg o 9) reader).host = .writeReg o 9 :: [] ∧ o.toNat % 4 = 0 ∧ o ≠ 0x00 := by decide
theorem test_witness_HostBytePorts :
    (engineIdle (hostDoes (.writeIn 63 7) reader) = true ∧ (hostDoes (.writeIn 63 7) reader).status.busy = false ∧
      (hostDoes (.writeIn 63 7) reader).host = .writeIn 63 7 :: [] ∧ 63 < tiny.inCap) ∧
    (engineIdle (hostDoes (.readOut 1) (withOut [1, 2] reader)) = true ∧
      (hostDoes (.readOut 1) (withOut [1, 2] reader)).status.busy = false ∧
      1 < (withOut [1, 2] reader).outLen.toNat ∧ memRead (withOut [1, 2] reader).outMem 1 = some 2) ∧
    (hostDoes (.readOut 2) (withOut [1, 2] reader)).host = .readOut 2 :: [] ∧
    (withOut [1, 2] reader).outLen.toNat ≤ 2 := by decide
theorem test_witness_IllegalCommandChangesOnlyStatusAndResult :
    (engineIdle reader = true ∧ reader.status.busy = false) ∧
    ((0x000 : Word).toNat % 16 = 0 ∧ 0xD ≤ (0x00D : Word).toNat % 16) ∧ (0x401 : Word).toNat / 1024 ≠ 0 ∧
    ((0x212 : Word).toNat % 16 = 2 ∧ 32 < (0x212 : Word).toNat / 16 % 64) ∧
    ((0x01C : Word).toNat % 16 < 0xD ∧ (0x01C : Word).toNat % 16 ≠ 2 ∧ (0x01C : Word).toNat % 16 ≠ 7 ∧
      (0x01C : Word).toNat / 16 % 64 ≠ 0) ∧
    { reader with inLen := 65 }.cfg.inCap < { reader with inLen := 65 }.inLen.toNat := by decide
theorem test_witness_NoCommandWhileBusy :
    { reader with status := Status.issued }.status.busy = true ∧ Instr.brInit.isStreamItem = false := by decide

/-- Ready and the further hypotheses of the statements on single reader commands. -/
theorem test_witness_BrInitSetsTheCursor : Ready (block [] 0xFFFFFFFF) := by decide
theorem test_witness_BrReadUintReadsTheField :
    (Ready (atBit 9 partly) ∧ (8 : BitVec 6).toNat ≤ 32 ∧
      0 < (8 : BitVec 6).toNat ∧ 8 * partly.inLen.toNat < (atBit 9 partly).brPos.toNat + (8 : BitVec 6).toNat) ∧
    Ready (atBit 8 partly) ∧
    ¬ (0 < (8 : BitVec 6).toNat ∧ 8 * partly.inLen.toNat < (atBit 8 partly).brPos.toNat + (8 : BitVec 6).toNat) ∧
    FieldIs (atBit 8 partly) (atBit 8 partly).brPos.toNat [false, false, true, true, true, true, false, false] :=
  ⟨by decide, by decide, by decide, fieldIs_of (by decide)⟩
theorem test_witness_ZeroWidthReadIsANoOp : Ready (atBit 16 reader) := by decide
theorem test_witness_FailedReadKeepsTheCursor :
    exec .brReadBool (atBit 16 reader) = .next (nextOf (exec .brReadBool (atBit 16 reader)) reader) ∧
    (nextOf (exec .brReadBool (atBit 16 reader)) reader).status.errcode = .outOfData :=
  ⟨eq_nextOf (by decide), by decide⟩
theorem test_witness_BrReadBoolReadsOneBit :
    (Ready (atBit 16 partly) ∧ 8 * partly.inLen.toNat < (atBit 16 partly).brPos.toNat + 1) ∧
    Ready (atBit 15 partly) ∧ (atBit 15 partly).brPos.toNat + 1 ≤ 8 * partly.inLen.toNat ∧
    inBit (atBit 15 partly) (atBit 15 partly).brPos.toNat = some false := by decide
theorem test_witness_BrByteAlignRoundsUp :
    Ready (atBit (8 * (2 ^ 32 - 1)) reader) ∧
    (atBit (8 * (2 ^ 32 - 1)) reader).brPos.toNat ≤ 8 * (2 ^ 32 - 1) := by decide
theorem test_witness_BrBytePosReportsTheByte :
    Ready (atBit 10 reader) ∧ (atBit 10 reader).brPos.toNat % 8 ≠ 0 ∧ Ready (atBit 16 reader) ∧
    (atBit 16 reader).brPos.toNat % 8 = 0 := by decide
theorem test_witness_ReadsSplit :
    4 + 8 ≤ 32 ∧ brRead (memOfList [0xa5, 0x3c]) 2 4 4 = .ok 5 8 ∧
    brRead (memOfList [0xa5, 0x3c]) 2 8 8 = .ok 0x3c 16 := by decide
theorem test_witness_BwInitEmptiesTheWriter : Ready (withBits [true] reader) := by decide
/-- A value too wide, a full writer, the last bit that fits. -/
theorem test_witness_BwWriteUintAppendsTheField :
    (3 : BitVec 6).toNat ≤ 32 ∧ (Ready (block [] 8) ∧ 2 ^ (3 : BitVec 6).toNat ≤ (block [] 8).arg0.toNat) ∧
    (Ready (withBits (List.replicate 128 true) (block [] 1)) ∧ 8 * tiny.outCap < 128 + 1) ∧
    Ready (withBits (List.replicate 127 true) (block [] 1)) ∧ 127 + 1 ≤ 8 * tiny.outCap := by decide
theorem test_witness_BwPadCompletesTheByte : Ready (withBits [true] reader) := by decide
theorem test_witness_BwToBytesPacksTheWriter :
    Ready (withBits (List.replicate 128 true) reader) ∧ tiny.legal = true ∧
    (withBits (List.replicate 128 true) reader).bwBits.length ≤ 8 * tiny.outCap ∧
    (withBits (List.replicate 128 true) reader).bwBits.length % 8 = 0 := by decide +kernel
theorem test_witness_BwToBytesNeedsWholeBytes :
    Ready (withBits [true] reader) ∧ (withBits [true] reader).bwBits.length % 8 ≠ 0 := by decide
theorem test_witness_BwBitLenReturnsTheLength :
    Ready (withBits [true] reader) ∧ tiny.legal = true ∧ (withBits [true] reader).bwBits.length ≤ 8 * tiny.outCap := by
  decide
theorem test_witness_WrittenFieldReadsBack : 5 < 2 ^ 3 := by decide
theorem test_witness_RepeatedCommandChangesNothing :
    Inv reader ∧ exec .brBytePos reader = .next (nextOf (exec .brBytePos reader) reader) :=
  ⟨reader_inv, eq_nextOf (by decide)⟩

theorem test_witness_HdrBeginsTheTokenLoop :
    (decoding .readHeader reader).engine = .decoding (regsAt .readHeader reader) ∧
    (regsAt .readHeader reader).phase = .readHeader := by decide
theorem test_witness_LitAppendsItsByte :
    InTokenLoop (decoding .tokenLoop (withOut (List.replicate 15 0) reader)) (regsAt .tokenLoop reader) ∧
    (withOut (List.replicate 15 0) reader).outLen.toNat < tiny.outCap := by decide
/-- The longest copy that fits: 1 + (12 + 3) = 16 bytes. -/
theorem test_witness_RefCopiesByteByByte :
    InTokenLoop (decoding .tokenLoop (withOut [0x41] reader)) (regsAt .tokenLoop reader) ∧ tiny.legal = true ∧
    OutputIs (decoding .tokenLoop (withOut [0x41] reader)) [0x41] ∧ 1 ≤ (1 : BitVec 15).toNat ∧
    (1 : BitVec 15).toNat ≤ [(0x41 : Byte)].length ∧ [(0x41 : Byte)].length + ((12 : BitVec 15).toNat + 3) ≤ tiny.outCap :=
  ⟨by decide, by decide, outputIs_of (by decide), by decide⟩
theorem test_witness_RefBeforeTheStartIsAnError :
    InTokenLoop (decoding .tokenLoop (withOut [0x41] reader)) (regsAt .tokenLoop reader) ∧
    (withOut [0x41] reader).outLen.toNat < (2 : BitVec 15).toNat := by decide
theorem test_witness_TokenPastTheCapacityOverflows :
    (InTokenLoop (decoding .tokenLoop (withOut (List.replicate 16 0) reader)) (regsAt .tokenLoop reader) ∧
      tiny.outCap ≤ (withOut (List.replicate 16 0) reader).outLen.toNat) ∧
    InTokenLoop (decoding .tokenLoop (withOut [1, 2] reader)) (regsAt .tokenLoop reader) ∧
    1 ≤ (2 : BitVec 15).toNat ∧ (2 : BitVec 15).toNat ≤ (withOut [1, 2] reader).outLen.toNat ∧
    tiny.outCap < (withOut [1, 2] reader).outLen.toNat + ((12 : BitVec 15).toNat + 3) := by decide
theorem test_witness_EndExitsTheLoop :
    InTokenLoop (decoding .tokenLoop reader) (regsAt .tokenLoop reader) := by decide

/-- After the terminator of V-L5, before the exit. -/
def exiting : State := decoding .done (atBit 45 (block runStream 0))

theorem exiting_inv : Inv exiting :=
  { params := by decide, inCanonical := by decide, outCanonical := by decide, inWithin := by decide,
    outWithin := by decide, outLenCap := by decide, outWritten := by decide, writerCap := by decide,
    cursorMax := by decide, statusLegal := by decide, busyRuns := by decide,
    transients := by
      show _ ∧ _ ∧ (_ → _) ∧ (_ → _)
      exact ⟨by decide, by decide, by decide, by decide⟩ }

theorem test_witness_ExitReportsTheCompressedSize :
    Inv exiting ∧ exiting.engine = .decoding (regsAt .done (block runStream 0)) ∧
    (regsAt .done (block runStream 0)).phase = .done ∧ exiting.host.head? ≠ some .reset :=
  ⟨exiting_inv, by decide⟩

/-- A decoder at bit `p` of `bytes`. -/
def cutAt (ph : DecPhase) (p : Nat) (bytes : List Byte) : State := decoding ph (atBit p (block bytes 0))

/-- One cut per clause, one bit short of the field each time where the input's whole bytes allow it. -/
theorem test_witness_TruncatedStreamIsMalformed :
    8 * 1 < 5 + 4 ∧
    (1 + 4 ≤ 8 * 1 ∧ 8 * 1 < 1 + 8 ∧ ∀ i, i < 4 → (inBit (cutAt .readHeader 1 [0]) (1 + i)).isSome = true) ∧
    8 * 1 < 8 + 1 ∧
    (0 + 1 ≤ 8 * 1 ∧ inBit (cutAt .tokenLoop 0 [0xff]) 0 = some true ∧ 8 * 1 < 0 + 9) ∧
    (6 + 1 ≤ 8 * 2 ∧ inBit (cutAt .tokenLoop 6 [0, 0]) 6 = some false ∧
      8 * 2 < 6 + 1 + (regsAt .tokenLoop reader).csw.toNat) ∧
    (3 + 1 + (regsAt .tokenLoop reader).csw.toNat ≤ 8 * 2 ∧ inBit (cutAt .tokenLoop 3 [0, 0]) 3 = some false ∧
      (∀ i, i < (regsAt .tokenLoop reader).csw.toNat → (inBit (cutAt .tokenLoop 3 [0, 0]) (3 + 1 + i)).isSome = true) ∧
      8 * 2 < 3 + 1 + (regsAt .tokenLoop reader).csw.toNat + (regsAt .tokenLoop reader).clw.toNat) := by decide
theorem test_witness_TruncatedStreamIsMalformed_state :
    (cutAt .tokenLoop 3 [0, 0]).engine = .decoding (regsAt .tokenLoop reader) ∧
    (cutAt .tokenLoop 3 [0, 0]).host.head? ≠ some .reset ∧ 3 = (cutAt .tokenLoop 3 [0, 0]).brPos.toNat ∧
    16 = 8 * (cutAt .tokenLoop 3 [0, 0]).inLen.toNat := by decide

/-- V-L5 with its tokens and its output, at byte 1 of an `IN` written nowhere else. -/
theorem test_witness_DecodeExpandsItsStream :
    Ready (placedAt1 10) ∧ tiny.legal = true ∧
    (∀ i ∈ [Instr.lit 0x41, Instr.ref 1 1], i.wellFormed 10 3 = true) ∧
    (Instr.endStream 0).wellFormed 10 3 = true ∧
    expandItems [] [Instr.lit 0x41, Instr.ref 1 1] = some [0x41, 0x41, 0x41, 0x41, 0x41] ∧ 5 ≤ tiny.outCap ∧
    8 * (placedAt1 10).arg0.toNat + (streamBitsOf 10 3 [Instr.lit 0x41, Instr.ref 1 1] 0).length ≤
      8 * (placedAt1 10).inLen.toNat ∧
    FieldIs (placedAt1 10) (8 * (placedAt1 10).arg0.toNat) (streamBitsOf 10 3 [Instr.lit 0x41, Instr.ref 1 1] 0) :=
  ⟨by decide, by decide, by decide, by decide, by decide, by decide, by decide, fieldIs_of (by decide +kernel)⟩
theorem test_witness_DecodeAlwaysEnds : Ready (placedAt1 7) ∧ tiny.legal = true ∧ StreamWritten (placedAt1 7) :=
  ⟨by decide, by decide, streamWritten_of (by decide)⟩
/-- Two blocks that differ in the writer, the cursor, `OUT` and byte 0 of `IN`; a start within the input and one past
it. -/
theorem test_witness_DecodeDependsOnItsInputOnly :
    (Ready (placedAt1 7) ∧ Ready (withOut [9] (withBits [true] (atBit 3 (block (9 :: runStream) 1)))) ∧
      (placedAt1 7).inLen = (block (9 :: runStream) 1).inLen ∧
      (placedAt1 7).arg0 = (block (9 :: runStream) 1).arg0 ∧
      (∀ i, i < 7 → 1 ≤ i → memRead (placedAt1 7).inMem i = memRead (block (9 :: runStream) 1).inMem i) ∧
      tiny.legal = true ∧ exec .decode (placedAt1 7) = .next (nextOf (exec .decode (placedAt1 7)) reader)) ∧
    (placedAt1 7).arg0.toNat < (placedAt1 7).inLen.toNat ∧
    (block runStream 6).inLen.toNat ≤ (block runStream 6).arg0.toNat :=
  ⟨⟨by decide, by decide, by decide, by decide, by decide, by decide, eq_nextOf (by decide)⟩, by decide⟩
theorem test_witness_BytePosAfterDecode :
    Inv (block runStream 0) ∧ Ready (block runStream 0) ∧
    exec .decode (block runStream 0) = .next (nextOf (exec .decode (block runStream 0)) reader) ∧
    (nextOf (exec .decode (block runStream 0)) reader).status.err = false :=
  ⟨runStream_inv, by decide, eq_nextOf (by decide), by decide⟩
theorem test_witness_CommandIsItsEngineSteps : Ready source ∧ source.host = [] := by decide

/-- A search that finds a match: in `AAAA` at index 1, distance 1, three bytes. -/
theorem test_witness_SearchPrefersLongestThenNearest :
    (searchAt [0x41, 0x41, 0x41, 0x41] 1 1 3).bestLength = 3 ∧ 1 ≤ 1 := by decide
theorem test_witness_GreedyTokensFitTheirFields :
    Instr.ref 1 1 ∈ greedyTokens [0x41, 0x41, 0x41, 0x41, 0x41] 10 3 5 0 := by decide +kernel

/-- The first pair of the sweep gives the smallest trial on five equal bytes (V-E2). -/
theorem source_smallest :
    ∀ p ∈ tiny.sweep, trialSize [0x41, 0x41, 0x41, 0x41, 0x41] (10, 3) ≤ trialSize [0x41, 0x41, 0x41, 0x41, 0x41] p := by
  decide +kernel
theorem source_selected : IsSelected [0x41, 0x41, 0x41, 0x41, 0x41] tiny.sweep 0 (10, 3) :=
  ⟨rfl, fun _ _ h => ⟨source_smallest _ (List.mem_of_getElem? h), fun h0 => absurd h0 (Nat.not_lt_zero _)⟩⟩
theorem test_witness_EncodeCommitsTheSelectedTrial :
    Ready source ∧ tiny.legal = true ∧ InputIs source [0x41, 0x41, 0x41, 0x41, 0x41] ∧
    IsSelected [0x41, 0x41, 0x41, 0x41, 0x41] tiny.sweep 0 (10, 3) ∧
    trialSize [0x41, 0x41, 0x41, 0x41, 0x41] (10, 3) ≤
      (if source.arg0 = 0 then tiny.outCap else min source.arg0.toNat tiny.outCap) :=
  ⟨by decide, by decide, source_input, source_selected, by decide +kernel⟩
theorem test_witness_EncodeReportsTheExactOverflow :
    Ready { source with arg0 := 5 } ∧ tiny.legal = true ∧
    InputIs { source with arg0 := 5 } [0x41, 0x41, 0x41, 0x41, 0x41] ∧
    IsSelected [0x41, 0x41, 0x41, 0x41, 0x41] tiny.sweep 0 (10, 3) ∧
    5 = (if (5 : Word) = 0 then tiny.outCap else min (5 : Word).toNat tiny.outCap) ∧
    5 < trialSize [0x41, 0x41, 0x41, 0x41, 0x41] (10, 3) :=
  ⟨by decide, by decide, source_input, source_selected, by decide +kernel⟩
theorem test_witness_DecodeUndoesEncode :
    (Ready source ∧ tiny.legal = true ∧ InputIs source [0x41, 0x41, 0x41, 0x41, 0x41] ∧
      exec .encode source = .next (nextOf (exec .encode source) reader) ∧
      (nextOf (exec .encode source) reader).status.err = false ∧
      OutputIs (nextOf (exec .encode source) reader) runStream) ∧
    Ready (block runStream 0) ∧ InputIs (block runStream 0) runStream ∧ (block runStream 0).arg0 = 0 ∧
    5 ≤ (block runStream 0).cfg.outCap :=
  ⟨⟨by decide, by decide, source_input, eq_nextOf (by decide +kernel), by decide +kernel,
    outputIs_of (by decide +kernel)⟩, by decide, runStream_input, by decide, by decide⟩

theorem test_witness_ReaderCommandsFrame :
    ∀ i ∈ [Instr.brInit, .brReadUint 3, .brReadUint 33, .brReadBool, .brByteAlign, .brBytePos],
      exec i reader = .next (nextOf (exec i reader) reader) := fun i hi =>
  eq_nextOf ((by decide : ∀ i ∈ [Instr.brInit, .brReadUint 3, .brReadUint 33, .brReadBool, .brByteAlign, .brBytePos],
    isNext (exec i reader) = true) i hi)
theorem test_witness_WriterCommandsFrame :
    ∀ i ∈ [Instr.bwInit, .bwWriteUint 3, .bwWriteUint 33, .bwPad, .bwToBytes, .bwBitLen],
      exec i reader = .next (nextOf (exec i reader) reader) := fun i hi =>
  eq_nextOf ((by decide : ∀ i ∈ [Instr.bwInit, .bwWriteUint 3, .bwWriteUint 33, .bwPad, .bwToBytes, .bwBitLen],
    isNext (exec i reader) = true) i hi)
theorem test_witness_StreamItemsFrame_hdr :
    exec (.hdr 10 3) (decoding .readHeader reader) =
      .next (nextOf (exec (.hdr 10 3) (decoding .readHeader reader)) reader) ∧
    engineIdle (nextOf (exec (.hdr 10 3) (decoding .readHeader reader)) reader) = false :=
  ⟨eq_nextOf (by decide), by decide⟩
/-- LIT, REF, END, and a REF that ends DECODE with an error. -/
theorem test_witness_StreamItemsFrame :
    (∀ i ∈ [Instr.lit 7, .ref 1 1, .endStream 7],
      i.isStreamItem = true ∧
      isNext (exec i (decoding .tokenLoop (withOut [0x41] reader))) = true ∧
      engineIdle (nextOf (exec i (decoding .tokenLoop (withOut [0x41] reader))) reader) = false) ∧
    isNext (exec (.ref 2 1) (decoding .tokenLoop (withOut [0x41] reader))) = true ∧
    engineIdle (nextOf (exec (.ref 2 1) (decoding .tokenLoop (withOut [0x41] reader))) reader) = true := by decide
theorem test_witness_DecodeAndEncodeFrame :
    tiny.legal = true ∧ exec .decode (block runStream 0) = .next (nextOf (exec .decode (block runStream 0)) reader) ∧
    exec .encode source = .next (nextOf (exec .encode source) reader) :=
  ⟨by decide, eq_nextOf (by decide), eq_nextOf (by decide +kernel)⟩
theorem test_witness_NoInstructionWritesTheHostsState :
    exec .bwPad reader = .next (nextOf (exec .bwPad reader) reader) := eq_nextOf (by decide)
theorem test_witness_EveryCommandEnds :
    encode 0 0 .bwPad = .word 0x008 ∧ exec .bwPad reader = .next (nextOf (exec .bwPad reader) reader) :=
  ⟨by decide, eq_nextOf (by decide)⟩
theorem test_witness_CommandsRaiseOnlyTheirErrors :
    Instr.bwPad.isStreamItem = false ∧ exec .bwPad reader = .next (nextOf (exec .bwPad reader) reader) :=
  ⟨by decide, eq_nextOf (by decide)⟩
/-- An error of DECODE and one of another command. -/
theorem test_witness_ErrorsLeaveTheTable :
    (exec .decode (block [] 0) = .next (nextOf (exec .decode (block [] 0)) reader) ∧
      (nextOf (exec .decode (block [] 0)) reader).status.err = true ∧
      (nextOf (exec .decode (block [] 0)) reader).status.errcode = .malformedStream) ∧
    exec .brBytePos (atBit 1 reader) = .next (nextOf (exec .brBytePos (atBit 1 reader)) reader) ∧
    (nextOf (exec .brBytePos (atBit 1 reader)) reader).status.err = true :=
  ⟨⟨eq_nextOf (by decide), by decide, by decide⟩, eq_nextOf (by decide), by decide⟩
/-- ILLEGAL_COMMAND, of DECODE with IN_LEN past the capacity and of a width of 33. -/
theorem test_witness_ErrorsLeaveTheTable_illegal :
    (∀ i ∈ [Instr.decode, .brReadUint 33], i.isStreamItem = false ∧
      after (exec i { withOut [1, 2] reader with inLen := 65 }) (fun t => (t.status.err, t.status.errcode)) =
        some (true, .illegalCommand)) := by decide
/-- CAPACITY_EXCEEDED (V-E8), with an output length to lose. -/
theorem test_witness_ErrorsLeaveTheTable_capacity :
    after (exec .encode (withOut [1, 2] { source with arg0 := 4 })) (fun t => (t.status.err, t.status.errcode)) =
      some (true, .capacityExceeded) := by decide +kernel
theorem test_witness_StepKeepsTheInvariant :
    Inv exiting ∧ step exiting = .next (nextOf (step exiting) reader) := ⟨exiting_inv, eq_nextOf (by decide)⟩

end Sys2Proof.Tests
end

section
/-! SUPPORT. A step that is a host read of a byte of `IN` or `OUT` (10_state.md R12, 70_reset_and_hazards.md R137). -/

namespace Sys2Proof.Machine

/-- A move on a memory has its meaning while BUSY = 0 (20_memory.md R53). -/
theorem whileIdle_of_not_busy {x : Exec} {s : State} (hb : s.status.busy = false) : whileIdle x s = x := by
  simp [whileIdle, hb]

section
variable {s : State} {i : Nat} {rest : List HostOp}

theorem step_readIn (hi : engineIdle s = true) (hb : s.status.busy = false) (hh : s.host = .readIn i :: rest) :
    step s = hostReadIn i { s with host := rest } := by
  rw [step_of_idle hi, hostStep, hh]
  exact whileIdle_of_not_busy hb

theorem step_readOut (hi : engineIdle s = true) (hb : s.status.busy = false) (hh : s.host = .readOut i :: rest) :
    step s = withOutByte i (fun b => .next { s with host := rest, hostData := b.setWidth 32 }) s := by
  rw [step_of_idle hi, hostStep, hh]
  exact whileIdle_of_not_busy hb

theorem hostReadIn_of_unwritten (hc : i < s.cfg.inCap) (hm : memRead s.inMem i = none) :
    hostReadIn i s = .fault (.inByteUnwritten i) := by
  simp [hostReadIn, hc, hm]

theorem withOutByte_of_outLen_le {k : Byte → Exec} (h : s.outLen.toNat ≤ i) :
    withOutByte i k s = .refused (.outReadPastLength i) :=
  if_neg (Nat.not_lt.2 h)

end

/-! ### The state after reset -/

/-- Right after reset a host read of any byte of `IN` faults: the host has written none (10_state.md R37). -/
theorem step_readIn_resetWith {cfg : Config} {rest : List HostOp} {d : Word} {i : Nat} (hc : i < cfg.inCap) :
    step (State.resetWith cfg (.readIn i :: rest) d) = .fault (.inByteUnwritten i) :=
  (step_readIn rfl rfl rfl).trans (hostReadIn_of_unwritten hc (memRead_nil i))

/-- Right after reset the host may read no byte of `OUT`: OUT_LEN is 0 (10_state.md R37). -/
theorem step_readOut_resetWith {cfg : Config} {rest : List HostOp} {d : Word} (i : Nat) :
    step (State.resetWith cfg (.readOut i :: rest) d) = .refused (.outReadPastLength i) :=
  (step_readOut rfl rfl rfl).trans (withOutByte_of_outLen_le (Nat.zero_le i))

/-- Settles O8: the registers hold by definition of the reset state; the two reads are the memory ports' rules at an
empty `IN` and at OUT_LEN = 0. -/
theorem resetLeavesTheTable : Obligations.ResetLeavesTheTable := by
  have hstatus : State.reset.status.word = 0 := by decide
  exact ⟨rfl, rfl, hstatus, rfl, rfl, rfl, rfl, rfl, rfl, rfl, rfl,
    fun _ hc => step_readIn_resetWith hc, fun i => step_readOut_resetWith i⟩

end Sys2Proof.Machine
end

section
/-! SUPPORT. A write to CMD: the fields of a command word, what a word that decodes is, and the illegal words
(30_encoding.md R67, R68). -/

namespace Sys2Proof.Machine

/-! ### The fields of a command word -/

theorem commandOp_toNat (w : Word) : (commandOp w).toNat = w.toNat % 16 := by
  simp [commandOp, BitVec.extractLsb'_toNat]

theorem commandWidth_toNat (w : Word) : (commandWidth w).toNat = w.toNat / 16 % 64 := by
  simp [commandWidth, BitVec.extractLsb'_toNat, Nat.shiftRight_eq_div_pow]

theorem commandReserved_toNat (w : Word) : (commandReserved w).toNat = w.toNat / 1024 := by
  have hw := w.isLt
  simp only [commandReserved, BitVec.extractLsb'_toNat, Nat.shiftRight_eq_div_pow]
  omega

/-- A word whose reserved bits are clear is its OP and WIDTH (30_encoding.md R67). -/
theorem commandWordOf_fields {w : Word} (hr : commandReserved w = 0) :
    commandWordOf (commandOp w) (commandWidth w) = w := by
  have hr0 : w.toNat / 1024 = 0 := by rw [← commandReserved_toNat, hr]; rfl
  apply BitVec.eq_of_toNat_eq
  rw [Laws.FieldLayout.commandWordOf_toNat, commandOp_toNat, commandWidth_toNat]
  omega

/-! ### A word that decodes -/

section
variable {csw clw : Nibble} {w : Word} {i : Instr} {op : BitVec 4}

/-- One row of R67's table, for a command without WIDTH: `op` is the row's OP, `j` its command. -/
theorem encode_of_commandWithoutWidth {j : Instr} (hr : commandReserved w = 0) (ho : (commandOp w).toNat = op.toNat)
    (hwf : j.wellFormed csw clw = true) (he : encode csw clw j = .word (commandWordOf op 0))
    (h : commandWithoutWidth w j = .ok i) : i.wellFormed csw clw = true ∧ encode csw clw i = .word w := by
  unfold commandWithoutWidth at h
  split at h
  · next hw =>
    cases h
    refine ⟨hwf, ?_⟩
    rw [he, ← BitVec.eq_of_toNat_eq ho, ← hw, commandWordOf_fields hr]
  · cases h

/-- One row of R67's table, for a command with WIDTH. -/
theorem encode_of_commandWithWidth {j : BitVec 6 → Instr} (hr : commandReserved w = 0)
    (ho : (commandOp w).toNat = op.toNat)
    (hwf : ∀ v : BitVec 6, v.toNat ≤ 32 → (j v).wellFormed csw clw = true)
    (he : ∀ v, encode csw clw (j v) = .word (commandWordOf op v))
    (h : commandWithWidth w j = .ok i) : i.wellFormed csw clw = true ∧ encode csw clw i = .word w := by
  unfold commandWithWidth at h
  split at h
  · next hw =>
    cases h
    refine ⟨hwf _ hw, ?_⟩
    rw [he, ← BitVec.eq_of_toNat_eq ho, commandWordOf_fields hr]
  · cases h

/-- A word that decodes is the encoding of a well-formed command, under any header widths (30_encoding.md R67). -/
theorem encode_of_decodeCommand (csw clw : Nibble) (h : decodeCommand w = .ok i) :
    i.wellFormed csw clw = true ∧ encode csw clw i = .word w := by
  unfold decodeCommand at h
  split at h
  · cases h
  · next hr =>
    replace hr := not_not.1 hr
    split at h
    · next ho => exact encode_of_commandWithoutWidth (op := 0x1) hr ho rfl rfl h
    · next ho =>
      exact encode_of_commandWithWidth (op := 0x2) (j := .brReadUint) hr ho
        (fun _ hv => decide_eq_true hv) (fun _ => rfl) h
    · next ho => exact encode_of_commandWithoutWidth (op := 0x3) hr ho rfl rfl h
    · next ho => exact encode_of_commandWithoutWidth (op := 0x4) hr ho rfl rfl h
    · next ho => exact encode_of_commandWithoutWidth (op := 0x5) hr ho rfl rfl h
    · next ho => exact encode_of_commandWithoutWidth (op := 0x6) hr ho rfl rfl h
    · next ho =>
      exact encode_of_commandWithWidth (op := 0x7) (j := .bwWriteUint) hr ho
        (fun _ hv => decide_eq_true hv) (fun _ => rfl) h
    · next ho => exact encode_of_commandWithoutWidth (op := 0x8) hr ho rfl rfl h
    · next ho => exact encode_of_commandWithoutWidth (op := 0x9) hr ho rfl rfl h
    · next ho => exact encode_of_commandWithoutWidth (op := 0xA) hr ho rfl rfl h
    · next ho => exact encode_of_commandWithoutWidth (op := 0xB) hr ho rfl rfl h
    · next ho => exact encode_of_commandWithoutWidth (op := 0xC) hr ho rfl rfl h
    · cases h

/-- No illegal word encodes a well-formed command: none of 30_encoding.md R68 (a) to (d) holds of its fields. -/
theorem fields_of_encode (hwf : i.wellFormed csw clw = true) (he : encode csw clw i = .word w) :
    w.toNat / 1024 = 0 ∧ 1 ≤ w.toNat % 16 ∧ w.toNat % 16 ≤ 0xC ∧ w.toNat / 16 % 64 ≤ 32 ∧
      (w.toNat % 16 = 2 ∨ w.toNat % 16 = 7 ∨ w.toNat / 16 % 64 = 0) := by
  cases i with
  | hdr | lit | ref | endStream => cases he
  | brReadUint v | bwWriteUint v =>
    cases he
    have hv := of_decide_eq_true hwf
    simp only [Laws.FieldLayout.commandWordOf_toNat, BitVec.reduceToNat]
    omega
  | brInit | brReadBool | brByteAlign | brBytePos | bwInit | bwPad | bwToBytes | bwBitLen | decode | encode =>
    cases he
    decide

/-- A well-formed command is the shared lifecycle around its body, its own word in CMD (10_state.md R29). -/
theorem exec_eq_command (hwf : i.wellFormed csw clw = true) (he : encode csw clw i = .word w) :
    ∃ body, ∀ s, exec i s = command w body s := by
  cases i <;> cases he
  case brInit => exact ⟨_, exec_brInit⟩
  case brReadUint v => exact ⟨_, fun s => (exec_brReadUint v s).trans (if_pos (of_decide_eq_true hwf))⟩
  case brReadBool => exact ⟨_, exec_brReadBool⟩
  case brByteAlign => exact ⟨_, exec_brByteAlign⟩
  case brBytePos => exact ⟨_, exec_brBytePos⟩
  case bwInit => exact ⟨_, exec_bwInit⟩
  case bwWriteUint v => exact ⟨_, fun s => (exec_bwWriteUint v s).trans (if_pos (of_decide_eq_true hwf))⟩
  case bwPad => exact ⟨_, exec_bwPad⟩
  case bwToBytes => exact ⟨_, exec_bwToBytes⟩
  case bwBitLen => exact ⟨_, exec_bwBitLen⟩
  case decode => exact ⟨_, exec_decode⟩
  case encode => exact ⟨_, exec_encode⟩

end

/-! ### The write and its illegal cases -/

section
variable {s : State} {w : Word}

/-- With the engine idle, a pending write to CMD is the next step (10_state.md R29). -/
theorem step_writeCmd {rest : List HostOp} (hi : engineIdle s = true) (hh : s.host = .writeReg 0x00 w :: rest) :
    step s = commandWrite w { s with host := rest } := by
  rw [step_of_idle hi, hostStep, hh]
  rfl

theorem illegalCommand_of_not_busy (hb : s.status.busy = false) :
    illegalCommand w s = .next (commandFailed w .illegalCommand 0 s) :=
  illegalCommand_eq_next.2 ⟨hb, rfl⟩

/-- 30_encoding.md R68 (e): IN_LEN > `IN_CAP` ends every command before its body. -/
theorem command_of_inCap_lt {body : State → Exec} (hb : s.status.busy = false) (hl : s.cfg.inCap < s.inLen.toNat) :
    command w body s = .next (commandFailed w .illegalCommand 0 s) :=
  command_eq_next.2 ⟨hb, .inl ⟨hl, rfl⟩⟩

end

/-- Settles O13: a word that does not decode is the illegal command by definition of the CMD write; one that decodes
encodes a command, so R68 (a) to (d) fail of it and R68 (e) ends that command before its body. -/
theorem illegalCommandChangesOnlyStatusAndResult : Obligations.IllegalCommandChangesOnlyStatusAndResult := by
  intro s w rest hi hb hh hill
  rw [step_writeCmd hi hh, commandWrite]
  cases hd : decodeCommand w with
  | error r => exact illegalCommand_of_not_busy hb
  | ok i =>
    obtain ⟨hwf, he⟩ := encode_of_decodeCommand 0 0 hd
    have hl : s.cfg.inCap < s.inLen.toNat := by
      have hfields := fields_of_encode hwf he
      omega
    obtain ⟨body, hexec⟩ := exec_eq_command hwf he
    exact (hexec _).trans (command_of_inCap_lt hb hl)

end Sys2Proof.Machine
end

section
/-! SUPPORT. The BitReader commands in states where they may run (40_bitreader.md R71 to R78): a field read at the
cursor answers OUT_OF_DATA or the field, and the end of a command in the terms of the statements. -/

namespace Sys2Proof.Machine

/-! ### The end of an issued command -/

theorem complete_issue (w r : Word) (s : State) : complete r (issue w s) = commandDone w r s := rfl

theorem complete_setBrPos_issue (w r : Word) (n : Nat) (s : State) :
    complete r (setBrPos n (issue w s)) = { commandDone w r s with brPos := BitVec.ofNat 35 n } := rfl

theorem raise_issue (w : Word) (e : ErrCode) (info : Word) (s : State) :
    raise e info (issue w s) = commandFailed w e info s := rfl

section
variable {s t : State} {cw : Word} {w : Nat}

/-! ### A field read at the cursor -/

/-- With fewer than `w` bits left a command that reads a field ends with OUT_OF_DATA (40_bitreader.md R72). -/
theorem command_readField_of_lacks (hr : Ready s) (hw : 0 < w) (hp : 8 * s.inLen.toNat < s.brPos.toNat + w) :
    command cw (readField w) s = .next (commandFailed cw .outOfData 0 s) := by
  rw [command_of_ready hr.1 hr.2, readField_eq_next]
  exact .inr ⟨⟨_, inReader_lacks_of hw hp⟩, (raise_issue ..).symm⟩

/-- A command that reads a field whose bits are known completes with the field's value, the cursor after it
(40_bitreader.md R72). -/
theorem command_readField_of_fieldIs {bits : List Bool} (hr : Ready s) (hl : bits.length = w)
    (hbits : FieldIs s s.brPos.toNat bits) (hp : w = 0 ∨ s.brPos.toNat + w ≤ 8 * s.inLen.toNat) :
    command cw (readField w) s = .next
      { commandDone cw (BitVec.ofNat 32 (fieldValue bits)) s with
        brPos := BitVec.ofNat 35 (s.brPos.toNat + w) } := by
  have hread : inReader (issue cw s) s.brPos.toNat w = .ok (bitsVal bits) (s.brPos.toNat + w) :=
    inReader_of_fieldIs hl ((fieldIs_congr (issue_inMem cw s)).2 hbits) hp
  rw [command_of_ready hr.1 hr.2, readField_eq_next, fieldValue_eq]
  exact .inl ⟨_, _, hread, (complete_setBrPos_issue ..).symm⟩

/-- A single bit whose value is known is a field of width 1. -/
theorem fieldIs_singleton {p : Nat} {b : Bool} (h : inBit s p = some b) : FieldIs s p [b] := by
  intro i hi
  obtain rfl : i = 0 := by simpa using hi
  exact h

/-- A command that reads a field and ends with an error leaves the cursor, RESULT 0 (40_bitreader.md R74). -/
theorem command_readField_failed (h : command cw (readField w) s = .next t) (he : t.status.errcode ≠ .none) :
    t.brPos = s.brPos ∧ t.result = 0 := by
  obtain ⟨-, ⟨-, rfl⟩ | ⟨-, h⟩⟩ := command_eq_next.1 h
  · exact ⟨rfl, rfl⟩
  · obtain ⟨v, n, -, rfl⟩ | ⟨-, rfl⟩ := readField_eq_next.1 h
    · exact absurd rfl he
    · exact ⟨rfl, rfl⟩

end

/-! ### The statements -/

/-- Settles O15: the body sets the cursor unchecked; 32 bits of ARG0 times 8 fit 35 bits. -/
theorem brInitSetsTheCursor : Obligations.BrInitSetsTheCursor := by
  intro s hr
  have harg := s.arg0.isLt
  refine ⟨?_, by omega⟩
  rw [exec_brInit, command_of_ready hr.1 hr.2, complete_setBrPos_issue]
  rfl

/-- Settles O16: the field read at the cursor, within `8·IN_LEN` or past it. -/
theorem brReadUintReadsTheField : Obligations.BrReadUintReadsTheField := by
  intro s w hr hw
  rw [exec_brReadUint, if_pos hw]
  refine ⟨fun ⟨hpos, hp⟩ => command_readField_of_lacks hr hpos hp, fun hp bits hl hbits => ⟨?_, ?_⟩⟩
  · exact command_readField_of_fieldIs hr hl hbits (by omega)
  · exact hl ▸ fieldValue_lt bits

/-- Settles O18: both commands are a field read, or an illegal word, which leaves the cursor too. -/
theorem failedReadKeepsTheCursor : Obligations.FailedReadKeepsTheCursor := by
  rintro s t i (rfl | ⟨w, rfl⟩) h he
  · rw [exec_brReadBool] at h
    exact command_readField_failed h (by simp [he])
  · rw [exec_brReadUint] at h
    split at h
    · exact command_readField_failed h (by simp [he])
    · obtain ⟨-, rfl⟩ := illegalCommand_eq_next.1 h
      exact ⟨rfl, rfl⟩

/-- Settles O19: a field read of width 1, whose value is the bit. -/
theorem brReadBoolReadsOneBit : Obligations.BrReadBoolReadsOneBit := by
  intro s hr
  rw [exec_brReadBool]
  refine ⟨fun hp => command_readField_of_lacks hr Nat.one_pos hp, fun hp b hb => ?_⟩
  have hvalue : BitVec.ofNat 32 (fieldValue [b]) = if b then 1 else 0 := by cases b <;> rfl
  rw [← hvalue]
  exact command_readField_of_fieldIs hr rfl (fieldIs_singleton hb) (.inr hp)

/-- Settles O20: the new cursor is `ceil8` of the old one, which still fits 35 bits. -/
theorem brByteAlignRoundsUp : Obligations.BrByteAlignRoundsUp := by
  intro s hr hmax
  have hceil : ceil8 s.brPos.toNat ≤ 8 * (2 ^ 32 - 1) := ceil8_le hmax
  have hfits : (BitVec.ofNat 35 (ceil8 s.brPos.toNat)).toNat = ceil8 s.brPos.toNat := by
    rw [BitVec.toNat_ofNat, Nat.mod_eq_of_lt (by omega)]
  refine ⟨BitVec.ofNat 35 (ceil8 s.brPos.toNat), ?_, ?_⟩
  · rw [exec_brByteAlign, command_of_ready hr.1 hr.2, issue_brPos, complete_setBrPos_issue]
    rfl
  · rw [hfits]
    exact ⟨ceil8_mod _, le_ceil8 _, ceil8_lt _⟩

/-- Settles O21: the byte index of a 35-bit cursor fits RESULT's 32 bits. -/
theorem brBytePosReportsTheByte : Obligations.BrBytePosReportsTheByte := by
  intro s hr
  have hpos := s.brPos.isLt
  rw [exec_brBytePos, command_of_ready hr.1 hr.2, issue_brPos, complete_issue, raise_issue]
  refine ⟨fun h => if_neg (by simpa [bitAligned] using h), fun h => ⟨_, if_pos (decide_eq_true h), ?_⟩⟩
  rw [BitVec.toNat_ofNat, Nat.mod_eq_of_lt (by omega)]

end Sys2Proof.Machine
end

section
/-! SUPPORT. The BitWriter commands in states where they may run (41_bitwriter.md R81 to R89): an issued command that
replaces the writer's bits, in the terms of the statements, and the length of a padded writer. -/

namespace Sys2Proof.Machine

theorem complete_bwBits_issue (w r : Word) (bits : List Bool) (s : State) :
    complete r { issue w s with bwBits := bits } = { commandDone w r s with bwBits := bits } := rfl

/-- A padded writer has whole bytes (41_bitwriter.md R85). -/
theorem twPad_length_mod (tw : List Bool) : (twPad tw).length % 8 = 0 := by
  rw [twPad_length, ceil8_mod]

theorem padBits_length_lt (n : Nat) : (padBits n).length < 8 := by
  have hlt := ceil8_lt n
  rw [padBits_length]
  omega

/-- Within the legal capacities the writer's length fits RESULT (41_bitwriter.md R89). -/
theorem toNat_ofNat_bwLen {s : State} (hc : s.cfg.legal = true) (hl : s.bwBits.length ≤ 8 * s.cfg.outCap) :
    (BitVec.ofNat 32 s.bwBits.length).toNat = s.bwBits.length := by
  obtain ⟨-, -, -, hout⟩ := Config.legal_bounds hc
  rw [BitVec.toNat_ofNat, Nat.mod_eq_of_lt (by omega)]

/-! ### The statements -/

/-- Settles O24: the three ends of a field write, in the order R82 checks them. -/
theorem bwWriteUintAppendsTheField : Obligations.BwWriteUintAppendsTheField := by
  intro s w hr hw
  rw [exec_bwWriteUint, if_pos hw, command_of_ready hr.1 hr.2, writeField_eq_next]
  split_ifs with hwide hfull
  · exact .inl ⟨hwide, (raise_issue ..).symm⟩
  · exact .inr (.inl ⟨Nat.not_le.1 hwide, hfull, (raise_issue ..).symm⟩)
  · refine .inr (.inr ⟨Nat.not_le.1 hwide, Nat.not_lt.1 hfull, ?_⟩)
    rw [complete_bwBits_issue, twWrite, valBits_eq_fieldBits]
    rfl

/-- Settles O25: the bits appended are `padBits`, as many as `ceil8` adds to the length. -/
theorem bwPadCompletesTheByte : Obligations.BwPadCompletesTheByte := by
  intro s hr
  refine ⟨(padBits s.bwBits.length).length, ?_, ?_, padBits_length_lt _⟩
  · rw [exec_bwPad, command_of_ready hr.1 hr.2, complete_bwBits_issue, padBits_length]
    rfl
  · rw [← List.length_append]
    exact twPad_length_mod s.bwBits

/-- Settles O23: the body empties the writer of the issued state. -/
theorem bwInitEmptiesTheWriter : Obligations.BwInitEmptiesTheWriter := by
  intro s hr
  rw [exec_bwInit, command_of_ready hr.1 hr.2, complete_bwBits_issue]
  rfl

/-- Settles O27: off a byte boundary the body raises before it packs a byte. -/
theorem bwToBytesNeedsWholeBytes : Obligations.BwToBytesNeedsWholeBytes := by
  intro s hr hpart
  rw [exec_bwToBytes, command_of_ready hr.1 hr.2, issue_bwBits, raise_issue]
  exact if_neg (by simpa [bitAligned] using hpart)

/-- Settles O28: RESULT is `bw_len`, which fits 32 bits. -/
theorem bwBitLenReturnsTheLength : Obligations.BwBitLenReturnsTheLength := by
  intro s hr hc hl
  refine ⟨BitVec.ofNat 32 s.bwBits.length, ?_, toNat_ofNat_bwLen hc hl⟩
  rw [exec_bwBitLen, command_of_ready hr.1 hr.2, issue_bwBits, complete_issue]
  rfl

end Sys2Proof.Machine
end

section
/-! SUPPORT. Where the bits of a stream item run out: the reads at which a parse stops, and the DECODE step that ends
with MALFORMED_STREAM there (42_decoder.md R105). -/

namespace Sys2Proof.Machine

/-! ### Reads within `IN_LEN` -/

/-- A field within `IN_LEN` whose bits have all been written reads as some value (40_bitreader.md R72). -/
theorem inReader_ok_of_written {s : State} {p w : Nat} (h : ∀ i, i < w → (inBit s (p + i)).isSome = true)
    (hp : p + w ≤ 8 * s.inLen.toNat) : ∃ v, inReader s p w = .ok v (p + w) := by
  obtain ⟨bits, hl, hbits⟩ := fieldIs_of_written h
  exact ⟨_, inReader_of_fieldIs hl hbits (.inr hp)⟩

/-- A known bit within `IN_LEN` reads as 1 or 0. -/
theorem inReader_of_inBit {s : State} {p : Nat} {b : Bool} (hb : inBit s p = some b)
    (hp : p + 1 ≤ 8 * s.inLen.toNat) : inReader s p 1 = .ok b.toNat (p + 1) := by
  have hvalue : bitsVal [b] = b.toNat := by cases b <;> rfl
  rw [inReader_of_fieldIs (w := 1) rfl (fieldIs_singleton hb) (.inr hp), hvalue]

/-! ### The reads at which a parse stops -/

/-- A header lacks bits at its first field, or at its second once the first is read (42_decoder.md R98). -/
theorem parseHeader_eq_lacks {rd : FieldReader} {pos n : Nat} :
    parseHeader rd pos = .lacks n ↔ rd pos 4 = .lacks n ∨ ∃ csw p1, rd pos 4 = .ok csw p1 ∧ rd p1 4 = .lacks n := by
  simp [parseHeader, FieldRead.andThen_eq_lacks]

/-- A token lacks bits at its opcode; after opcode 0 at the distance, or at the raw length once the distance is read;
after opcode 1 at the literal's byte (42_decoder.md R99). -/
theorem parseToken_eq_lacks {rd : FieldReader} {csw clw : Nibble} {pos n : Nat} :
    parseToken rd csw clw pos = .lacks n ↔ rd pos 1 = .lacks n ∨ ∃ opcode p1, rd pos 1 = .ok opcode p1 ∧
      ((opcode = 0 ∧ (rd p1 csw.toNat = .lacks n ∨
          ∃ distance p2, rd p1 csw.toNat = .ok distance p2 ∧ rd p2 clw.toNat = .lacks n)) ∨
       (opcode ≠ 0 ∧ rd p1 8 = .lacks n)) := by
  unfold parseToken
  rw [FieldRead.andThen_eq_lacks]
  refine or_congr_right <| exists_congr fun opcode => exists_congr fun p1 => and_congr_right fun _ => ?_
  split
  · next h => simp [h, FieldRead.andThen_eq_lacks]
  · next h => simp [h, FieldRead.andThen_eq_lacks]

section
variable {s : State} {r : DecRegs} {n : Nat}

/-! ### The failing step -/

theorem raiseDecode_setBrPos (e : ErrCode) (pos : Nat) (s : State) :
    raiseDecode e (setBrPos pos s) = decodeFailed e pos [] s := rfl

/-- A running DECODE whose item lacks bits ends with MALFORMED_STREAM, the cursor at the failing read (42_decoder.md
R105). -/
theorem step_of_fetchItem_lacks (hr : s.engine = .decoding r) (hh : s.host.head? ≠ some .reset)
    (hf : fetchItem r s = some (.lacks n)) : ∃ m, step s = .next (decodeFailed .malformedStream n m s) := by
  have hi : engineIdle s = false := by simp [engineIdle, hr]
  have hstep : engineStep s = decoderStep r s := by simp [engineStep, hr]
  refine ⟨[], ?_⟩
  rw [step_of_running hi hh, hstep, decoderStep_eq_next]
  exact .inr (.inr ⟨n, hf, (raiseDecode_setBrPos ..).symm⟩)

theorem step_of_parseHeader_lacks (hr : s.engine = .decoding r) (hh : s.host.head? ≠ some .reset)
    (hp : r.phase = .readHeader) (h : parseHeader (inReader s) s.brPos.toNat = .lacks n) :
    ∃ m, step s = .next (decodeFailed .malformedStream n m s) :=
  step_of_fetchItem_lacks hr hh (by simp [fetchItem, hp, h])

theorem step_of_parseToken_lacks (hr : s.engine = .decoding r) (hh : s.host.head? ≠ some .reset)
    (hp : r.phase = .tokenLoop) (h : parseToken (inReader s) r.csw r.clw s.brPos.toNat = .lacks n) :
    ∃ m, step s = .next (decodeFailed .malformedStream n m s) :=
  step_of_fetchItem_lacks hr hh (by simp [fetchItem, hp, h])

end

/-- Settles O38: in each clause the reads before the failing one answer, so the parse stops at that one. -/
theorem truncatedStreamIsMalformed : Obligations.TruncatedStreamIsMalformed := by
  rintro s r p N hr hh rfl rfl
  refine ⟨fun hp hlack => step_of_parseHeader_lacks hr hh hp ?csw,
    fun hp hle hlack hw => step_of_parseHeader_lacks hr hh hp ?clw,
    fun hp hlack => step_of_parseToken_lacks hr hh hp ?opcode,
    fun hp hle hb hlack => step_of_parseToken_lacks hr hh hp ?literal,
    fun hp hle hb hlack => step_of_parseToken_lacks hr hh hp ?distance,
    fun hp hle hb hw hlack => step_of_parseToken_lacks hr hh hp ?rawLength⟩
  case csw => exact parseHeader_eq_lacks.2 (.inl (inReader_lacks_of (by decide) hlack))
  case clw =>
    obtain ⟨csw, hcsw⟩ := inReader_ok_of_written hw hle
    exact parseHeader_eq_lacks.2 (.inr ⟨csw, _, hcsw, inReader_lacks_of (by decide) (by omega)⟩)
  case opcode => exact parseToken_eq_lacks.2 (.inl (inReader_lacks_of (by decide) hlack))
  case literal =>
    have hbyte : inReader s (s.brPos.toNat + 1) 8 = .lacks _ := inReader_lacks_of (by decide) (by omega)
    exact parseToken_eq_lacks.2 (.inr ⟨_, _, inReader_of_inBit hb hle, .inr ⟨by decide, hbyte⟩⟩)
  case distance =>
    have hdist : inReader s (s.brPos.toNat + 1) r.csw.toNat = .lacks _ := inReader_lacks_of (by omega) hlack
    exact parseToken_eq_lacks.2 (.inr ⟨_, _, inReader_of_inBit hb hle, .inl ⟨rfl, .inl hdist⟩⟩)
  case rawLength =>
    have hopcode := inReader_of_inBit hb (by omega)
    obtain ⟨d, hdist⟩ := inReader_ok_of_written hw hle
    have hraw : inReader s (s.brPos.toNat + 1 + r.csw.toNat) r.clw.toNat = .lacks _ :=
      inReader_lacks_of (by omega) hlack
    exact parseToken_eq_lacks.2 (.inr ⟨_, _, hopcode, .inl ⟨rfl, .inr ⟨d, _, hdist, hraw⟩⟩⟩)

end Sys2Proof.Machine
end

section
/-! SUPPORT. What ENCODE runs through (43_encoder.md R108 to R118): each trial appends the bits of the greedy tokens, the
best of the ended trials is the one the sweep selects among them, and the command is the finish of the selected trial. -/

namespace Sys2Proof.Machine

/-! ### A trial's bits -/

section
variable {L : List Byte} {csw clw : Nibble} {cur : Nat}

/-- A field of at most 15 bits is the same from a value and from its 15-bit word. -/
theorem valBits_ofNat15 (w : Nibble) (v : Nat) : valBits w.toNat (BitVec.ofNat 15 v).toNat = valBits w.toNat v := by
  have hw : w.toNat ≤ 15 := by have := w.isLt; omega
  refine valBits_congr ?_
  rw [BitVec.toNat_ofNat, Nat.mod_mod_of_dvd _ (Nat.pow_dvd_pow 2 hw)]

theorem itemBits_hdr (c l : BitVec 4) : itemBits csw clw (.hdr c l) = valBits 4 c.toNat ++ valBits 4 l.toNat := rfl

theorem itemBits_lit (b : BitVec 8) : itemBits csw clw (.lit b) = true :: valBits 8 b.toNat := rfl

theorem itemBits_ref (d r : BitVec 15) :
    itemBits csw clw (.ref d r) = false :: (valBits csw.toNat d.toNat ++ valBits clw.toNat r.toNat) := rfl

theorem itemBits_endStream (r : BitVec 15) :
    itemBits csw clw (.endStream r) = false :: (valBits csw.toNat 0 ++ valBits clw.toNat r.toNat) := rfl

theorem trialHeader_eq (csw clw : Nibble) : trialHeader csw clw = itemBits csw clw (.hdr csw clw) := by
  simp [trialHeader, twWrite, itemBits_hdr]

theorem trialEnd_eq (csw clw : Nibble) (tw : List Bool) :
    trialEnd csw clw tw = twPad (tw ++ itemBits csw clw (.endStream 0)) := by
  simp [trialEnd, twWrite, valBits, itemBits_endStream]

/-- The bits emitted at a position are those of its greedy token, which covers as many bytes (43_encoder.md R114). -/
theorem emitToken_eq (L : List Byte) (csw clw : Nibble) (cur : Nat) (tw : List Bool) :
    emitToken L csw clw cur (searchAt L cur (searchLimitOf csw cur) (maxMatchLenOf clw L.length cur)) tw =
      (tw ++ itemBits csw clw (greedyToken L csw clw cur).1, (greedyToken L csw clw cur).2) := by
  unfold emitToken greedyToken
  dsimp only
  split
  · rw [itemBits_ref, valBits_ofNat15, valBits_ofNat15]
    simp [twWrite, valBits]
  · rw [itemBits_lit, List.getD_eq_getElem?_getD]
    simp [twWrite, valBits]

/-- A greedy token covers at least one byte and none past the input (43_encoder.md R119 (f)). -/
theorem greedyToken_advances (csw clw : Nibble) (hc : cur < L.length) :
    1 ≤ (greedyToken L csw clw cur).2 ∧ cur + (greedyToken L csw clw cur).2 ≤ L.length := by
  have hs := searchAt_le L cur (searchLimitOf csw cur) (maxMatchLenOf clw L.length cur)
  have he := emitToken_advances L csw clw [] (Nat.le_trans hs (Nat.min_le_right ..)) hc
  rwa [emitToken_eq] at he

theorem greedyTokens_succ (fuel : Nat) (hc : cur < L.length) :
    greedyTokens L csw clw (fuel + 1) cur = (greedyToken L csw clw cur).1 ::
      greedyTokens L csw clw fuel (cur + (greedyToken L csw clw cur).2) := by
  rw [greedyTokens, if_pos hc]

theorem greedyTokens_of_length_le (fuel : Nat) (hc : L.length ≤ cur) : greedyTokens L csw clw fuel cur = [] := by
  cases fuel with
  | zero => rfl
  | succ fuel => rw [greedyTokens, if_neg (Nat.not_lt.2 hc)]

/-- A trial in the middle: its position is within the input, and its bits, continued by the bits of the greedy tokens
from that position on, are the bits of the whole trial before its terminator (43_encoder.md R110 to R114). -/
structure TrialRuns (L : List Byte) (e : EncRegs) : Prop where
  within : e.currentIndex.toNat ≤ L.length
  bits : ∃ fuel, L.length ≤ e.currentIndex.toNat + fuel ∧
    e.tw ++ (greedyTokens L e.csw e.clw fuel e.currentIndex.toNat).flatMap (itemBits e.csw e.clw) =
      itemBits e.csw e.clw (.hdr e.csw e.clw) ++
        (greedyTokens L e.csw e.clw L.length 0).flatMap (itemBits e.csw e.clw)

theorem TrialRuns.start (L : List Byte) (t : Nat) (p : Nibble × Nibble) (best : Option BestTrial) :
    TrialRuns L (EncRegs.start t p best) :=
  ⟨Nat.zero_le _, L.length, Nat.le_add_left .., by rw [← trialHeader_eq]; rfl⟩

variable {e : EncRegs}

/-- A position emits the next greedy token (43_encoder.md R111 to R114). -/
theorem TrialRuns.position (h : TrialRuns L e) (hc : e.currentIndex.toNat < L.length) (h32 : L.length < 2 ^ 32) :
    TrialRuns L (encodePosition L e) := by
  obtain ⟨hpos, hle⟩ := greedyToken_advances e.csw e.clw hc
  obtain ⟨fuel, hfuel, hbits⟩ := h.bits
  obtain ⟨f, rfl⟩ : ∃ f, fuel = f + 1 := ⟨fuel - 1, by omega⟩
  have hcur : (encodePosition L e).currentIndex.toNat =
      e.currentIndex.toNat + (greedyToken L e.csw e.clw e.currentIndex.toNat).2 := by
    simp only [encodePosition, emitToken_eq]
    rw [BitVec.toNat_ofNat, Nat.mod_eq_of_lt (by omega)]
  have htw : (encodePosition L e).tw =
      e.tw ++ itemBits e.csw e.clw (greedyToken L e.csw e.clw e.currentIndex.toNat).1 := by
    simp only [encodePosition, emitToken_eq]
  refine ⟨by omega, f, by omega, ?_⟩
  rw [greedyTokens_succ f hc, List.flatMap_cons, ← List.append_assoc] at hbits
  rw [hcur, htw]
  exact hbits

/-- A trial at the end of the input ends as the trial's stream (43_encoder.md R115). -/
theorem TrialRuns.trialEnd_eq_trialStream (h : TrialRuns L e) (hc : L.length ≤ e.currentIndex.toNat) :
    trialEnd e.csw e.clw e.tw = trialStream L (e.csw, e.clw) := by
  obtain ⟨fuel, -, hbits⟩ := h.bits
  rw [greedyTokens_of_length_le fuel hc, List.flatMap_nil, List.append_nil] at hbits
  rw [trialEnd_eq, hbits]
  rfl

end

/-! ### The selected trial -/

section
variable {L : List Byte} {xs : List (Nibble × Nibble)} {k l : Nat} {p q : Nibble × Nibble}

theorem isSelected_singleton (L : List Byte) (p : Nibble × Nibble) : IsSelected L [p] 0 p := by
  refine ⟨rfl, fun k' p' h => ?_⟩
  obtain ⟨rfl, rfl⟩ : k' = 0 ∧ p = p' := by simpa [List.getElem?_singleton] using h
  exact ⟨Nat.le_refl _, fun h0 => absurd h0 (Nat.lt_irrefl _)⟩

/-- An entry of a sweep with one more pair is an entry of the sweep or that pair. -/
theorem getElem?_append_singleton_cases (h : (xs ++ [p])[k]? = some q) : xs[k]? = some q ∨ (k = xs.length ∧ q = p) := by
  by_cases hk : k < xs.length
  · exact .inl (by rwa [List.getElem?_append_left hk] at h)
  · rw [List.getElem?_append_right (Nat.not_lt.1 hk), List.getElem?_singleton, Option.ite_none_right_eq_some] at h
    obtain ⟨h0, hp⟩ := h
    exact .inr ⟨by omega, (Option.some.inj hp).symm⟩

/-- A strictly smaller trial after the others is selected (43_encoder.md R116). -/
theorem IsSelected.append_smaller (h : IsSelected L xs k q) (hlt : trialSize L p < trialSize L q) :
    IsSelected L (xs ++ [p]) xs.length p := by
  refine ⟨by simp, fun k' p' h' => ?_⟩
  obtain hold | ⟨rfl, rfl⟩ := getElem?_append_singleton_cases h'
  · have hq := (h.2 k' p' hold).1
    exact ⟨by omega, fun _ => by omega⟩
  · exact ⟨Nat.le_refl _, fun hk' => absurd hk' (Nat.lt_irrefl _)⟩

/-- A trial after the others that is not strictly smaller leaves the selection (43_encoder.md R116). -/
theorem IsSelected.append_not_smaller (h : IsSelected L xs k q) (hle : trialSize L q ≤ trialSize L p) :
    IsSelected L (xs ++ [p]) k q := by
  obtain ⟨hk, -⟩ := List.getElem?_eq_some_iff.1 h.1
  refine ⟨by rw [List.getElem?_append_left hk, h.1], fun k' p' h' => ?_⟩
  obtain hold | ⟨rfl, rfl⟩ := getElem?_append_singleton_cases h'
  · exact h.2 k' p' hold
  · exact ⟨hle, fun hk' => absurd hk' (Nat.lt_asymm hk)⟩

/-- Two selected trials of a sweep have one size. -/
theorem IsSelected.size_eq (h : IsSelected L xs k p) (h' : IsSelected L xs l q) : trialSize L p = trialSize L q :=
  Nat.le_antisymm (h.2 l q h'.1).1 (h'.2 k p h.1).1

/-- `b` is the trial selected among the pairs `xs`, with its bits and size. -/
structure BestTrial.Selected (L : List Byte) (xs : List (Nibble × Nibble)) (b : BestTrial) : Prop where
  selected : IsSelected L xs b.t (b.csw, b.clw)
  tw : b.tw = trialStream L (b.csw, b.clw)
  size : b.size = trialSize L (b.csw, b.clw)

end

/-! ### ENCODE's run -/

section
variable {L : List Byte} {sweep : List (Nibble × Nibble)} {e : EncRegs}

/-- The encoder's registers in the middle of ENCODE: trial `t` of the sweep runs, and `best` is the trial selected among
those before it (43_encoder.md R109, R116). -/
structure SweepRuns (L : List Byte) (sweep : List (Nibble × Nibble)) (e : EncRegs) : Prop where
  trial : TrialRuns L e
  pair : sweep[e.t]? = some (e.csw, e.clw)
  best : (e.best = none ∧ e.t = 0) ∨ ∃ b, e.best = some b ∧ b.Selected L (sweep.take e.t)

/-- A trial's end selects among the trials up to it (43_encoder.md R116). -/
theorem SweepRuns.bestAfter_selected (h : SweepRuns L sweep e) (hc : L.length ≤ e.currentIndex.toNat) :
    (bestAfter e).Selected L (sweep.take (e.t + 1)) := by
  obtain ⟨ht, hp⟩ := List.getElem?_eq_some_iff.1 h.pair
  have hlen : (sweep.take e.t).length = e.t := by rw [List.length_take]; omega
  rw [List.take_succ_eq_append_getElem ht, hp]
  unfold bestAfter
  rw [h.trial.trialEnd_eq_trialStream hc]
  obtain ⟨hb, h0⟩ | ⟨b, hb, hsel⟩ := h.best
  · rw [hb, h0]
    exact ⟨isSelected_singleton L _, rfl, rfl⟩
  · rw [hb]
    dsimp only
    split
    · next hlt =>
      have hnew := hsel.selected.append_smaller (p := (e.csw, e.clw)) (hsel.size ▸ hlt)
      rw [hlen] at hnew
      exact ⟨hnew, rfl, rfl⟩
    · next hge =>
      have hle : trialSize L (b.csw, b.clw) ≤ trialSize L (e.csw, e.clw) := hsel.size ▸ Nat.not_lt.1 hge
      exact ⟨hsel.selected.append_not_smaller hle, hsel.tw, hsel.size⟩

/-- The best trial fits `OUT` where it fits the limit, so ENCODE's end always answers (43_encoder.md R117, R118). -/
theorem finishEncode_total {b : BestTrial} (hb : b.Selected L sweep) (s : State) : ∃ t, finishEncode b s = .next t := by
  by_cases hl : encodeLimit s < b.size
  · exact ⟨_, finishEncode_eq_next.2 (.inl ⟨hl, rfl⟩)⟩
  · have hcap : encodeLimit s ≤ s.cfg.outCap := by
      unfold encodeLimit
      split
      · exact Nat.le_refl _
      · exact Nat.min_le_right ..
    have hfit : (twBytes b.tw).length = b.size := by rw [twBytes, packBytes_length_div, hb.tw, hb.size, trialSize]
    exact ⟨_, finishEncode_eq_next.2 (.inr ⟨Nat.not_lt.1 hl, by omega, rfl⟩)⟩

/-- `u` is reached by ENCODE of `L` from the issued state `s`: the sweep runs, or the finish of the trial selected in the
whole sweep has answered `u`. -/
def EncodeReaches (L : List Byte) (s u : State) : Prop :=
  (∃ e, u = setEnc e s ∧ SweepRuns L s.cfg.sweep e) ∨
  (engineIdle u = true ∧ ∃ b e, b.Selected L s.cfg.sweep ∧ finishEncode b (setEnc e s) = .next u)

theorem encodeReaches_begin (L : List Byte) (s : State) : EncodeReaches L s (beginEncode s) :=
  .inl ⟨_, rfl, TrialRuns.start .., rfl, .inl ⟨rfl, rfl⟩⟩

theorem engineIdle_of_finishEncode {b : BestTrial} {s t : State} (h : finishEncode b s = .next t) :
    engineIdle t = true := by
  obtain ⟨-, rfl⟩ | ⟨-, -, rfl⟩ := finishEncode_eq_next.1 h <;> rfl

/-- Every engine step of ENCODE of a written input answers a state ENCODE reaches (43_encoder.md R108, R109). -/
theorem EncodeReaches.step {s u : State} (hin : InputIs s L) (h : EncodeReaches L s u) (hi : engineIdle u = false) :
    ∃ v, engineStep u = .next v ∧ EncodeReaches L s v := by
  obtain ⟨e, rfl, hrun⟩ | ⟨hidle, -⟩ := h
  swap
  · exact absurd hidle (by simp [hi])
  have hL : inputBytes (setEnc e s) = some L := inputBytes_of_input hin
  have h32 : L.length < 2 ^ 32 := by rw [hin.1]; exact s.inLen.isLt
  have hstep : engineStep (setEnc e s) = encoderStep e (setEnc e s) := rfl
  rw [hstep]
  by_cases hc : e.currentIndex.toNat < L.length
  · exact ⟨_, encoderStep_eq_next.2 ⟨L, hL, .inl ⟨hc, rfl⟩⟩,
      .inl ⟨_, rfl, hrun.trial.position hc h32, hrun.pair, hrun.best⟩⟩
  have hend := Nat.not_lt.1 hc
  have hbest := hrun.bestAfter_selected hend
  cases hp : s.cfg.sweep[e.t + 1]? with
  | some p =>
    exact ⟨_, encoderStep_eq_next.2 ⟨L, hL, .inr (.inl ⟨hend, p, hp, rfl⟩)⟩,
      .inl ⟨_, rfl, TrialRuns.start .., hp, .inr ⟨_, rfl, hbest⟩⟩⟩
  | none =>
    rw [List.take_of_length_le (List.getElem?_eq_none_iff.1 hp)] at hbest
    obtain ⟨v, hv⟩ := finishEncode_total hbest (setEnc e s)
    exact ⟨v, encoderStep_eq_next.2 ⟨L, hL, .inr (.inr ⟨hend, hp, hv⟩)⟩,
      .inr ⟨engineIdle_of_finishEncode hv, _, e, hbest, hv⟩⟩

/-- ENCODE of a written input is the finish of the trial its sweep selects (43_encoder.md R108). -/
theorem exec_encode_of_input {s : State} (hr : Ready s) (hin : InputIs s L) :
    ∃ b e t, b.Selected L s.cfg.sweep ∧ finishEncode b (setEnc e (issue 0x0000000C s)) = .next t ∧
      exec .encode s = .next t := by
  obtain ⟨t, hrun, hreach⟩ := runEngine_total (n := encodeBound (issue 0x0000000C s))
    (fun u hu hi => EncodeReaches.step (s := issue 0x0000000C s) hin hu hi) (encodeReaches_begin L _)
  obtain ⟨-, hidle⟩ := encodeRun_end hrun
  have hexec : exec .encode s = .next t := by
    rw [exec_encode, command_of_ready hr.1 hr.2]
    exact hrun
  obtain ⟨e, rfl, -⟩ | ⟨-, b, e, hb, hfin⟩ := hreach
  · cases hidle
  · exact ⟨b, e, t, hb, hfin, hexec⟩

end

/-! ### The statement -/

/-- Settles O49: ENCODE is the finish of a selected trial, all selected trials have one size, and over the limit the
finish raises from the issued state with nothing written but OUT_LEN. -/
theorem encodeReportsTheExactOverflow : Obligations.EncodeReportsTheExactOverflow := by
  rintro s L k p limit hr - hin hsel rfl hover
  obtain ⟨b, e, t, hb, hfin, hexec⟩ := exec_encode_of_input hr hin
  have hsize : b.size = trialSize L p := by rw [hb.size, hb.selected.size_eq hsel]
  rw [hexec]
  obtain ⟨-, rfl⟩ | ⟨hfits, -⟩ := finishEncode_eq_next.1 hfin
  · rw [hsize]
    rfl
  · exact absurd hover (Nat.not_lt.2 (hsize ▸ hfits))

end Sys2Proof.Machine
end

section
/-! SUPPORT. The two encodings: a command word decodes to its command, and the fields of a stream item are read back
where they were written (30_encoding.md sections 2, 4 and 5). -/

namespace Sys2Proof.Machine

/-! ### Command words -/

section
variable (op : BitVec 4) (width : BitVec 6)

theorem commandOp_commandWordOf : commandOp (commandWordOf op width) = op := by
  have hop := op.isLt
  apply BitVec.eq_of_toNat_eq
  rw [commandOp_toNat, Laws.FieldLayout.commandWordOf_toNat]
  omega

theorem commandWidth_commandWordOf : commandWidth (commandWordOf op width) = width := by
  have hop := op.isLt
  have hwidth := width.isLt
  apply BitVec.eq_of_toNat_eq
  rw [commandWidth_toNat, Laws.FieldLayout.commandWordOf_toNat]
  omega

theorem commandReserved_commandWordOf : commandReserved (commandWordOf op width) = 0 := by
  have hop := op.isLt
  have hwidth := width.isLt
  apply BitVec.eq_of_toNat_eq
  rw [commandReserved_toNat, Laws.FieldLayout.commandWordOf_toNat]
  exact Nat.div_eq_of_lt (by omega)

end

/-- A legal WIDTH is the operand of the command that has one (30_encoding.md R68 (c)). -/
theorem commandWithWidth_commandWordOf (op : BitVec 4) {width : BitVec 6} (i : BitVec 6 → Instr)
    (h : width.toNat ≤ 32) : commandWithWidth (commandWordOf op width) i = .ok (i width) := by
  rw [commandWithWidth, commandWidth_commandWordOf, if_pos h]

/-- The two rows of R67's table with WIDTH. -/
theorem decodeCommand_brReadUint {width : BitVec 6} (h : width.toNat ≤ 32) :
    decodeCommand (commandWordOf 0x2 width) = .ok (.brReadUint width) := by
  rw [decodeCommand, commandReserved_commandWordOf, commandOp_commandWordOf]
  exact commandWithWidth_commandWordOf 0x2 .brReadUint h

theorem decodeCommand_bwWriteUint {width : BitVec 6} (h : width.toNat ≤ 32) :
    decodeCommand (commandWordOf 0x7 width) = .ok (.bwWriteUint width) := by
  rw [decodeCommand, commandReserved_commandWordOf, commandOp_commandWordOf]
  exact commandWithWidth_commandWordOf 0x7 .bwWriteUint h

/-- Settles O2: a command without WIDTH has one word; one with WIDTH is read back by its row of R67's table. -/
theorem commandDecodesItsEncoding : Obligations.CommandDecodesItsEncoding := by
  intro csw clw i w hwf he
  cases i with
  | hdr | lit | ref | endStream => cases he
  | brReadUint v => cases he; exact decodeCommand_brReadUint (of_decide_eq_true hwf)
  | bwWriteUint v => cases he; exact decodeCommand_bwWriteUint (of_decide_eq_true hwf)
  | brInit | brReadBool | brByteAlign | brBytePos | bwInit | bwPad | bwToBytes | bwBitLen | decode | encode =>
    cases he
    rfl

/-- A command word encodes no stream item. -/
theorem isStreamItem_of_encode_word {csw clw : Nibble} {i : Instr} {w : Word} (h : encode csw clw i = .word w) :
    i.isStreamItem = false := by
  cases i with
  | hdr | lit | ref | endStream => cases h
  | _ => rfl

/-- Settles O4: a word that decodes is the encoding of a well-formed command, and stream items are encoded as bits. -/
theorem legalWordIsItsCommandsEncoding : Obligations.LegalWordIsItsCommandsEncoding := by
  intro csw clw w i h
  obtain ⟨hwf, he⟩ := encode_of_decodeCommand csw clw h
  exact ⟨isStreamItem_of_encode_word he, hwf, he⟩

/-! ### Stream items -/

/-- The reader reads every field of `bits`, which stand at `p`, as the value written (20_memory.md R41, R42). -/
def ReadsFields (rd : FieldReader) (p : Nat) (bits : List Bool) : Prop :=
  ∀ (before after : List Bool) (v w : Nat), bits = before ++ (valBits w v ++ after) → v < 2 ^ w →
    rd (p + before.length) w = .ok v (p + before.length + w)

theorem listReader_readsFields (before bits after : List Bool) :
    ReadsFields (listReader (before ++ bits ++ after)) before.length bits := by
  rintro a b v w rfl hv
  have hfield : ((before ++ (a ++ (valBits w v ++ b)) ++ after).drop (before.length + a.length)).take w =
      valBits w v := by
    rw [← List.length_append, ← List.append_assoc, ← List.append_assoc, List.append_assoc, List.append_assoc,
      List.drop_left, List.take_left' (valBits_length w v)]
  rw [listReader, if_neg (by simp; omega), hfield, bitsVal_valBits hv]

section
variable {rd : FieldReader} {csw clw : Nibble} {p : Nat}

/-- HDR (30_encoding.md R58). -/
theorem parseHeader_of_readsFields {c l : BitVec 4} (h : ReadsFields rd p (itemBits csw clw (.hdr c l))) :
    parseHeader rd p = .item (.hdr c l) (p + 8) := by
  rw [itemBits_hdr] at h
  have hcsw := h [] (valBits 4 l.toNat) c.toNat 4 rfl c.isLt
  have hclw := h (valBits 4 c.toNat) [] l.toNat 4 (by simp) l.isLt
  rw [valBits_length] at hclw
  exact parseHeader_eq_item.2 ⟨c.toNat, p + 4, l.toNat, hcsw, hclw, by simp⟩

/-- LIT (30_encoding.md R60). -/
theorem parseToken_lit_of_readsFields {b : BitVec 8} (h : ReadsFields rd p (itemBits csw clw (.lit b))) :
    parseToken rd csw clw p = .item (.lit b) (p + 9) := by
  rw [itemBits_lit] at h
  have hopcode := h [] (valBits 8 b.toNat) 1 1 (by simp [valBits]) (by decide)
  have hbyte := h [true] [] b.toNat 8 (by simp) b.isLt
  exact parseToken_eq_item.2 ⟨1, p + 1, hopcode, .inr ⟨by decide, b.toNat, hbyte, by simp⟩⟩

/-- An opcode-0 token, its fields read in full before the distance is examined (30_encoding.md R61, R62). -/
theorem parseToken_opcodeZero_of_readsFields {d raw : Nat} (hd : d < 2 ^ csw.toNat) (hraw : raw < 2 ^ clw.toNat)
    (h : ReadsFields rd p (false :: (valBits csw.toNat d ++ valBits clw.toNat raw))) :
    parseToken rd csw clw p = .item (opcodeZeroItem d raw) (p + (1 + csw.toNat + clw.toNat)) := by
  have hopcode := h [] (valBits csw.toNat d ++ valBits clw.toNat raw) 0 1 (by simp [valBits]) (by decide)
  have hdist := h [false] (valBits clw.toNat raw) d csw.toNat (by simp) hd
  have hlen := h (false :: valBits csw.toNat d) [] raw clw.toNat (by simp) hraw
  rw [List.length_cons, valBits_length, Nat.add_comm csw.toNat 1, ← Nat.add_assoc] at hlen
  rw [← Nat.add_assoc, ← Nat.add_assoc]
  exact parseToken_eq_item.2 ⟨0, p + 1, hopcode, .inl ⟨rfl, d, p + 1 + csw.toNat, raw, hdist, hlen, rfl⟩⟩

/-- A well-formed token parses to itself and to the cursor after it, whichever reader reads its fields (30_encoding.md
R60 to R62, R65). -/
theorem parseToken_of_readsFields {i : Instr} (hwf : i.wellFormed csw clw = true) (hi : i.isStreamItem = true)
    (hne : ∀ c l, i ≠ .hdr c l) (h : ReadsFields rd p (itemBits csw clw i)) :
    parseToken rd csw clw p = .item i (p + itemLength csw clw i) := by
  cases i with
  | hdr c l => exact absurd rfl (hne c l)
  | lit b => exact parseToken_lit_of_readsFields h
  | ref d raw =>
    simp only [Instr.wellFormed, Bool.and_eq_true, decide_eq_true_eq] at hwf
    obtain ⟨⟨hd0, hd⟩, hraw⟩ := hwf
    have hitem : opcodeZeroItem d.toNat raw.toNat = .ref d raw := by
      have hne : d.toNat ≠ 0 := fun h => hd0 (BitVec.eq_of_toNat_eq h)
      simp [opcodeZeroItem, hne]
    rw [← hitem, opcodeZeroItem_length]
    exact parseToken_opcodeZero_of_readsFields hd hraw h
  | endStream raw =>
    have hitem : opcodeZeroItem 0 raw.toNat = .endStream raw := by simp [opcodeZeroItem]
    rw [← hitem, opcodeZeroItem_length]
    exact parseToken_opcodeZero_of_readsFields (Nat.two_pow_pos _) (of_decide_eq_true hwf) h
  | _ => cases hi

end

/-- Settles O3: the bit sequence's reader reads the fields of the item where it stands, and the parse reads those. -/
theorem streamItemDecodesItsEncoding : Obligations.StreamItemDecodesItsEncoding := by
  intro csw clw i before after hwf hi
  have hreads := listReader_readsFields before (itemBits csw clw i) after
  split_ifs with hhdr
  · obtain ⟨c, l, rfl⟩ := hhdr
    exact parseHeader_of_readsFields hreads
  · exact parseToken_of_readsFields hwf hi (fun c l h => hhdr ⟨c, l, h⟩) hreads

/-- Settles O1: the words and bits are evaluated. -/
theorem writtenOutEncodingsDecode : Obligations.WrittenOutEncodingsDecode :=
  ⟨rfl, rfl, rfl, rfl, rfl, rfl, rfl, rfl, rfl, by decide, by decide, by decide, by decide⟩

end Sys2Proof.Machine
end

section
/-! SUPPORT. One step of the machine, by who moves: the host's moves between commands (10_state.md R21 to R29,
20_memory.md R46 to R53), the reset, the engine's step on the item it fetched (42_decoder.md R93). -/

namespace Sys2Proof.Machine

section
variable {s : State} {rest : List HostOp}

/-! ### Host moves between commands -/

/-- With no move pending the idle engine's step is none (70_reset_and_hazards.md R135). -/
theorem step_no_move (hi : engineIdle s = true) (hh : s.host = []) : step s = .next s := by
  rw [step_of_idle hi, hostStep, hh]

theorem step_readReg {offset : BitVec 8} (hi : engineIdle s = true) (hh : s.host = .readReg offset :: rest)
    (ha : offset.toNat % 4 = 0) :
    step s = .next { s with host := rest, hostData := readRegister s offset } := by
  rw [step_of_idle hi, hostStep, hh]
  exact if_pos (decide_eq_true ha)

theorem step_writeReg {offset : BitVec 8} {v : Word} (hi : engineIdle s = true) (hb : s.status.busy = false)
    (hh : s.host = .writeReg offset v :: rest) (ha : offset.toNat % 4 = 0) (h0 : offset ≠ 0) :
    step s = .next (writeRegister offset v { s with host := rest }) := by
  rw [step_of_idle hi, hostStep, hh]
  dsimp only
  rw [if_neg h0]
  exact (if_pos (decide_eq_true ha)).trans (whileIdle_of_not_busy hb)

theorem step_writeIn {i : Nat} {b : Byte} (hi : engineIdle s = true) (hb : s.status.busy = false)
    (hh : s.host = .writeIn i b :: rest) : step s = hostWriteIn i b { s with host := rest } := by
  rw [step_of_idle hi, hostStep, hh]
  exact whileIdle_of_not_busy hb

/-- A reset is taken at once, in the middle of a command too (70_reset_and_hazards.md R134). -/
theorem step_reset (hh : s.host = .reset :: rest) : step s = .next (resetEvent { s with host := rest }) := by
  have hp : resetPending s = true := by simp [resetPending, hh]
  rw [step, hp, Bool.or_true, if_pos rfl, hostStep, hh]
  rfl

/-! ### What the registers hold -/

/-- Fields put side by side in a word. -/
theorem append_toNat {n w : Nat} (x : BitVec n) (y : BitVec w) : (x ++ y).toNat = x.toNat * 2 ^ w + y.toNat := by
  rw [BitVec.toNat_append, ← Nat.shiftLeft_add_eq_or_of_lt y.isLt, Nat.shiftLeft_eq]

/-- The STATUS word is its fields, each at its place (10_state.md R24). -/
theorem Status.word_toNat (st : Status) :
    st.word.toNat = st.busy.toNat + 2 * st.done.toNat + 4 * st.err.toNat + 16 * st.errcode.code.toNat := by
  simp only [Status.word, append_toNat, BitVec.toNat_ofBool, BitVec.toNat_ofNat]
  omega

/-- The HDR word (10_state.md R26). -/
theorem hdrWord_toNat (csw clw : Nibble) : (hdrWord csw clw).toNat = 16 * csw.toNat + clw.toNat := by
  simp only [hdrWord, append_toNat, BitVec.toNat_ofNat]
  omega

/-- Offsets from 0x1C on are unmapped (10_state.md R21). -/
theorem readRegister_unmapped {offset : BitVec 8} (h : 0x1C ≤ offset.toNat) : readRegister s offset = 0 := by
  unfold readRegister
  split
  case h_8 => rfl
  all_goals omega

/-- Of the registers other than CMD a write changes ARG0 and IN_LEN only (10_state.md R23 to R28). -/
theorem writeRegister_eq (offset : BitVec 8) (v : Word) :
    writeRegister offset v s =
      if offset = 0x04 then { s with arg0 := v } else if offset = 0x14 then { s with inLen := v } else s := by
  by_cases h1 : offset = 0x04
  · subst h1; rfl
  by_cases h2 : offset = 0x14
  · subst h2; rfl
  rw [if_neg h1, if_neg h2]
  unfold writeRegister
  split
  · next h => exact absurd (BitVec.eq_of_toNat_eq h) h1
  · next h => exact absurd (BitVec.eq_of_toNat_eq h) h2
  · rfl

/-! ### Commands as the shared lifecycle -/

theorem encode_word_of_command (csw clw : Nibble) {i : Instr} (h : i.isStreamItem = false) :
    ∃ w, encode csw clw i = .word w := by
  cases i with
  | hdr | lit | ref | endStream => cases h
  | _ => exact ⟨_, rfl⟩

/-- A command is the shared lifecycle around its body, or, with WIDTH above 32, an illegal word (30_encoding.md R67,
R68); its own word goes to CMD. -/
theorem exec_command_or_illegal {csw clw : Nibble} {i : Instr} {w : Word} (he : encode csw clw i = .word w) :
    (∃ body, ∀ s, exec i s = command w body s) ∨ ∀ s, exec i s = illegalCommand w s := by
  by_cases hwf : i.wellFormed csw clw = true
  · exact .inl (exec_eq_command hwf he)
  · cases i with
    | hdr | lit | ref | endStream => cases he
    | brReadUint v => cases he; exact .inr fun s => if_neg fun hv => hwf (decide_eq_true hv)
    | bwWriteUint v => cases he; exact .inr fun s => if_neg fun hv => hwf (decide_eq_true hv)
    | _ => exact absurd rfl hwf

/-! ### The engine's step -/

variable {r : DecRegs} {i : Instr} {n : Nat}

/-- A stream item means the same to the dispatch and to the decoder. -/
theorem exec_eq_execItem (h : i.isStreamItem = true) (s : State) : exec i s = execItem i s := by
  cases i with
  | hdr | lit | ref | endStream => rfl
  | _ => cases h

theorem decoderStep_of_item (hf : fetchItem r s = some (.item i n)) : decoderStep r s = execItem i s := by
  rw [decoderStep, hf]

theorem engineStep_of_decoding (hr : s.engine = .decoding r) : engineStep s = decoderStep r s := by
  rw [engineStep, hr]

theorem engineIdle_of_decoding (hr : s.engine = .decoding r) : engineIdle s = false := by
  rw [engineIdle, hr]

end

/-! ### The statements -/

/-- Settles O5: the word written decodes, and a CMD write runs the command it decodes to. -/
theorem stepRunsTheWrittenCommand : Obligations.StepRunsTheWrittenCommand := by
  intro s w rest i hi hh hd
  rw [step_writeCmd hi hh, commandWrite, hd]

/-- Settles O6: the engine's step fetches the item, and a fetched item is a stream item of its own length. -/
theorem stepRunsTheFetchedItem : Obligations.StepRunsTheFetchedItem := by
  intro s r i next hr hh hf
  obtain ⟨hitem, hnext, -⟩ := fetchItem_item hf
  refine ⟨?_, hitem, hnext⟩
  rw [step_of_running (engineIdle_of_decoding hr) hh, engineStep_of_decoding hr, decoderStep_of_item hf,
    exec_eq_execItem hitem]

/-- Settles O7. -/
theorem idleEngineStays : Obligations.IdleEngineStays := fun _ hi hh => step_no_move hi hh

/-- Settles O9: a pending reset is taken whatever the engine does, and what it leaves is the reset state. -/
theorem resetEventAbandonsEverything : Obligations.ResetEventAbandonsEverything := by
  intro s rest hh
  have hstatus : Status.reset.word = 0 := by decide
  exact ⟨_, step_reset hh, rfl, rfl, hstatus, rfl, rfl, rfl, rfl, rfl, rfl, rfl, rfl, fun _ => rfl, fun _ => rfl,
    rfl, rfl⟩

/-- Settles O10: the step returns `readRegister`'s word, which each clause evaluates at its offset. -/
theorem hostReadsTheRegisterMap : Obligations.HostReadsTheRegisterMap := by
  intro s offset rest hi hh ha
  refine ⟨_, step_readReg hi hh ha, ?_, ?_, ?_, ?_, ?_, ?_, ?_, readRegister_unmapped⟩
  case refine_3 => rintro rfl; exact Status.word_toNat s.status
  case refine_5 => rintro rfl; exact hdrWord_toNat s.hdrCsw s.hdrClw
  all_goals rintro rfl; rfl

/-- Settles O11: an aligned write off CMD is `writeRegister`'s. -/
theorem hostWritesTheRegisterMap : Obligations.HostWritesTheRegisterMap := by
  intro s offset v rest hi hb hh ha h0
  rw [step_writeReg hi hb hh ha h0, writeRegister_eq]

/-- Settles O12: the byte ports between commands, and a memory read after a write. -/
theorem hostBytePorts : Obligations.HostBytePorts := by
  intro s rest hi hb
  refine ⟨fun i b hh hc => ?write, fun i b hh hlt hm => ?read, fun i hh hle => ?past⟩
  case write =>
    refine ⟨memWrite s.inMem i b, ?_, memRead_memWrite_same .., fun a ha => memRead_memWrite_other _ _ ha⟩
    rw [step_writeIn hi hb hh]
    exact if_pos hc
  case read =>
    rw [step_readOut hi hb hh, withOutByte, if_pos hlt, hm]
  case past =>
    rw [step_readOut hi hb hh]
    exact withOutByte_of_outLen_le hle

/-- Settles O14: a command is the shared lifecycle or an illegal word, and both refuse while BUSY = 1. -/
theorem noCommandWhileBusy : Obligations.NoCommandWhileBusy := by
  intro s i hb hi
  obtain ⟨w, he⟩ := encode_word_of_command 0 0 hi
  obtain ⟨body, hexec⟩ | hexec := exec_command_or_illegal he
  · exact (hexec s).trans (if_pos hb)
  · exact (hexec s).trans (if_pos hb)

end Sys2Proof.Machine
end

section
/-! SUPPORT. Laws of the reader and writer commands beyond one command's effect: reads put together, fields read back
from packed bytes, whole bytes to `OUT`, and commands that repeated change nothing (40_bitreader.md R73, R80;
41_bitwriter.md R87, R90; 20_memory.md R50). -/

namespace Sys2Proof.Machine

/-! ### Reads -/

/-- Settles O17: the empty field stands at every cursor. -/
theorem zeroWidthReadIsANoOp : Obligations.ZeroWidthReadIsANoOp := by
  intro s hr
  have hpos : BitVec.ofNat 35 (s.brPos.toNat + 0) = s.brPos := BitVec.ofNat_toNat _ _
  rw [exec_brReadUint, if_pos (by decide)]
  refine (command_readField_of_fieldIs hr (w := 0) rfl (fieldIs_nil s _) (.inl rfl)).trans ?_
  rw [hpos]
  rfl

/-- Settles O22: the bits of the two reads are one field, whose value splits at its append. -/
theorem readsSplit : Obligations.ReadsSplit := by
  intro m inLen p w u a b q r _ hw hu
  obtain ⟨hwle, rfl, xs, hxs, rfl⟩ := brRead_eq_ok.1 hw
  obtain ⟨hule, rfl, ys, hys, rfl⟩ := brRead_eq_ok.1 hu
  refine brRead_eq_ok.2 ⟨by omega, by omega, xs ++ ys, streamBits_append hxs hys, ?_⟩
  rw [bitsVal_append, streamBits_length hys]

/-! ### Packed bytes -/

/-- Bit `k` of packed bytes is bit `k` of the sequence (20_memory.md R42). -/
theorem streamBit_memOfList_packBytes {bits : List Bool} {n k : Nat} {b : Bool} (h : bits.length = 8 * n)
    (hb : bits[k]? = some b) : streamBit (memOfList (packBytes bits)) k = .ok b := by
  obtain ⟨hk, -⟩ := List.getElem?_eq_some_iff.1 hb
  have hlen : ((bits.drop (8 * (k / 8))).take 8).length = 8 := by simp; omega
  have hbit := byteBit_packed _ hlen (show k % 8 < 8 by omega)
  rw [List.getElem?_take_of_lt (by omega), List.getElem?_drop, Nat.div_add_mod, hb, Option.some.injEq] at hbit
  rw [streamBit, memRead_memOfList, packBytes_getElem? h (show k / 8 < n by omega), hbit]

/-- Settles O29: the bits read are those at the field's place, which are the field's. -/
theorem writtenFieldReadsBack : Obligations.WrittenFieldReadsBack := by
  intro before after v w hv
  set bits := twPad (before ++ valBits w v ++ after) with hbits
  have hmod : bits.length % 8 = 0 := twPad_length_mod _
  have hwhole : bits.length = 8 * (bits.length / 8) := by omega
  have hfield : bits = before ++ (valBits w v ++ (after ++ padBits (before ++ valBits w v ++ after).length)) := by
    rw [hbits, twPad]; simp only [List.append_assoc]
  have hle : before.length + w ≤ bits.length := by
    rw [hfield]; simp only [List.length_append, valBits_length]; omega
  refine brRead_eq_ok.2 ⟨.inr (by omega), rfl, valBits w v, ?_, (bitsVal_valBits hv).symm⟩
  refine streamBits_eq_ok (valBits_length w v) fun i b hb => streamBit_memOfList_packBytes hwhole ?_
  obtain ⟨hi, -⟩ := List.getElem?_eq_some_iff.1 hb
  rw [hfield, List.getElem?_append_right (Nat.le_add_right ..), Nat.add_sub_cancel_left,
    List.getElem?_append_left hi, hb]

/-- A packed sequence stored at `OUT[0..]`: its bytes by the formula of 20_memory.md R42, the others as before. -/
theorem memRead_memWriteList_twBytes (m : Memory) (bits : List Bool) (k : Nat) :
    memRead (memWriteList m 0 (twBytes bits)) k =
      if k < bits.length / 8 then some (byteOfBits bits k) else memRead m k := by
  rw [memRead_memWriteList, twBytes, packBytes_length_div]
  by_cases hk : k < bits.length / 8
  · rw [if_pos hk, if_pos (by omega), byteOfBits_eq (by omega), packBytes, List.getElem?_map,
      List.getElem?_range (by omega)]
    rfl
  · rw [if_neg hk, if_neg (by omega)]

/-- Settles O26: `putOut` of the packed writer, whose length the capacity bounds. -/
theorem bwToBytesPacksTheWriter : Obligations.BwToBytesPacksTheWriter := by
  intro s hr hc hl hwhole
  obtain ⟨-, -, -, hcap⟩ := Config.legal_bounds hc
  have hlen : (twBytes s.bwBits).length = s.bwBits.length / 8 := packBytes_length_div _
  have hn : (BitVec.ofNat 32 (s.bwBits.length / 8)).toNat = s.bwBits.length / 8 := by
    rw [BitVec.toNat_ofNat, Nat.mod_eq_of_lt (by omega)]
  refine ⟨memWriteList s.outMem 0 (twBytes s.bwBits), BitVec.ofNat 32 (s.bwBits.length / 8), hn, ?_, ?_, ?_⟩
  · have hput := (putOut_eq_next (bs := twBytes s.bwBits) (s := issue (commandWordOf 0x9 0) s)).2
      ⟨show (twBytes s.bwBits).length ≤ s.cfg.outCap by omega, rfl⟩
    have haligned : bitAligned s.bwBits.length = true := decide_eq_true hwhole
    rw [exec_bwToBytes, command_of_ready hr.1 hr.2, issue_bwBits, if_pos haligned, hput, andThen_next, hlen]
    rfl
  · intro k hk
    rw [memRead_memWriteList_twBytes, if_pos (hn ▸ hk)]
  · intro k hk
    rw [memRead_memWriteList_twBytes, if_neg (by omega)]

/-! ### Repeated commands -/

/-- A command whose body repeats from the state it left repeats. -/
theorem command_repeats {w : Word} {body : State → Exec} {s t : State} (h : command w body s = .next t)
    (hbody : body (issue w s) = .next t →
      t.status.busy = false ∧ t.inLen = s.inLen ∧ t.cfg = s.cfg ∧ body (issue w t) = .next t) :
    command w body t = .next t := by
  rw [command_eq_next]
  obtain ⟨-, ⟨hlong, rfl⟩ | ⟨hle, h⟩⟩ := command_eq_next.1 h
  · exact ⟨rfl, .inl ⟨hlong, rfl⟩⟩
  · obtain ⟨hb, hin, hcfg, hrep⟩ := hbody h
    exact ⟨hb, .inr ⟨by rw [hin, hcfg]; exact hle, hrep⟩⟩

/-- A padded writer needs no padding. -/
theorem twPad_twPad (tw : List Bool) : twPad (twPad tw) = twPad tw := by
  rw [twPad, padBits, ceil8_eq_self (twPad_length_mod tw), Nat.sub_self, List.replicate_zero, List.append_nil]

/-- The same bytes stored twice are stored once. -/
theorem memWriteList_memWriteList {m : Memory} (bs : List Byte) (h : Memory.wf m = true) :
    memWriteList (memWriteList m 0 bs) 0 bs = memWriteList m 0 bs := by
  have hwf := memWriteList_wf 0 bs h
  refine memory_ext (memWriteList_wf 0 bs hwf) hwf fun i => ?_
  simp only [memRead_memWriteList]
  split <;> rfl

/-- An aligned cursor within the cursor's bound stays where it is. -/
theorem ceil8_toNat_ofNat_ceil8 {n : Nat} (h : n ≤ 8 * (2 ^ 32 - 1)) :
    ceil8 (BitVec.ofNat 35 (ceil8 n)).toNat = ceil8 n := by
  have hle := ceil8_le h
  rw [BitVec.toNat_ofNat, Nat.mod_eq_of_lt (by omega), ceil8_eq_self (ceil8_mod n)]

/-- Settles O30: each body, run from the state it left, finds the cursor aligned, the writer padded or the bytes
stored. -/
theorem repeatedCommandChangesNothing : Obligations.RepeatedCommandChangesNothing := by
  rintro s t i hinv (rfl | rfl | rfl | rfl | rfl) h
  · rw [exec_brByteAlign] at h ⊢
    refine command_repeats h fun hbody => ?_
    cases hbody
    refine ⟨rfl, rfl, rfl, ?_⟩
    simp only [issue_brPos, complete_brPos, setBrPos_brPos, ceil8_toNat_ofNat_ceil8 hinv.cursorMax]
    rfl
  · rw [exec_bwPad] at h ⊢
    refine command_repeats h fun hbody => ?_
    cases hbody
    refine ⟨rfl, rfl, rfl, ?_⟩
    simp only [issue_bwBits, complete_bwBits, twPad_twPad]
    rfl
  · rw [exec_brBytePos] at h ⊢
    refine command_repeats h fun hbody => ?_
    by_cases ha : bitAligned s.brPos.toNat = true
    · cases (if_pos ha).symm.trans hbody
      exact ⟨rfl, rfl, rfl, if_pos ha⟩
    · cases (if_neg ha).symm.trans hbody
      exact ⟨rfl, rfl, rfl, if_neg ha⟩
  · rw [exec_bwBitLen] at h ⊢
    refine command_repeats h fun hbody => ?_
    cases hbody
    exact ⟨rfl, rfl, rfl, rfl⟩
  · rw [exec_bwToBytes] at h ⊢
    refine command_repeats h fun hbody => ?_
    by_cases ha : bitAligned s.bwBits.length = true
    · obtain ⟨u, hu, hdone⟩ := andThen_eq_next.1 ((if_pos ha).symm.trans hbody)
      obtain ⟨hfit, rfl⟩ := putOut_eq_next.1 hu
      cases hdone
      refine ⟨rfl, rfl, rfl, (if_pos ha).trans (andThen_eq_next.2 ⟨_, putOut_eq_next.2 ⟨hfit, rfl⟩, ?_⟩)⟩
      simp only [issue_outMem, issue_bwBits, complete_outMem, complete_bwBits,
        memWriteList_memWriteList _ hinv.outCanonical]
      rfl
    · cases (if_neg ha).symm.trans hbody
      exact ⟨rfl, rfl, rfl, if_neg ha⟩

end Sys2Proof.Machine
end

section
/-! SUPPORT. The stream items of a running DECODE, and its exit (42_decoder.md R98 to R106). -/

namespace Sys2Proof.Machine

section
variable {s : State} {r : DecRegs} {d raw : BitVec 15}

/-- A back-reference in the token loop is its copy from the latched registers (42_decoder.md R99). -/
theorem exec_ref_of_expandRef {t : State} (hl : InTokenLoop s r) (hd : 1 ≤ d.toNat)
    (h : expandRef (latchFields d raw r)
      (setDec (latchFields d raw r) (advance (1 + r.csw.toNat + r.clw.toNat) s)) = .next t) :
    exec (.ref d raw) s = .next t := by
  have hne : d ≠ 0 := by rintro rfl; exact absurd hd (by decide)
  exact opcodeZero_eq_next.2 ⟨r, hl.1, hl.2, .inr ⟨hne, h⟩⟩

/-- An item that ends DECODE leaves the cursor just past it (60_exceptions.md R123). -/
theorem raise_withholdOutput_advance (e : ErrCode) (n : Nat) (r' : DecRegs) (s : State) :
    raise e 0 (withholdOutput (setDec r' (advance n s))) = decodeFailed e (s.brPos.toNat + n) [] s := rfl

theorem latchFields_length_toNat : (latchFields d raw r).length.toNat = raw.toNat + 3 := copyLength_toNat raw

/-- Between the steps of DECODE the invariant bounds the cursor and ties HDR to the header (42_decoder.md R98). -/
theorem engineInv_decoding (hr : s.engine = .decoding r) : EngineInv s ↔
    8 * r.start.toNat ≤ s.brPos.toNat ∧ s.inLen.toNat ≤ s.cfg.inCap ∧
    (r.phase = .readHeader → s.brPos.toNat = 8 * r.start.toNat ∧ s.outLen = 0) ∧
    (r.phase ≠ .readHeader → s.brPos.toNat ≤ 8 * s.inLen.toNat ∧ s.hdrCsw = r.csw ∧ s.hdrClw = r.clw) := by
  rw [EngineInv, hr]

theorem engineStep_of_done (hr : s.engine = .decoding r) (hp : r.phase = .done) :
    engineStep s = .next (exitDecode r s) := by
  rw [engineStep_of_decoding hr, decoderStep, fetchItem, hp]

end

/-! ### The statements -/

/-- Settles O31: `execHdr` in its phase. -/
theorem hdrBeginsTheTokenLoop : Obligations.HdrBeginsTheTokenLoop :=
  fun _ r _ _ hr hp => execHdr_eq_next.2 ⟨r, hr, hp, rfl⟩

/-- Settles O32: with room the literal is appended, and a memory reads back the byte written. -/
theorem litAppendsItsByte : Obligations.LitAppendsItsByte := by
  intro s r b hl hroom
  exact ⟨memWrite s.outMem s.outLen.toNat b, execLit_eq_next.2 ⟨r, hl.1, hl.2, .inr ⟨hroom, rfl⟩⟩,
    memRead_memWrite_same .., fun a ha => memRead_memWrite_other _ _ ha⟩

/-- Settles O33: within reach and with room the copy completes, byte by byte. -/
theorem refCopiesByteByByte : Obligations.RefCopiesByteByByte := by
  intro s r out d raw hl hc hout hd hreach hroom
  obtain ⟨-, -, -, hcap⟩ := Config.legal_bounds hc
  obtain ⟨hlen, hbytes⟩ := hout
  have hwritten : ∀ a, a < s.outLen.toNat → (memRead s.outMem a).isSome = true := fun a ha => by
    rw [hbytes a (by omega), List.getElem?_eq_getElem (by omega)]; rfl
  obtain ⟨m, hcopy, hnew, hother⟩ := copyBytes_next (d := d.toNat) (n := raw.toNat + 3)
    (s := setDec (latchFields d raw r) (advance (1 + r.csw.toNat + r.clw.toNat) s)) hd (hlen ▸ hreach) hwritten
    (hlen ▸ hroom) (Nat.lt_of_le_of_lt hcap (by decide))
  rw [setDec_outLen, advance_outLen, ← hlen] at hcopy hnew hother
  refine ⟨m, { latchFields d raw r with i := copyLength raw }, ?_, ?_, hnew, hother⟩
  · refine exec_ref_of_expandRef hl hd ?_
    rw [expandRef_eq_next, latchFields_length_toNat]
    exact .inr (.inr ⟨hlen ▸ hreach, hlen ▸ hroom, _, hcopy, rfl⟩)
  · rw [latchFields, copyLength_eq]

/-- Settles O34: the distance is examined first, after the token is consumed. -/
theorem refBeforeTheStartIsAnError : Obligations.RefBeforeTheStartIsAnError := by
  intro s r d raw hl hfar
  refine ⟨[], exec_ref_of_expandRef hl (Nat.one_le_of_lt hfar) ?_⟩
  rw [expandRef_eq_next, raise_withholdOutput_advance]
  exact .inl ⟨hfar, rfl⟩

/-- Settles O35: the capacity is examined before the first byte of either token. -/
theorem tokenPastTheCapacityOverflows : Obligations.TokenPastTheCapacityOverflows := by
  refine ⟨fun s r b hl hfull => ⟨[], ?_⟩, fun s r d raw hl hd hreach hover => ⟨[], ?_⟩⟩
  · refine execLit_eq_next.2 ⟨r, hl.1, hl.2, .inl ⟨hfull, ?_⟩⟩
    rw [raise_withholdOutput_advance]
  · refine exec_ref_of_expandRef hl hd ?_
    rw [expandRef_eq_next, latchFields_length_toNat, raise_withholdOutput_advance]
    exact .inr (.inl ⟨hreach, hover, rfl⟩)

/-- Settles O36: an opcode-0 token with distance 0. -/
theorem endExitsTheLoop : Obligations.EndExitsTheLoop := by
  intro s r raw hl
  exact ⟨{ latchFields 0 raw r with phase := .done }, rfl, rfl, rfl, rfl,
    opcodeZero_eq_next.2 ⟨r, hl.1, hl.2, .inl ⟨rfl, rfl⟩⟩⟩

/-- Settles O37: the invariant keeps the cursor between the start and `8·IN_LEN`, so rounding it up fits 35 bits and its
byte index is not below the start. -/
theorem exitReportsTheCompressedSize : Obligations.ExitReportsTheCompressedSize := by
  intro s r hinv hr hp hh
  obtain ⟨hstart, -, -, hafter⟩ := (engineInv_decoding hr).1 hinv.transients
  obtain ⟨hend, -⟩ := hafter (by simp [hp])
  have hin := s.inLen.isLt
  have hceil := ceil8_le hend
  have hge := le_ceil8 s.brPos.toNat
  have hpos : (BitVec.ofNat 35 (ceil8 s.brPos.toNat)).toNat = ceil8 s.brPos.toNat := by
    rw [BitVec.toNat_ofNat, Nat.mod_eq_of_lt (by omega)]
  refine ⟨BitVec.ofNat 35 (ceil8 s.brPos.toNat), BitVec.ofNat 32 (ceil8 s.brPos.toNat / 8 - r.start.toNat), ?_⟩
  rw [hpos]
  refine ⟨ceil8_mod _, hge, ceil8_lt _, ?_, ?_⟩
  · rw [BitVec.toNat_ofNat, Nat.mod_eq_of_lt (by omega)]
    omega
  · rw [step_of_running (engineIdle_of_decoding hr) hh, engineStep_of_done hr hp]
    rfl

end Sys2Proof.Machine
end

section
/-! SUPPORT. How each command ends, said once for the reader and once for the writer commands; from it, with the ends of
DECODE and ENCODE, what a command changes, its STATUS and its errors (10_state.md R29 to R31, 60_exceptions.md R121,
R123). -/

namespace Sys2Proof.Machine

/-! ### The reader and writer commands -/

/-- The commands of 40_bitreader.md. -/
def IsReaderCommand (i : Instr) : Prop :=
  i = .brInit ∨ (∃ w, i = .brReadUint w) ∨ i = .brReadBool ∨ i = .brByteAlign ∨ i = .brBytePos

/-- The commands of 41_bitwriter.md. -/
def IsWriterCommand (i : Instr) : Prop :=
  i = .bwInit ∨ (∃ w, i = .bwWriteUint w) ∨ i = .bwPad ∨ i = .bwToBytes ∨ i = .bwBitLen

theorem command_cases {i : Instr} (h : i.isStreamItem = false) :
    IsReaderCommand i ∨ IsWriterCommand i ∨ i = .decode ∨ i = .encode := by
  cases i with
  | hdr | lit | ref | endStream => cases h
  | _ => simp [IsReaderCommand, IsWriterCommand]

theorem IsReaderCommand.isStreamItem {i : Instr} (h : IsReaderCommand i) : i.isStreamItem = false := by
  obtain rfl | ⟨v, rfl⟩ | rfl | rfl | rfl := h <;> rfl

theorem IsWriterCommand.isStreamItem {i : Instr} (h : IsWriterCommand i) : i.isStreamItem = false := by
  obtain rfl | ⟨v, rfl⟩ | rfl | rfl | rfl := h <;> rfl

/-- The errors of the reader commands (60_exceptions.md R121). -/
def IsReaderError (i : Instr) (e : ErrCode) : Prop :=
  e = .illegalCommand ∨ (e = .outOfData ∧ (i = .brReadBool ∨ ∃ w, i = .brReadUint w)) ∨
  (e = .notAligned ∧ i = .brBytePos)

/-- The errors of the writer commands (60_exceptions.md R121). -/
def IsWriterError (i : Instr) (e : ErrCode) : Prop :=
  e = .illegalCommand ∨ (e = .notAligned ∧ i = .bwToBytes) ∨ (e = .valueTooWide ∧ ∃ w, i = .bwWriteUint w) ∨
  (e = .outputOverflow ∧ ∃ w, i = .bwWriteUint w)

/-- The end of a reader command issued as `w` in `s`: completed with the cursor at `n`, or failed. -/
inductive ReaderEnds (i : Instr) (w : Word) (s : State) : State → Prop where
  | done (r : Word) (n : Nat) (hmax : s.brPos.toNat ≤ 8 * (2 ^ 32 - 1) → n ≤ 8 * (2 ^ 32 - 1))
      (hkeep : i = .brBytePos → n = s.brPos.toNat) : ReaderEnds i w s (complete r (setBrPos n (issue w s)))
  | failed (e : ErrCode) (he : IsReaderError i e) : ReaderEnds i w s (raise e 0 (issue w s))

/-- The end of a writer command issued as `w` in `s`: completed with the writer at `bits`, or, BW_TO_BYTES, with the
writer's bytes in `OUT`, or failed. -/
inductive WriterEnds (i : Instr) (w : Word) (s : State) : State → Prop where
  | done (r : Word) (bits : List Bool) (hcap : s.bwBits.length ≤ 8 * s.cfg.outCap → bits.length ≤ 8 * s.cfg.outCap)
      (hkeep : i = .bwBitLen → bits = s.bwBits) (hi : i ≠ .bwToBytes) :
      WriterEnds i w s (complete r { issue w s with bwBits := bits })
  | stored (r : Word) (hi : i = .bwToBytes) (hfit : (twBytes s.bwBits).length ≤ s.cfg.outCap) :
      WriterEnds i w s (complete r
        { issue w s with outMem := memWriteList s.outMem 0 (twBytes s.bwBits),
                         outLen := BitVec.ofNat 32 (twBytes s.bwBits).length })
  | failed (e : ErrCode) (he : IsWriterError i e) : WriterEnds i w s (raise e 0 (issue w s))

section
variable {s t : State} {i : Instr} {w : Word} {csw clw : Nibble}

/-- A command ends illegal, or as its body does. -/
theorem command_ends {P : State → Prop} {body : State → Exec} (h : command w body s = .next t)
    (hill : P (raise .illegalCommand 0 (issue w s))) (hbody : ∀ t, body (issue w s) = .next t → P t) :
    s.status.busy = false ∧ P t := by
  obtain ⟨hb, ⟨-, rfl⟩ | ⟨-, h⟩⟩ := command_eq_next.1 h
  · exact ⟨hb, hill⟩
  · exact ⟨hb, hbody t h⟩

theorem illegalCommand_ends {P : State → Prop} (h : illegalCommand w s = .next t)
    (hill : P (raise .illegalCommand 0 (issue w s))) : s.status.busy = false ∧ P t := by
  obtain ⟨hb, rfl⟩ := illegalCommand_eq_next.1 h
  exact ⟨hb, hill⟩

theorem setBrPos_self (s : State) : setBrPos s.brPos.toNat s = s := by
  simp [setBrPos]

theorem ReaderEnds.illegal : ReaderEnds i w s (raise .illegalCommand 0 (issue w s)) := .failed _ (.inl rfl)

theorem WriterEnds.illegal : WriterEnds i w s (raise .illegalCommand 0 (issue w s)) := .failed _ (.inl rfl)

/-- A field read ends with the cursor past the field, within `8·IN_LEN` or unmoved, or with OUT_OF_DATA. -/
theorem readField_ends {n : Nat} (hi : i = .brReadBool ∨ ∃ w, i = .brReadUint w)
    (h : readField n (issue w s) = .next t) : ReaderEnds i w s t := by
  obtain ⟨v, p, hread, rfl⟩ | ⟨-, rfl⟩ := readField_eq_next.1 h
  · obtain ⟨hle, rfl, -⟩ := brRead_eq_ok.1 hread
    have hin := s.inLen.isLt
    refine .done _ _ (fun hmax => ?_) (fun hpos => ?_)
    · rw [issue_brPos, issue_inLen] at hle
      rw [issue_brPos]
      omega
    · obtain rfl | ⟨w, rfl⟩ := hi <;> cases hpos
  · exact .failed _ (.inr (.inl ⟨rfl, hi⟩))

theorem exec_reader_ends (hi : IsReaderCommand i) (he : encode csw clw i = .word w) (h : exec i s = .next t) :
    s.status.busy = false ∧ ReaderEnds i w s t := by
  obtain rfl | ⟨v, rfl⟩ | rfl | rfl | rfl := hi <;> cases he
  · rw [exec_brInit] at h
    refine command_ends h .illegal fun t h => ?_
    cases h
    have harg := s.arg0.isLt
    exact .done _ _ (fun _ => by rw [startBit, issue_arg0]; omega) (fun hpos => by cases hpos)
  · rw [exec_brReadUint] at h
    split at h
    · exact command_ends h .illegal fun t h => readField_ends (.inr ⟨v, rfl⟩) h
    · exact illegalCommand_ends h .illegal
  · exact command_ends h .illegal fun t h => readField_ends (.inl rfl) h
  · rw [exec_brByteAlign] at h
    refine command_ends h .illegal fun t h => ?_
    cases h
    exact .done _ _ (fun hmax => ceil8_le hmax) (fun hpos => by cases hpos)
  · rw [exec_brBytePos] at h
    refine command_ends h .illegal fun t h => ?_
    by_cases ha : bitAligned s.brPos.toNat = true
    · cases (if_pos ha).symm.trans h
      rw [← setBrPos_self (issue _ s)]
      exact .done _ _ id (fun _ => rfl)
    · cases (if_neg ha).symm.trans h
      exact .failed _ (.inr (.inr ⟨rfl, rfl⟩))

/-- A field write ends with its bits appended within the capacity, or with one of its two errors. -/
theorem writeField_ends {n : Nat} (hi : ∃ w, i = .bwWriteUint w) (h : writeField n (issue w s) = .next t) :
    WriterEnds i w s t := by
  obtain ⟨-, rfl⟩ | ⟨-, -, rfl⟩ | ⟨-, hfit, rfl⟩ := writeField_eq_next.1 h
  · exact .failed _ (.inr (.inr (.inl ⟨rfl, hi⟩)))
  · exact .failed _ (.inr (.inr (.inr ⟨rfl, hi⟩)))
  · obtain ⟨v, rfl⟩ := hi
    refine .done _ _ (fun _ => ?_) (fun hlen => by cases hlen) (fun hbytes => by cases hbytes)
    rw [twWrite, List.length_append, valBits_length]
    exact hfit

theorem exec_writer_ends (hi : IsWriterCommand i) (he : encode csw clw i = .word w) (h : exec i s = .next t) :
    s.status.busy = false ∧ WriterEnds i w s t := by
  obtain rfl | ⟨v, rfl⟩ | rfl | rfl | rfl := hi <;> cases he
  · rw [exec_bwInit] at h
    refine command_ends h .illegal fun t h => ?_
    cases h
    exact .done _ _ (fun _ => Nat.zero_le _) (fun hlen => by cases hlen) (fun hbytes => by cases hbytes)
  · rw [exec_bwWriteUint] at h
    split at h
    · exact command_ends h .illegal fun t h => writeField_ends ⟨v, rfl⟩ h
    · exact illegalCommand_ends h .illegal
  · rw [exec_bwPad] at h
    refine command_ends h .illegal fun t h => ?_
    cases h
    refine .done _ _ (fun hcap => ?_) (fun hlen => by cases hlen) (fun hbytes => by cases hbytes)
    rw [twPad_length]
    exact ceil8_le hcap
  · rw [exec_bwToBytes] at h
    refine command_ends h .illegal fun t h => ?_
    by_cases ha : bitAligned s.bwBits.length = true
    · obtain ⟨u, hu, hdone⟩ := andThen_eq_next.1 ((if_pos ha).symm.trans h)
      obtain ⟨hfit, rfl⟩ := putOut_eq_next.1 hu
      cases hdone
      exact .stored _ rfl hfit
    · cases (if_neg ha).symm.trans h
      exact .failed _ (.inr (.inl ⟨rfl, rfl⟩))
  · rw [exec_bwBitLen] at h
    refine command_ends h .illegal fun t h => ?_
    cases h
    exact .done _ s.bwBits id (fun _ => rfl) (fun hbytes => by cases hbytes)

/-! ### The stream items -/

/-- A stream item runs in a running DECODE only (42_decoder.md R92). -/
theorem execItem_decoding (h : execItem i s = .next t) : ∃ r, s.engine = .decoding r := by
  cases i with
  | hdr c l => obtain ⟨r, hr, -⟩ := execHdr_eq_next.1 h; exact ⟨r, hr⟩
  | lit b => obtain ⟨r, hr, -⟩ := execLit_eq_next.1 h; exact ⟨r, hr⟩
  | ref d raw => obtain ⟨r, hr, -⟩ := opcodeZero_eq_next.1 h; exact ⟨r, hr⟩
  | endStream raw => obtain ⟨r, hr, -⟩ := opcodeZero_eq_next.1 h; exact ⟨r, hr⟩
  | _ => cases h

/-- HDR and END leave `OUT` and OUT_LEN (42_decoder.md R98, R100). -/
theorem execItem_out_of_hdr_or_endStream (hi : (∃ c l, i = .hdr c l) ∨ ∃ raw, i = .endStream raw)
    (h : execItem i s = .next t) : t.outLen = s.outLen ∧ t.outMem = s.outMem := by
  obtain ⟨c, l, rfl⟩ | ⟨raw, rfl⟩ := hi
  · obtain ⟨r, -, -, rfl⟩ := execHdr_eq_next.1 h
    exact ⟨rfl, rfl⟩
  · obtain ⟨r, -, -, ⟨-, rfl⟩ | ⟨hne, -⟩⟩ := opcodeZero_eq_next.1 h
    · exact ⟨rfl, rfl⟩
    · exact absurd rfl hne

end

/-! ### Frames -/

/-- Settles O51: a reader command completes with the cursor set, or fails with nothing set. -/
theorem readerCommandsFrame : Obligations.ReaderCommandsFrame := by
  intro s t i (hi : IsReaderCommand i) h
  obtain ⟨w, he⟩ := encode_word_of_command 0 0 hi.isStreamItem
  obtain ⟨-, hends⟩ := exec_reader_ends hi he h
  cases hends with
  | done r n hmax hkeep =>
    refine ⟨rfl, rfl, rfl, rfl, rfl, rfl, fun _ => rfl, fun _ => rfl, rfl, rfl, rfl, fun hpos => ?_, rfl⟩
    rw [hkeep hpos]
    exact BitVec.ofNat_toNat _ _
  | failed e => exact ⟨rfl, rfl, rfl, rfl, rfl, rfl, fun _ => rfl, fun _ => rfl, rfl, rfl, rfl, fun _ => rfl, rfl⟩

/-- Settles O52: a writer command completes with the writer set, or stores the writer's bytes, or fails with nothing
set. -/
theorem writerCommandsFrame : Obligations.WriterCommandsFrame := by
  intro s t i (hi : IsWriterCommand i) h
  obtain ⟨w, he⟩ := encode_word_of_command 0 0 hi.isStreamItem
  obtain ⟨-, hends⟩ := exec_writer_ends hi he h
  cases hends with
  | done r bits hcap hkeep hbytes =>
    exact ⟨rfl, rfl, rfl, rfl, rfl, fun _ => rfl, rfl, rfl, rfl, fun hor => hkeep (hor.resolve_left hbytes),
      fun _ => ⟨rfl, fun _ => rfl⟩, fun _ _ _ => rfl⟩
  | stored r hbytes hfit =>
    refine ⟨rfl, rfl, rfl, rfl, rfl, fun _ => rfl, rfl, rfl, rfl, fun _ => rfl, fun hne => absurd hbytes hne,
      fun _ a ha => ?_⟩
    exact (memRead_memWriteList_twBytes s.outMem s.bwBits a).trans (if_neg (Nat.not_lt.2 ha))
  | failed e =>
    exact ⟨rfl, rfl, rfl, rfl, rfl, fun _ => rfl, rfl, rfl, rfl, fun _ => rfl, fun _ => ⟨rfl, fun _ => rfl⟩,
      fun _ _ _ => rfl⟩

/-- Settles O53: what no step of DECODE writes, and what an item that does not end DECODE does to `OUT`. -/
theorem streamItemsFrame : Obligations.StreamItemsFrame := by
  intro s t i hi h
  rw [exec_eq_execItem hi] at h
  obtain ⟨hcmd, harg0, hinLen, hbw, hin, hhost, hdata, hcfg⟩ := execItem_keeps h
  obtain ⟨r, hr⟩ := execItem_decoding h
  obtain ⟨-, hends⟩ := execItem_cases hr h
  refine ⟨hcmd, harg0, hinLen, hbw, fun a => by rw [hin], hhost, hdata, hcfg, ?_, fun hrun => ?_⟩
  · intro hne
    obtain ⟨e, -, -, -, -, -, -, hcsw, hclw⟩ | ⟨-, -, r', -, -, ⟨c, l, rfl, -⟩ | ⟨-, -, -, -, -, hcsw, hclw⟩⟩ := hends
    · exact ⟨hcsw, hclw⟩
    · exact absurd rfl (hne c l)
    · exact ⟨hcsw, hclw⟩
  · obtain ⟨e, -, -, -, -, -, hidle, -⟩ | ⟨hstatus, hresult, -⟩ := hends
    · rw [engineIdle, hidle] at hrun
      cases hrun
    refine ⟨hstatus, hresult, fun a ha hlegal => ?_, fun hsame => ?_⟩
    · obtain ⟨-, -, -, hcap⟩ := Config.legal_bounds hlegal
      have hgrows := execItem_out h hrun (Nat.lt_of_le_of_lt hcap (by decide))
      exact hgrows.other a (ha.imp_right And.right)
    · obtain ⟨hlen, hmem⟩ := execItem_out_of_hdr_or_endStream hsame h
      exact ⟨hlen, fun a => by rw [hmem]⟩

/-- Settles O54: what no step of either engine writes, and what each leaves of `OUT`. -/
theorem decodeAndEncodeFrame : Obligations.DecodeAndEncodeFrame := by
  intro s t hlegal
  constructor
  · intro h
    obtain ⟨-, ⟨-, rfl⟩ | ⟨-, ⟨-, harg0, hinLen, hbw, hin, hhost, hdata, hcfg⟩, -, hends⟩⟩ := exec_decode_eq_next h
    · exact ⟨rfl, rfl, rfl, fun _ => rfl, rfl, rfl, rfl, fun _ _ _ => rfl⟩
    refine ⟨harg0, hinLen, hbw, fun a => congrArg (memRead · a) hin, hhost, hdata, hcfg, fun hok => ?_⟩
    obtain ⟨-, hkept⟩ | ⟨e, -, hfail, -⟩ := hends
    · exact (hkept hlegal).2
    · rw [hfail] at hok
      cases hok
  · intro h
    obtain ⟨-, ⟨-, rfl⟩ | ⟨-, ⟨-, harg0, hinLen, hpos, hin, hhost, hdata, hcfg⟩, -, hends⟩⟩ := exec_encode_eq_next h
    · exact ⟨rfl, rfl, rfl, fun _ => rfl, rfl, rfl, rfl, fun _ _ => rfl, fun _ => ⟨rfl, rfl, rfl⟩⟩
    refine ⟨harg0, hinLen, hpos, fun a => congrArg (memRead · a) hin, hhost, hdata, hcfg, ?_⟩
    obtain ⟨hdone, hkept⟩ | ⟨-, -, hout, hbw, hcsw, hclw⟩ := hends
    · have hok : t.status.err ≠ true := by rw [hdone]; decide
      exact ⟨fun a ha => hkept hlegal a (ha.resolve_right hok), fun herr => absurd herr hok⟩
    · exact ⟨fun a _ => congrArg (memRead · a) hout, fun _ => ⟨hbw, hcsw, hclw⟩⟩

/-! ### Whole-machine rules -/

/-- Settles O55: no step of either engine writes them, and the other commands end in the issued state but for the
cursor, the writer or `OUT`. -/
theorem noInstructionWritesTheHostsState : Obligations.NoInstructionWritesTheHostsState := by
  intro s t i h
  by_cases hi : i.isStreamItem = true
  · rw [exec_eq_execItem hi] at h
    have hkeeps := execItem_keeps h
    exact ⟨hkeeps.inMem, hkeeps.inLen, hkeeps.arg0, hkeeps.host, hkeeps.cfg⟩
  replace hi := Bool.eq_false_iff.2 hi
  obtain ⟨w, he⟩ := encode_word_of_command 0 0 hi
  obtain hreader | hwriter | rfl | rfl := command_cases hi
  · obtain ⟨-, hends⟩ := exec_reader_ends hreader he h
    cases hends <;> exact ⟨rfl, rfl, rfl, rfl, rfl⟩
  · obtain ⟨-, hends⟩ := exec_writer_ends hwriter he h
    cases hends <;> exact ⟨rfl, rfl, rfl, rfl, rfl⟩
  · obtain ⟨-, ⟨-, rfl⟩ | ⟨-, hkeeps, -⟩⟩ := exec_decode_eq_next h
    · exact ⟨rfl, rfl, rfl, rfl, rfl⟩
    · exact ⟨hkeeps.inMem, hkeeps.inLen, hkeeps.arg0, hkeeps.host, hkeeps.cfg⟩
  · obtain ⟨-, ⟨-, rfl⟩ | ⟨-, hkeeps, -⟩⟩ := exec_encode_eq_next h
    · exact ⟨rfl, rfl, rfl, rfl, rfl⟩
    · exact ⟨hkeeps.inMem, hkeeps.inLen, hkeeps.arg0, hkeeps.host, hkeeps.cfg⟩

/-- STATUS as every command leaves it: completed, or failed with an error code (10_state.md R30, R31). -/
def Status.Ended (st : Status) : Prop := st = .completed ∨ ∃ e, e ≠ .none ∧ st = .failed e

theorem Status.Ended.fields {st : Status} (h : st.Ended) :
    st.busy = false ∧ st.done = true ∧ (st.err = true ↔ st.errcode ≠ .none) := by
  obtain rfl | ⟨e, he, rfl⟩ := h
  · exact ⟨rfl, rfl, by decide⟩
  · exact ⟨rfl, rfl, by simp [Status.failed, he]⟩

theorem IsReaderError.ne_none {i : Instr} {e : ErrCode} (h : IsReaderError i e) : e ≠ .none := by
  obtain rfl | ⟨rfl, -⟩ | ⟨rfl, -⟩ := h <;> decide

theorem IsWriterError.ne_none {i : Instr} {e : ErrCode} (h : IsWriterError i e) : e ≠ .none := by
  obtain rfl | ⟨rfl, -⟩ | ⟨rfl, -⟩ | ⟨rfl, -⟩ := h <;> decide

theorem IsDecodeError.ne_none {e : ErrCode} (h : IsDecodeError e) : e ≠ .none := by
  obtain rfl | rfl | rfl := h <;> decide

/-- A command that answers a next state has ended, its word in CMD (10_state.md R29 to R31). -/
theorem exec_command_ended {s t : State} {i : Instr} {csw clw : Nibble} {w : Word} (he : encode csw clw i = .word w)
    (h : exec i s = .next t) : t.status.Ended ∧ t.engine = .idle ∧ t.cmd = w := by
  obtain hreader | hwriter | rfl | rfl := command_cases (isStreamItem_of_encode_word he)
  · obtain ⟨-, hends⟩ := exec_reader_ends hreader he h
    cases hends with
    | done => exact ⟨.inl rfl, rfl, rfl⟩
    | failed e herr => exact ⟨.inr ⟨e, herr.ne_none, rfl⟩, rfl, rfl⟩
  · obtain ⟨-, hends⟩ := exec_writer_ends hwriter he h
    cases hends with
    | done => exact ⟨.inl rfl, rfl, rfl⟩
    | stored => exact ⟨.inl rfl, rfl, rfl⟩
    | failed e herr => exact ⟨.inr ⟨e, herr.ne_none, rfl⟩, rfl, rfl⟩
  · cases he
    obtain ⟨-, ⟨-, rfl⟩ | ⟨-, hkeeps, hidle, hends⟩⟩ := exec_decode_eq_next h
    · exact ⟨.inr ⟨_, by decide, rfl⟩, rfl, rfl⟩
    refine ⟨?_, hidle, hkeeps.cmd⟩
    obtain ⟨hdone, -⟩ | ⟨e, herr, hfail, -⟩ := hends
    · exact .inl hdone
    · exact .inr ⟨e, herr.ne_none, hfail⟩
  · cases he
    obtain ⟨-, ⟨-, rfl⟩ | ⟨-, hkeeps, hidle, hends⟩⟩ := exec_encode_eq_next h
    · exact ⟨.inr ⟨_, by decide, rfl⟩, rfl, rfl⟩
    refine ⟨?_, hidle, hkeeps.cmd⟩
    obtain ⟨hdone, -⟩ | ⟨hfail, -⟩ := hends
    · exact .inl hdone
    · exact .inr ⟨_, by decide, hfail⟩

/-- Settles O56: the STATUS every command leaves, by its fields. -/
theorem everyCommandEnds : Obligations.EveryCommandEnds := by
  intro s t i csw clw w he h
  obtain ⟨hended, hidle, hcmd⟩ := exec_command_ended he h
  obtain ⟨hbusy, hdone, herr⟩ := hended.fields
  exact ⟨hbusy, hdone, herr, (engineIdle_iff t).2 hidle, hcmd⟩

/-- Settles O57: the errors of each kind of command are the statement's list. -/
theorem commandsRaiseOnlyTheirErrors : Obligations.CommandsRaiseOnlyTheirErrors := by
  intro s t i hi h
  obtain ⟨w, he⟩ := encode_word_of_command 0 0 hi
  obtain hreader | hwriter | rfl | rfl := command_cases hi
  · obtain ⟨-, hends⟩ := exec_reader_ends hreader he h
    cases hends with
    | done => exact .inl rfl
    | failed e herr =>
      obtain rfl | ⟨rfl, hread⟩ | ⟨rfl, hpos⟩ := herr
      · exact .inr (.inl rfl)
      · exact .inr (.inr (.inl ⟨rfl, hread⟩))
      · exact .inr (.inr (.inr (.inl ⟨rfl, .inl hpos⟩)))
  · obtain ⟨-, hends⟩ := exec_writer_ends hwriter he h
    cases hends with
    | done => exact .inl rfl
    | stored => exact .inl rfl
    | failed e herr =>
      obtain rfl | ⟨rfl, hbytes⟩ | ⟨rfl, hwrite⟩ | ⟨rfl, hwrite⟩ := herr
      · exact .inr (.inl rfl)
      · exact .inr (.inr (.inr (.inl ⟨rfl, .inr hbytes⟩)))
      · exact .inr (.inr (.inr (.inr (.inl ⟨rfl, hwrite⟩))))
      · exact .inr (.inr (.inr (.inr (.inr (.inl ⟨rfl, .inr hwrite⟩)))))
  · obtain ⟨-, ⟨-, rfl⟩ | ⟨-, -, -, ⟨hdone, -⟩ | ⟨e, herr, hfail, -⟩⟩⟩ := exec_decode_eq_next h
    · exact .inr (.inl rfl)
    · rw [hdone]
      exact .inl rfl
    · rw [hfail]
      obtain rfl | rfl | rfl := herr <;> simp [Status.failed]
  · obtain ⟨-, ⟨-, rfl⟩ | ⟨-, -, -, ⟨hdone, -⟩ | ⟨hfail, -⟩⟩⟩ := exec_encode_eq_next h
    · exact .inr (.inl rfl)
    · rw [hdone]
      exact .inl rfl
    · rw [hfail]
      simp [Status.failed]

/-- Settles O58: a failed reader or writer command and an illegal one leave the issued state; a failed DECODE or ENCODE
withholds its output. -/
theorem errorsLeaveTheTable : Obligations.ErrorsLeaveTheTable := by
  intro s t i hi h herr
  obtain ⟨w, he⟩ := encode_word_of_command 0 0 hi
  obtain hreader | hwriter | rfl | rfl := command_cases hi
  · obtain ⟨-, hends⟩ := exec_reader_ends hreader he h
    cases hends with
    | done => cases herr
    | failed e =>
      refine ⟨fun _ => rfl, fun _ hengine => ?_, fun _ => ⟨rfl, rfl, rfl, rfl, rfl, rfl⟩⟩
      obtain rfl | rfl := hengine <;> simp [IsReaderCommand] at hreader
  · obtain ⟨-, hends⟩ := exec_writer_ends hwriter he h
    cases hends with
    | done => cases herr
    | stored => cases herr
    | failed e =>
      refine ⟨fun _ => rfl, fun _ hengine => ?_, fun _ => ⟨rfl, rfl, rfl, rfl, rfl, rfl⟩⟩
      obtain rfl | rfl := hengine <;> simp [IsWriterCommand] at hwriter
  · obtain ⟨-, ⟨-, rfl⟩ | ⟨-, -, -, ⟨hdone, -⟩ | ⟨e, hdec, hfail, hresult, hlen⟩⟩⟩ := exec_decode_eq_next h
    · exact ⟨fun _ => rfl, fun hne => absurd rfl hne, fun _ => ⟨rfl, rfl, rfl, rfl, rfl, rfl⟩⟩
    · rw [hdone] at herr
      cases herr
    · refine ⟨fun _ => hresult, fun _ _ => hlen, fun hor => ?_⟩
      rw [hfail] at hor
      obtain rfl | rfl | rfl := hdec <;> simp [Status.failed] at hor
  · obtain ⟨-, ⟨-, rfl⟩ | ⟨-, -, -, ⟨hdone, -⟩ | ⟨hfail, hlen, -⟩⟩⟩ := exec_encode_eq_next h
    · exact ⟨fun _ => rfl, fun hne => absurd rfl hne, fun _ => ⟨rfl, rfl, rfl, rfl, rfl, rfl⟩⟩
    · rw [hdone] at herr
      cases herr
    · refine ⟨fun hne => absurd (by rw [hfail]; rfl) hne, fun _ _ => hlen, fun hor => ?_⟩
      rw [hfail] at hor
      simp [Status.failed] at hor

end Sys2Proof.Machine
end

section
/-! SUPPORT. The invariant (10_state.md sections 2 to 5): the part of it that every operation keeps on its own, and then
each kind of step, the host's moves, the commands and the two engines. -/

namespace Sys2Proof.Machine

/-- The invariant but for STATUS and the transients: parameters, memories, OUT_LEN, writer and cursor. It holds in the
middle of a command too. -/
structure DataInv (s : State) : Prop where
  params : s.cfg.legal = true
  inCanonical : Memory.wf s.inMem = true
  outCanonical : Memory.wf s.outMem = true
  inWithin : memBelow s.cfg.inCap s.inMem = true
  outWithin : memBelow s.cfg.outCap s.outMem = true
  outLenCap : s.outLen.toNat ≤ s.cfg.outCap
  outWritten : ∀ i, i < s.outLen.toNat → (memRead s.outMem i).isSome = true
  writerCap : s.bwBits.length ≤ 8 * s.cfg.outCap
  cursorMax : s.brPos.toNat ≤ 8 * (2 ^ 32 - 1)

section
variable {s t : State}

theorem Inv.data (h : Inv s) : DataInv s :=
  { h with }

theorem DataInv.inv (h : DataInv s) (hstatus : s.status.legal = true) (hbusy : s.status.busy = !engineIdle s)
    (htrans : EngineInv s) : Inv s :=
  { h with statusLegal := hstatus, busyRuns := hbusy, transients := htrans }

/-- Between commands the transients ask nothing. -/
theorem DataInv.inv_of_idle (h : DataInv s) (hstatus : s.status.legal = true) (hbusy : s.status.busy = false)
    (hi : s.engine = .idle) : Inv s :=
  h.inv hstatus (by rw [hbusy, (engineIdle_iff s).2 hi]; rfl) (by rw [EngineInv, hi]; trivial)

/-- In the middle of a command BUSY is set, and the transients have their own invariant. -/
theorem DataInv.inv_of_running (h : DataInv s) (hstatus : s.status.legal = true) (hbusy : s.status.busy = true)
    (hi : engineIdle s = false) (htrans : EngineInv s) : Inv s :=
  h.inv hstatus (by rw [hbusy, hi]; rfl) htrans

theorem Status.failed_legal {e : ErrCode} (he : e ≠ .none) : (Status.failed e).legal = true := by
  simp [Status.legal, Status.failed, he]

/-! ### The operations -/

theorem DataInv.complete (h : DataInv s) (r : Word) : Inv (complete r s) :=
  DataInv.inv_of_idle { h with } rfl rfl rfl

theorem DataInv.raise (h : DataInv s) {e : ErrCode} (he : e ≠ .none) (info : Word) : Inv (raise e info s) :=
  DataInv.inv_of_idle { h with } (Status.failed_legal he) rfl rfl

theorem DataInv.issue (h : DataInv s) (w : Word) : DataInv (issue w s) := { h with }

theorem DataInv.setDec (h : DataInv s) (r : DecRegs) : DataInv (setDec r s) := { h with }

theorem DataInv.setEnc (h : DataInv s) (e : EncRegs) : DataInv (setEnc e s) := { h with }

theorem toNat_ofNat35 {n : Nat} (hn : n ≤ 8 * (2 ^ 32 - 1)) : (BitVec.ofNat 35 n).toNat = n := by
  rw [BitVec.toNat_ofNat, Nat.mod_eq_of_lt (by omega)]

theorem DataInv.setBrPos (h : DataInv s) {n : Nat} (hn : n ≤ 8 * (2 ^ 32 - 1)) : DataInv (setBrPos n s) :=
  { h with cursorMax := by rw [setBrPos_brPos, toNat_ofNat35 hn]; exact hn }

theorem DataInv.setBwBits (h : DataInv s) {bits : List Bool} (hl : bits.length ≤ 8 * s.cfg.outCap) :
    DataInv { s with bwBits := bits } :=
  { h with writerCap := hl }

theorem DataInv.setHdr (h : DataInv s) (csw clw : Nibble) : DataInv { s with hdrCsw := csw, hdrClw := clw } :=
  { h with }

theorem DataInv.clearOutLen (h : DataInv s) : DataInv { s with outLen := 0 } :=
  { h with outLenCap := Nat.zero_le _, outWritten := fun _ hi => absurd hi (Nat.not_lt_zero _) }

theorem DataInv.withholdOutput (h : DataInv s) : DataInv (withholdOutput s) :=
  { h.clearOutLen with
    outCanonical := rfl, outWithin := rfl, outWritten := fun _ hi => absurd hi (Nat.not_lt_zero _) }

/-- Bytes stored at `OUT[0..]` that fit, OUT_LEN their number. -/
theorem DataInv.storeOut (h : DataInv s) {bs : List Byte} (hfit : bs.length ≤ s.cfg.outCap) :
    DataInv { s with outMem := memWriteList s.outMem 0 bs, outLen := BitVec.ofNat 32 bs.length } := by
  obtain ⟨-, -, -, hcap⟩ := Config.legal_bounds h.params
  have hlen : (BitVec.ofNat 32 bs.length).toNat = bs.length := by
    rw [BitVec.toNat_ofNat, Nat.mod_eq_of_lt (by omega)]
  refine { h with
    outCanonical := memWriteList_wf 0 bs h.outCanonical
    outWithin := memBelow_memWriteList bs h.outWithin ((Nat.zero_add _).le.trans hfit)
    outLenCap := (Nat.le_of_eq hlen).trans hfit
    outWritten := fun i hi => ?_ }
  rw [hlen] at hi
  rw [memRead_memWriteList, if_pos (by omega), Nat.sub_zero, List.getElem?_eq_getElem hi]
  rfl

/-- A byte stored in `IN` at an index that exists. -/
theorem DataInv.storeIn (h : DataInv s) {i : Nat} (b : Byte) (hi : i < s.cfg.inCap) :
    DataInv { s with inMem := memWrite s.inMem i b } :=
  { h with inCanonical := memWrite_wf i b h.inCanonical, inWithin := memBelow_memWrite b h.inWithin hi }

/-! ### Reset -/

theorem resetWith_inv {cfg : Config} (hc : cfg.legal = true) (host : List HostOp) (d : Word) :
    Inv (State.resetWith cfg host d) :=
  DataInv.inv_of_idle ⟨hc, rfl, rfl, rfl, rfl, Nat.zero_le _, fun _ hi => absurd hi (Nat.not_lt_zero _), Nat.zero_le _,
    Nat.zero_le _⟩ rfl rfl rfl

/-- Settles O59: the default parameters are legal. -/
theorem resetMeetsTheInvariant : Obligations.ResetMeetsTheInvariant := resetWith_inv (by decide) [] 0

/-! ### The host's moves -/

theorem whileIdle_eq_next {x : Exec} : whileIdle x s = .next t ↔ s.status.busy = false ∧ x = .next t := by
  unfold whileIdle
  cases s.status.busy <;> simp

theorem hostWriteIn_eq_next {i : Nat} {b : Byte} : hostWriteIn i b s = .next t ↔
    i < s.cfg.inCap ∧ t = { s with inMem := memWrite s.inMem i b } := by
  unfold hostWriteIn
  split
  · next h => simp [h, eq_comm]
  · next h => simp [h]

theorem hostReadIn_eq_next {i : Nat} (h : hostReadIn i s = .next t) : ∃ d, t = { s with hostData := d } := by
  unfold hostReadIn at h
  split at h
  · split at h
    · cases h; exact ⟨_, rfl⟩
    · cases h
  · cases h

theorem withOutByte_eq_next {i : Nat} {k : Byte → Exec} (h : withOutByte i k s = .next t) : ∃ b, k b = .next t := by
  unfold withOutByte at h
  split at h
  · split at h
    · exact ⟨_, h⟩
    · cases h
  · cases h

/-- What a host move other than a CMD write leaves: a reset, or the state but for the host's own fields, ARG0, IN_LEN
and at most one byte of `IN` (10_state.md R12 to R28). -/
theorem hostMove_eq_next {op : HostOp} {rest : List HostOp} (h : hostMove op rest s = .next t) :
    t = resetEvent { s with host := rest } ∨
    ∃ arg0 inLen inMem host hostData,
      t = { s with arg0 := arg0, inLen := inLen, inMem := inMem, host := host, hostData := hostData } ∧
      (inMem = s.inMem ∨ ∃ i b, i < s.cfg.inCap ∧ inMem = memWrite s.inMem i b) := by
  cases op with
  | writeReg offset v =>
    dsimp only [hostMove] at h
    split at h
    · obtain ⟨-, h⟩ := whileIdle_eq_next.1 h
      rw [writeRegister_eq] at h
      split_ifs at h <;> cases h <;> exact .inr ⟨_, _, _, _, _, rfl, .inl rfl⟩
    · cases h
  | readReg offset =>
    dsimp only [hostMove] at h
    split at h
    · cases h; exact .inr ⟨_, _, _, _, _, rfl, .inl rfl⟩
    · cases h
  | writeIn i b =>
    obtain ⟨-, h⟩ := whileIdle_eq_next.1 h
    obtain ⟨hi, rfl⟩ := hostWriteIn_eq_next.1 h
    exact .inr ⟨_, _, _, _, _, rfl, .inr ⟨i, b, hi, rfl⟩⟩
  | readIn i =>
    obtain ⟨-, h⟩ := whileIdle_eq_next.1 h
    obtain ⟨d, rfl⟩ := hostReadIn_eq_next h
    exact .inr ⟨_, _, _, _, _, rfl, .inl rfl⟩
  | readOut i =>
    obtain ⟨-, h⟩ := whileIdle_eq_next.1 h
    obtain ⟨b, h⟩ := withOutByte_eq_next h
    cases h
    exact .inr ⟨_, _, _, _, _, rfl, .inl rfl⟩
  | copyOut i j =>
    obtain ⟨-, h⟩ := whileIdle_eq_next.1 h
    obtain ⟨b, h⟩ := withOutByte_eq_next h
    obtain ⟨hj, rfl⟩ := hostWriteIn_eq_next.1 h
    exact .inr ⟨_, _, _, _, _, rfl, .inr ⟨j, b, hj, rfl⟩⟩
  | wait =>
    dsimp only [hostMove, hostWait] at h
    split at h <;> cases h <;> exact .inr ⟨_, _, _, _, _, rfl, .inl rfl⟩
  | reset => cases h; exact .inl rfl

theorem DataInv.setHostFields (h : DataInv s) (arg0 inLen : Word) (host : List HostOp) (hostData : Word) :
    DataInv { s with arg0 := arg0, inLen := inLen, host := host, hostData := hostData } := { h with }

/-- A host move other than a CMD write, between commands. -/
theorem hostMove_inv {op : HostOp} {rest : List HostOp} (hinv : Inv s) (hi : engineIdle s = true)
    (h : hostMove op rest s = .next t) : Inv t := by
  have hbusy : s.status.busy = false := by rw [hinv.busyRuns, hi]; rfl
  have hidle := (engineIdle_iff s).1 hi
  obtain rfl | ⟨arg0, inLen, inMem, host, hostData, rfl, rfl | ⟨i, b, hb, rfl⟩⟩ := hostMove_eq_next h
  · exact resetWith_inv hinv.params _ _
  · exact (hinv.data.setHostFields arg0 inLen host hostData).inv_of_idle hinv.statusLegal hbusy hidle
  · exact ((hinv.data.storeIn b hb).setHostFields arg0 inLen host hostData).inv_of_idle hinv.statusLegal hbusy hidle

/-! ### DECODE -/

theorem fetchItem_eq_none {r : DecRegs} : fetchItem r s = none ↔ r.phase = .done := by
  unfold fetchItem
  cases r.phase <;> simp

/-- After an item that goes on, `OUT` has grown and the rest is as before. -/
theorem DataInv.of_outGrows (h : DataInv s) (hkeeps : DecoderKeeps s t) (hgrows : OutGrows s t)
    (hpos : t.brPos.toNat ≤ 8 * (2 ^ 32 - 1)) : DataInv t where
  params := hkeeps.cfg ▸ h.params
  inCanonical := hkeeps.inMem ▸ h.inCanonical
  outCanonical := hgrows.canonical h.outCanonical
  inWithin := by rw [hkeeps.cfg, hkeeps.inMem]; exact h.inWithin
  outWithin := by rw [hkeeps.cfg]; exact hgrows.within h.outWithin
  outLenCap := by rw [hkeeps.cfg]; exact hgrows.cap h.outLenCap
  outWritten i hi := by
    by_cases hold : i < s.outLen.toNat
    · rw [hgrows.other i (.inl hold)]; exact h.outWritten i hold
    · exact hgrows.new i (Nat.not_lt.1 hold) hi
  writerCap := by rw [hkeeps.cfg, hkeeps.bwBits]; exact h.writerCap
  cursorMax := hpos

/-- After an item that ends DECODE with an error, the output is withheld and the rest is as before. -/
theorem DataInv.of_withheld (h : DataInv s) (hkeeps : DecoderKeeps s t) (hlen : t.outLen = 0) (hmem : t.outMem = [])
    (hpos : t.brPos.toNat ≤ 8 * (2 ^ 32 - 1)) : DataInv t where
  params := hkeeps.cfg ▸ h.params
  inCanonical := hkeeps.inMem ▸ h.inCanonical
  outCanonical := by rw [hmem]; rfl
  inWithin := by rw [hkeeps.cfg, hkeeps.inMem]; exact h.inWithin
  outWithin := by rw [hmem]; rfl
  outLenCap := by rw [hlen]; exact Nat.zero_le _
  outWritten i hi := by rw [hlen] at hi; exact absurd hi (Nat.not_lt_zero _)
  writerCap := by rw [hkeeps.cfg, hkeeps.bwBits]; exact h.writerCap
  cursorMax := hpos

section
variable {r : DecRegs}

/-- The item DECODE fetched at its cursor. -/
theorem execItem_inv {i : Instr} {n : Nat} (hinv : Inv s) (hr : s.engine = .decoding r)
    (hf : fetchItem r s = some (.item i n)) (h : execItem i s = .next t) : Inv t := by
  obtain ⟨hstart, hcap, -, hhdr⟩ := (engineInv_decoding hr).1 hinv.transients
  obtain ⟨-, hn, hend, -⟩ := fetchItem_item hf
  obtain ⟨hpos, hends⟩ := execItem_cases hr h
  have hkeeps := execItem_keeps h
  have hin := s.inLen.isLt
  have hposn : t.brPos.toNat = n := by rw [hpos, ← hn, toNat_ofNat35 (by omega)]
  have hmax : t.brPos.toNat ≤ 8 * (2 ^ 32 - 1) := by omega
  obtain ⟨e, he, hstatus, -, hlen, hmem, hidle, -⟩ | ⟨hstatus, -, r', hr', hs', hgoes⟩ := hends
  · have hne : e ≠ .none := IsDecodeError.ne_none (.inr he)
    refine (hinv.data.of_withheld hkeeps hlen hmem hmax).inv_of_idle ?_ ?_ hidle
    · rw [hstatus]; exact Status.failed_legal hne
    · rw [hstatus]; rfl
  have hrun := engineIdle_of_decoding hr'
  obtain ⟨-, -, -, hout⟩ := Config.legal_bounds hinv.params
  have hgrows := execItem_out h hrun (Nat.lt_of_le_of_lt hout (by decide))
  have hbusy : s.status.busy = true := by rw [hinv.busyRuns, engineIdle_of_decoding hr]; rfl
  refine (hinv.data.of_outGrows hkeeps hgrows hmax).inv_of_running (hstatus ▸ hinv.statusLegal) (hstatus ▸ hbusy) hrun
    ((engineInv_decoding hr').2 ⟨?_, ?_, ?_, fun _ => ⟨?_, ?_⟩⟩)
  · rw [hs', hposn]; omega
  · rw [hkeeps.inLen, hkeeps.cfg]; exact hcap
  · intro hp
    obtain ⟨c, l, -, hp', -⟩ | ⟨-, -, hp', -⟩ := hgoes
    · rw [hp'] at hp; cases hp
    · exact absurd hp hp'
  · rw [hposn, hkeeps.inLen]; exact hend
  · obtain ⟨c, l, -, -, hc, hl, hhc, hhl, -⟩ | ⟨-, hp, -, hc, hl, hhc, hhl⟩ := hgoes
    · exact ⟨hhc.trans hc.symm, hhl.trans hl.symm⟩
    · obtain ⟨-, hsc, hsl⟩ := hhdr (by simp [hp])
      exact ⟨hhc.trans (hsc.trans hc.symm), hhl.trans (hsl.trans hl.symm)⟩

theorem decoderStep_inv (hinv : Inv s) (hr : s.engine = .decoding r) (h : decoderStep r s = .next t) : Inv t := by
  obtain ⟨-, -, -, hhdr⟩ := (engineInv_decoding hr).1 hinv.transients
  have hin := s.inLen.isLt
  obtain ⟨hf, rfl⟩ | ⟨i, n, hf, h⟩ | ⟨pos, hf, rfl⟩ := decoderStep_eq_next.1 h
  · obtain ⟨hend, -⟩ := hhdr (by simp [fetchItem_eq_none.1 hf])
    have hceil := ceil8_le hend
    exact (hinv.data.setBrPos (by omega)).complete _
  · exact execItem_inv hinv hr hf h
  · obtain ⟨-, hpos, -⟩ := fetchItem_lacks hf
    have hmax := hinv.cursorMax
    exact (hinv.data.setBrPos (by omega)).withholdOutput.raise (by decide) 0

end

theorem beginDecode_inv (h : DataInv s) (hl : s.inLen.toNat ≤ s.cfg.inCap) (hst : s.status = .issued) :
    Inv (beginDecode s) := by
  have harg := s.arg0.isLt
  have hmax : 8 * s.arg0.toNat ≤ 8 * (2 ^ 32 - 1) := by omega
  have hpos : (beginDecode s).brPos.toNat = 8 * s.arg0.toNat := toNat_ofNat35 hmax
  refine ((h.setBrPos hmax).clearOutLen.setDec (DecRegs.init s.arg0)).inv_of_running ?_ ?_ rfl
    ((engineInv_decoding (r := DecRegs.init s.arg0) rfl).2
      ⟨Nat.le_of_eq hpos.symm, hl, fun _ => ⟨hpos, rfl⟩, fun hp => absurd rfl hp⟩)
  · exact (congrArg Status.legal hst).trans rfl
  · exact (congrArg Status.busy hst).trans rfl

/-! ### ENCODE -/

section
variable {e : EncRegs}

/-- Between the steps of ENCODE: the position, the trial's pair and the best trial so far (43_encoder.md R109, R110,
R115). -/
theorem engineInv_encoding (he : s.engine = .encoding e) : EngineInv s ↔
    e.currentIndex.toNat ≤ s.inLen.toNat ∧ s.inLen.toNat ≤ s.cfg.inCap ∧ s.cfg.sweep[e.t]? = some (e.csw, e.clw) ∧
    ∀ b, e.best = some b → b.tw.length = 8 * b.size ∧ s.cfg.sweep[b.t]? = some (b.csw, b.clw) := by
  rw [EngineInv, he]

/-- The best trial after a trial's end has whole bytes and a pair of the sweep (43_encoder.md R115, R116). -/
theorem bestAfter_whole_pair {sweep : List (Nibble × Nibble)} (hp : sweep[e.t]? = some (e.csw, e.clw))
    (hb : ∀ b, e.best = some b → b.tw.length = 8 * b.size ∧ sweep[b.t]? = some (b.csw, b.clw)) :
    (bestAfter e).tw.length = 8 * (bestAfter e).size ∧
      sweep[(bestAfter e).t]? = some ((bestAfter e).csw, (bestAfter e).clw) := by
  refine ⟨bestAfter_whole fun b h => (hb b h).1, ?_⟩
  unfold bestAfter
  cases hbest : e.best with
  | none => exact hp
  | some b =>
    dsimp only
    split
    · exact hp
    · exact (hb b hbest).2

theorem encodeLimit_le (s : State) : encodeLimit s ≤ s.cfg.outCap := by
  unfold encodeLimit
  split
  · exact Nat.le_refl _
  · exact Nat.min_le_right ..

theorem finishEncode_inv {b : BestTrial} (hdata : DataInv s) (hb : b.tw.length = 8 * b.size)
    (h : finishEncode b s = .next t) : Inv t := by
  have hlimit := encodeLimit_le s
  obtain ⟨-, rfl⟩ | ⟨hle, hfit, rfl⟩ := finishEncode_eq_next.1 h
  · exact hdata.clearOutLen.raise (by decide) _
  · exact (((hdata.storeOut hfit).setBwBits (bits := b.tw) (show b.tw.length ≤ 8 * s.cfg.outCap by omega)).setHdr
      b.csw b.clw).complete _

theorem encoderStep_inv (hinv : Inv s) (he : s.engine = .encoding e) (h : encoderStep e s = .next t) : Inv t := by
  obtain ⟨-, hcap, hpair, hbest⟩ := (engineInv_encoding he).1 hinv.transients
  have hin := s.inLen.isLt
  have hbusy : s.status.busy = true := by rw [hinv.busyRuns, engineIdle, he]; rfl
  have hafter := bestAfter_whole_pair hpair hbest
  obtain ⟨L, hL, ⟨hlt, rfl⟩ | ⟨-, p, hp, rfl⟩ | ⟨-, -, h⟩⟩ := encoderStep_eq_next.1 h
  · have hlen := inputBytes_length hL
    obtain ⟨-, hle⟩ := encodePosition_advances hlt (by omega)
    exact (hinv.data.setEnc _).inv_of_running hinv.statusLegal hbusy rfl
      ((engineInv_encoding (e := encodePosition L e) rfl).2 ⟨hlen ▸ hle, hcap, hpair, hbest⟩)
  · refine (hinv.data.setEnc _).inv_of_running hinv.statusLegal hbusy rfl
      ((engineInv_encoding (e := EncRegs.start (e.t + 1) p _) rfl).2 ⟨Nat.zero_le _, hcap, hp, fun b hb => ?_⟩)
    cases hb
    exact hafter
  · exact finishEncode_inv hinv.data hafter.1 h

end

theorem beginEncode_inv (h : DataInv s) (hl : s.inLen.toNat ≤ s.cfg.inCap) (hst : s.status = .issued) :
    Inv (beginEncode s) := by
  refine (h.setEnc _).inv_of_running ?_ ?_ rfl
    ((engineInv_encoding rfl).2 ⟨Nat.zero_le _, hl, rfl, fun b hb => by cases hb⟩)
  · exact (congrArg Status.legal hst).trans rfl
  · exact (congrArg Status.busy hst).trans rfl

/-! ### Every step -/

theorem engineStep_inv (hinv : Inv s) (h : engineStep s = .next t) : Inv t := by
  cases he : s.engine with
  | idle => rw [engineStep, he] at h; cases h; exact hinv
  | decoding r => rw [engineStep, he] at h; exact decoderStep_inv hinv he h
  | encoding e => rw [engineStep, he] at h; exact encoderStep_inv hinv he h

theorem runEngine_inv {n : Nat} (hinv : Inv s) (h : runEngine n s = .next t) : Inv t :=
  runEngine_induct (fun _ _ hu _ hv => engineStep_inv hu hv) hinv h

/-- A command that completes, from a state whose data meet the invariant. -/
theorem exec_command_inv {i : Instr} {csw clw : Nibble} {w : Word} (hdata : DataInv s) (he : encode csw clw i = .word w)
    (h : exec i s = .next t) : Inv t := by
  have hill : ∀ w, Inv (raise .illegalCommand 0 (issue w s)) := fun w => (hdata.issue w).raise (by decide) 0
  obtain hreader | hwriter | rfl | rfl := command_cases (isStreamItem_of_encode_word he)
  · obtain ⟨-, hends⟩ := exec_reader_ends hreader he h
    cases hends with
    | done r n hmax => exact ((hdata.issue w).setBrPos (hmax hdata.cursorMax)).complete r
    | failed e herr => exact (hdata.issue w).raise herr.ne_none 0
  · obtain ⟨-, hends⟩ := exec_writer_ends hwriter he h
    cases hends with
    | done r bits hcap => exact ((hdata.issue w).setBwBits (hcap hdata.writerCap)).complete r
    | stored r hi hfit => exact ((hdata.issue w).storeOut hfit).complete r
    | failed e herr => exact (hdata.issue w).raise herr.ne_none 0
  · rw [exec_decode] at h
    obtain ⟨-, ⟨-, rfl⟩ | ⟨hl, h⟩⟩ := command_eq_next.1 h
    · exact hill _
    · exact runEngine_inv (beginDecode_inv (hdata.issue _) hl rfl) h
  · rw [exec_encode] at h
    obtain ⟨-, ⟨-, rfl⟩ | ⟨hl, h⟩⟩ := command_eq_next.1 h
    · exact hill _
    · exact runEngine_inv (beginEncode_inv (hdata.issue _) hl rfl) h

theorem commandWrite_inv {w : Word} (hdata : DataInv s) (h : commandWrite w s = .next t) : Inv t := by
  rw [commandWrite] at h
  split at h
  · next i hd => exact exec_command_inv hdata (encode_of_decodeCommand 0 0 hd).2 h
  · obtain ⟨-, rfl⟩ := illegalCommand_eq_next.1 h
    exact (hdata.issue w).raise (by decide) 0

/-- A step of the host: nothing, a CMD write, or another move. -/
theorem hostStep_eq_next (h : hostStep s = .next t) :
    t = s ∨ (∃ w rest, commandWrite w { s with host := rest } = .next t) ∨
    ∃ op rest, hostMove op rest s = .next t := by
  unfold hostStep at h
  split at h
  · cases h; exact .inl rfl
  · next op rest hh =>
    split at h
    · split at h
      · exact .inr (.inl ⟨_, rest, h⟩)
      · exact .inr (.inr ⟨_, rest, h⟩)
    all_goals exact .inr (.inr ⟨_, rest, h⟩)

theorem hostStep_inv (hinv : Inv s) (hi : engineIdle s = true) (h : hostStep s = .next t) : Inv t := by
  obtain rfl | ⟨w, rest, h⟩ | ⟨op, rest, h⟩ := hostStep_eq_next h
  · exact hinv
  · exact commandWrite_inv (hinv.data.setHostFields s.arg0 s.inLen rest s.hostData) h
  · exact hostMove_inv hinv hi h

end

/-- Settles O60: between commands the host moves; in the middle of one the engine steps, or a reset ends it. -/
theorem stepKeepsTheInvariant : Obligations.StepKeepsTheInvariant := by
  intro s t hinv h
  cases hi : engineIdle s with
  | true =>
    rw [step_of_idle hi] at h
    exact hostStep_inv hinv hi h
  | false =>
    by_cases hh : s.host.head? = some .reset
    · obtain ⟨rest, hrest⟩ := List.head?_eq_some_iff.1 hh
      rw [step_reset hrest] at h
      cases h
      exact resetWith_inv hinv.params _ _
    · rw [step_of_running hi hh] at h
      exact engineStep_inv hinv h

end Sys2Proof.Machine
end

section
/-! SUPPORT. DECODE step by step (42_decoder.md R91 to R107): what a token makes of the output held as a list, the
invariant of a running decoder, and from it the statements about whole runs. -/

namespace Sys2Proof.Machine

/-! ### What a token does to the output -/

/-- The end of an opcode-0 token over the output `o` under the capacity `cap`: the loop's exit, an error, or the copy;
with the decoder's registers after it (42_decoder.md R99 to R102, R106). -/
def opcodeZeroOutcome (cap : Nat) (o : List Byte) (r : DecRegs) (d raw : BitVec 15) :
    Except ErrCode (DecRegs × List Byte) :=
  if d = 0 then .ok ({ latchFields d raw r with phase := .done }, o)
  else if o.length < d.toNat then .error .distanceOutOfRange
  else if cap < o.length + (raw.toNat + 3) then .error .outputOverflow
  else .ok ({ latchFields d raw r with i := copyLength raw }, copyRun d.toNat (raw.toNat + 3) o)

/-- The end of a token over the output `o` (42_decoder.md R99 to R103, R106). What is no token is not asked. -/
def tokenOutcome (cap : Nat) (o : List Byte) (r : DecRegs) : Instr → Except ErrCode (DecRegs × List Byte)
  | .lit b => if cap < o.length + 1 then .error .outputOverflow else .ok ({ r with opcode := 1 }, o ++ [b])
  | .ref d raw => opcodeZeroOutcome cap o r d raw
  | .endStream raw => opcodeZeroOutcome cap o r 0 raw
  | _ => .ok (r, o)

/-- DECODE running with the registers `r`, the cursor at `p`, `OUT` at `m` and OUT_LEN at `l`, the rest as in `u`. -/
def decoderAt (r : DecRegs) (p : Nat) (m : Memory) (l : Nat) (u : State) : State :=
  { u with brPos := BitVec.ofNat 35 p, outMem := m, outLen := BitVec.ofNat 32 l, engine := .decoding r }

/-- The answer `x` of a token that ends at `p` is the outcome's: DECODE failed, or runs on with the new output. -/
def TokenAnswers (u : State) (p : Nat) (x : Exec) : Except ErrCode (DecRegs × List Byte) → Prop
  | .error e => x = .next (decodeFailed e p [] u)
  | .ok (r', o') => ∃ m, x = .next (decoderAt r' p m o'.length u) ∧ OutputIs (decoderAt r' p m o'.length u) o' ∧
      o'.length ≤ u.cfg.outCap ∧ ∀ a, o'.length ≤ a → memRead m a = memRead u.outMem a

section
variable {u : State} {r : DecRegs} {o : List Byte}

theorem OutputIs.ofNat_length (h : OutputIs u o) : BitVec.ofNat 32 o.length = u.outLen := by
  rw [h.1, BitVec.ofNat_toNat, BitVec.setWidth_eq]

theorem outputIs_congr {v : State} (hl : v.outLen = u.outLen) (hm : v.outMem = u.outMem) :
    OutputIs v o ↔ OutputIs u o := by
  rw [OutputIs, OutputIs, hl, hm]

/-- An appended byte is the output's last (42_decoder.md R103). -/
theorem OutputIs.append (h : OutputIs u o) (b : Byte) (h32 : o.length + 1 < 2 ^ 32) (r' : DecRegs) (p : Nat) :
    OutputIs (decoderAt r' p (memWrite u.outMem o.length b) (o ++ [b]).length u) (o ++ [b]) := by
  have hlen : (o ++ [b]).length = o.length + 1 := by simp
  refine ⟨?_, fun i hi => ?_⟩
  · rw [decoderAt, BitVec.toNat_ofNat, hlen, Nat.mod_eq_of_lt h32]
  · rw [decoderAt, memRead_memWrite]
    split
    · next heq => rw [heq, List.getElem?_append_right (Nat.le_refl _), Nat.sub_self]; rfl
    · next hne => rw [h.2 i (by omega), List.getElem?_append_left (by omega)]

theorem execLit_answers (hr : u.engine = .decoding r) (hp : r.phase = .tokenLoop) (ho : OutputIs u o)
    (hcap : o.length ≤ u.cfg.outCap) (h32 : u.cfg.outCap < 2 ^ 32) (b : BitVec 8) :
    TokenAnswers u (u.brPos.toNat + 9) (execLit b u) (tokenOutcome u.cfg.outCap o r (.lit b)) := by
  have hlen := ho.1
  rw [tokenOutcome]
  split
  · next hfull =>
    rw [TokenAnswers, execLit_eq_next]
    exact ⟨r, hr, hp, .inl ⟨by omega, (raise_withholdOutput_advance ..).symm⟩⟩
  · next hroom =>
    have hout : u.outLen + 1 = BitVec.ofNat 32 (o ++ [b]).length := by
      apply BitVec.eq_of_toNat_eq
      simp [BitVec.toNat_add]
      omega
    refine ⟨memWrite u.outMem o.length b, ?_, ho.append b (by omega) _ _, by simp; omega,
      fun a ha => memRead_memWrite_other _ _ (by simp at ha; omega)⟩
    rw [execLit_eq_next]
    refine ⟨r, hr, hp, .inr ⟨by omega, ?_⟩⟩
    rw [hout, ← hlen]
    rfl

theorem opcodeZero_answers (hr : u.engine = .decoding r) (hp : r.phase = .tokenLoop) (ho : OutputIs u o)
    (hcap : o.length ≤ u.cfg.outCap) (h32 : u.cfg.outCap < 2 ^ 32) (d raw : BitVec 15) :
    TokenAnswers u (u.brPos.toNat + (1 + r.csw.toNat + r.clw.toNat)) (opcodeZero d raw u)
      (opcodeZeroOutcome u.cfg.outCap o r d raw) := by
  have hlen := ho.1
  set u' := setDec (latchFields d raw r) (advance (1 + r.csw.toNat + r.clw.toNat) u) with hu'
  have hexpand : ∀ t, d ≠ 0 → expandRef (latchFields d raw r) u' = .next t → opcodeZero d raw u = .next t :=
    fun t hd h => opcodeZero_eq_next.2 ⟨r, hr, hp, .inr ⟨hd, h⟩⟩
  unfold opcodeZeroOutcome
  split_ifs with hd hfar hover
  · have hsame : decoderAt { latchFields d raw r with phase := .done } (u.brPos.toNat + (1 + r.csw.toNat + r.clw.toNat))
        u.outMem o.length u = setDec { latchFields d raw r with phase := .done }
          (advance (1 + r.csw.toNat + r.clw.toNat) u) := by
      rw [decoderAt, ho.ofNat_length]; rfl
    refine ⟨u.outMem, ?_, ?_, hcap, fun _ _ => rfl⟩
    · rw [hsame]
      exact opcodeZero_eq_next.2 ⟨r, hr, hp, .inl ⟨hd, rfl⟩⟩
    · rw [hsame]
      exact (outputIs_congr rfl rfl).2 ho
  · refine hexpand _ hd ?_
    rw [expandRef_eq_next, hu', raise_withholdOutput_advance]
    exact .inl ⟨hlen ▸ hfar, rfl⟩
  · refine hexpand _ hd ?_
    rw [expandRef_eq_next, latchFields_length_toNat, hu', raise_withholdOutput_advance]
    exact .inr (.inl ⟨hlen ▸ Nat.not_lt.1 hfar, hlen ▸ hover, rfl⟩)
  · have hd1 : 1 ≤ d.toNat := Nat.one_le_iff_ne_zero.2 fun h => hd (BitVec.eq_of_toNat_eq h)
    obtain ⟨m, l, hcopy, hout, hrest⟩ := copyBytes_output (u := u') (n := raw.toNat + 3)
      ((outputIs_congr rfl rfl).2 ho) hd1 (Nat.not_lt.1 hfar) (Nat.not_lt.1 hover) h32
    have hl : BitVec.ofNat 32 (copyRun d.toNat (raw.toNat + 3) o).length = l := hout.ofNat_length
    have hstate : decoderAt { latchFields d raw r with i := copyLength raw }
        (u.brPos.toNat + (1 + r.csw.toNat + r.clw.toNat)) m (copyRun d.toNat (raw.toNat + 3) o).length u =
        setDec { latchFields d raw r with i := copyLength raw } { u' with outMem := m, outLen := l } := by
      rw [decoderAt, hl]; rfl
    refine ⟨m, ?_, ?_, by rw [copyRun_length]; exact Nat.not_lt.1 hover, fun a ha => ?_⟩
    · rw [hstate]
      refine hexpand _ hd ?_
      rw [expandRef_eq_next, latchFields_length_toNat]
      exact .inr (.inr ⟨hlen ▸ Nat.not_lt.1 hfar, hlen ▸ Nat.not_lt.1 hover, _, hcopy, rfl⟩)
    · rw [hstate]
      exact (outputIs_congr rfl rfl).2 hout
    · rw [copyRun_length] at ha
      exact hrest a ha

/-- A token answers its outcome (42_decoder.md R99 to R106). -/
theorem execItem_answers {i : Instr} (hr : u.engine = .decoding r) (hp : r.phase = .tokenLoop) (ho : OutputIs u o)
    (hcap : o.length ≤ u.cfg.outCap) (h32 : u.cfg.outCap < 2 ^ 32) (hi : i.isStreamItem = true)
    (hne : ∀ c l, i ≠ .hdr c l) :
    TokenAnswers u (u.brPos.toNat + itemLength r.csw r.clw i) (execItem i u) (tokenOutcome u.cfg.outCap o r i) := by
  cases i with
  | hdr c l => exact absurd rfl (hne c l)
  | lit b => exact execLit_answers hr hp ho hcap h32 b
  | ref d raw => exact opcodeZero_answers hr hp ho hcap h32 d raw
  | endStream raw => exact opcodeZero_answers hr hp ho hcap h32 0 raw
  | _ => cases hi

end

/-! ### A running decoder -/

/-- DECODE runs with the registers `r` and has put out `o`: the output is within the capacity, the cursor is at the
start or within `IN`, HDR shows the header once it is read (42_decoder.md R91 to R98). -/
structure Decoding (u : State) (r : DecRegs) (o : List Byte) : Prop where
  engine : u.engine = .decoding r
  output : OutputIs u o
  outCap : o.length ≤ u.cfg.outCap
  small : u.cfg.outCap < 2 ^ 32
  start : 8 * r.start.toNat ≤ u.brPos.toNat
  header : r.phase = .readHeader → u.brPos.toNat = 8 * r.start.toNat
  loop : r.phase ≠ .readHeader → u.brPos.toNat ≤ 8 * u.inLen.toNat ∧ u.hdrCsw = r.csw ∧ u.hdrClw = r.clw

section
variable {s u v : State} {r r' : DecRegs} {o : List Byte} {i : Instr} {n : Nat}

theorem Decoding.begin (hc : s.cfg.outCap < 2 ^ 32) : Decoding (beginDecode s) (DecRegs.init s.arg0) [] := by
  have harg := s.arg0.isLt
  have hpos : (beginDecode s).brPos.toNat = 8 * s.arg0.toNat := toNat_ofNat35 (by rw [startBit]; omega)
  exact ⟨rfl, ⟨rfl, fun i hi => absurd hi (Nat.not_lt_zero _)⟩, Nat.zero_le _, hc, Nat.le_of_eq hpos.symm,
    fun _ => hpos, fun hp => absurd rfl hp⟩

theorem Decoding.running (h : Decoding u r o) : engineIdle u = false := engineIdle_of_decoding h.engine

/-- The state after the header `c`, `l` is read (42_decoder.md R98). -/
def afterHeader (c l : BitVec 4) (r : DecRegs) (u : State) : State :=
  setDec { r with phase := .tokenLoop, csw := c, clw := l } { advance 8 u with hdrCsw := c, hdrClw := l }

theorem Decoding.engineStep_eq (h : Decoding u r o) : engineStep u = decoderStep r u := engineStep_of_decoding h.engine

/-- A cursor just past a fetched item. -/
theorem toNat_ofNat_of_fetchItem (hf : fetchItem r u = some (.item i n)) :
    (BitVec.ofNat 35 n).toNat = n ∧ u.brPos.toNat ≤ n ∧ n ≤ 8 * u.inLen.toNat := by
  obtain ⟨-, hn, hle, -⟩ := fetchItem_item hf
  have hin := u.inLen.isLt
  exact ⟨toNat_ofNat35 (by omega), by omega, hle⟩

/-- The header's step. -/
theorem Decoding.step_header {c l : BitVec 4} (h : Decoding u r o) (hf : fetchItem r u = some (.item (.hdr c l) n)) :
    engineStep u = .next (afterHeader c l r u) ∧
      Decoding (afterHeader c l r u) { r with phase := .tokenLoop, csw := c, clw := l } o := by
  obtain ⟨-, hn, hle, ⟨hp, -⟩ | ⟨-, hne⟩⟩ := fetchItem_item hf
  swap
  · exact absurd rfl (hne c l)
  obtain ⟨hpos, hge, -⟩ := toNat_ofNat_of_fetchItem hf
  rw [hn] at hpos hge hle
  refine ⟨?_, rfl, h.output, h.outCap, h.small, ?_, (fun hp' => by cases hp'), fun _ => ⟨?_, rfl, rfl⟩⟩
  · rw [h.engineStep_eq, decoderStep_of_item hf]
    exact execHdr_eq_next.2 ⟨r, h.engine, hp, rfl⟩
  · exact hpos.symm ▸ h.start.trans hge
  · exact hpos.symm ▸ hle

/-- A token's step: DECODE fails, or runs on with the new output. -/
theorem Decoding.step_token (h : Decoding u r o) (hp : r.phase = .tokenLoop)
    (hf : fetchItem r u = some (.item i n)) : TokenAnswers u n (engineStep u) (tokenOutcome u.cfg.outCap o r i) := by
  obtain ⟨hi, hn, -, ⟨hp', -⟩ | ⟨-, hne⟩⟩ := fetchItem_item hf
  · rw [hp] at hp'; cases hp'
  rw [h.engineStep_eq, decoderStep_of_item hf, hn]
  exact execItem_answers h.engine hp h.output h.outCap h.small hi hne

theorem opcodeZeroOutcome_ok {cap : Nat} {d raw : BitVec 15} {o' : List Byte}
    (h : opcodeZeroOutcome cap o r d raw = .ok (r', o')) (hp : r.phase = .tokenLoop) :
    r'.phase ≠ .readHeader ∧ r'.start = r.start ∧ r'.csw = r.csw ∧ r'.clw = r.clw := by
  unfold opcodeZeroOutcome at h
  split_ifs at h
  · cases h; exact ⟨by simp, rfl, rfl, rfl⟩
  · cases h; exact ⟨by simp [latchFields, hp], rfl, rfl, rfl⟩

theorem tokenOutcome_ok {cap : Nat} {o' : List Byte} (h : tokenOutcome cap o r i = .ok (r', o'))
    (hp : r.phase = .tokenLoop) :
    r'.phase ≠ .readHeader ∧ r'.start = r.start ∧ r'.csw = r.csw ∧ r'.clw = r.clw := by
  cases i with
  | ref d raw => exact opcodeZeroOutcome_ok h hp
  | endStream raw => exact opcodeZeroOutcome_ok h hp
  | lit b =>
    rw [tokenOutcome] at h
    split_ifs at h
    cases h
    exact ⟨by simp [hp], rfl, rfl, rfl⟩
  | _ => cases h; exact ⟨by simp [hp], rfl, rfl, rfl⟩

/-- After a token that goes on, the decoder runs on. -/
theorem Decoding.after_token {m : Memory} {o' : List Byte} (h : Decoding u r o) (hp : r.phase = .tokenLoop)
    (hf : fetchItem r u = some (.item i n)) (hok : tokenOutcome u.cfg.outCap o r i = .ok (r', o'))
    (hout : OutputIs (decoderAt r' n m o'.length u) o') (hcap : o'.length ≤ u.cfg.outCap) :
    Decoding (decoderAt r' n m o'.length u) r' o' := by
  obtain ⟨hpos, hge, hle⟩ := toNat_ofNat_of_fetchItem hf
  obtain ⟨hp', hs', hc', hl'⟩ := tokenOutcome_ok hok hp
  obtain ⟨-, hc, hl⟩ := h.loop (by simp [hp])
  refine ⟨rfl, hout, hcap, h.small, ?_, fun h => absurd h hp', fun _ => ⟨?_, hc.trans hc'.symm, hl.trans hl'.symm⟩⟩
  · rw [hs']
    exact hpos.symm ▸ h.start.trans hge
  · exact hpos.symm ▸ hle

/-- Where bits run out DECODE fails (42_decoder.md R105). -/
theorem Decoding.step_lacks (h : Decoding u r o) (hf : fetchItem r u = some (.lacks n)) :
    engineStep u = .next (decodeFailed .malformedStream n [] u) := by
  rw [h.engineStep_eq, decoderStep, hf]
  rfl

theorem Decoding.step_noValue (h : Decoding u r o) (hf : fetchItem r u = some (.noValue n)) :
    engineStep u = .fault (.inByteUnwritten n) := by
  rw [h.engineStep_eq, decoderStep, hf]

/-- The exit (42_decoder.md R104). -/
theorem Decoding.step_exit (h : Decoding u r o) (hf : fetchItem r u = none) :
    engineStep u = .next (exitDecode r u) := by
  rw [h.engineStep_eq, decoderStep, hf]

/-- A header that lacks bits is not within `IN_LEN`. -/
theorem Decoding.inLen_le_of_lacks (h : Decoding u r o) (hp : r.phase = .readHeader)
    (hf : fetchItem r u = some (.lacks n)) : u.inLen.toNat ≤ r.start.toNat := by
  have hpos := h.header hp
  rw [fetchItem, hp] at hf
  obtain hlack | ⟨c, p1, hc, hlack⟩ := parseHeader_eq_lacks.1 (Option.some.inj hf)
  · obtain ⟨⟨-, hlt⟩, -⟩ := brRead_eq_lacks.1 hlack
    omega
  · obtain ⟨-, rfl, -⟩ := brRead_eq_ok.1 hc
    obtain ⟨⟨-, hlt⟩, -⟩ := brRead_eq_lacks.1 hlack
    omega

theorem fetchItem_token (hp : r.phase ≠ .readHeader) (hf : fetchItem r u = some (.item i n)) :
    r.phase = .tokenLoop := by
  obtain ⟨-, -, -, ⟨hp', -⟩ | ⟨hp', -⟩⟩ := fetchItem_item hf
  · exact absurd hp' hp
  · exact hp'

end

end Sys2Proof.Machine
end

section
/-! SUPPORT. Whole runs of DECODE: the engine's steps are the machine's (10_state.md R32), DECODE always ends
(42_decoder.md R94), its cursor and RESULT at the end (R104), and what it depends on (R95). -/

namespace Sys2Proof.Machine

/-! ### The command and its engine steps -/

theorem core_run_succ (M : Host.Core) (n : Nat) (a : M.State) : M.run (n + 1) a =
    (match M.step a with
     | .next b => M.run n b
     | .fault r => .fault r
     | .refused r => .refused r) := rfl

section
variable {s : State} {n : Nat}

theorem run_fault {r : Fault} (h : step s = .fault r) : core.run (n + 1) s = .fault r :=
  (core_run_succ core n s).trans (by rw [show core.step s = .fault r from h])

theorem run_refused {r : Refusal} (h : step s = .refused r) : core.run (n + 1) s = .refused r :=
  (core_run_succ core n s).trans (by rw [show core.step s = .refused r from h])

end

theorem engineStep_host {s t : State} (h : engineStep s = .next t) : t.host = s.host := by
  cases he : s.engine with
  | idle => rw [engineStep, he] at h; cases h; rfl
  | decoding r => rw [engineStep, he] at h; exact (decoderStep_keeps h).host
  | encoding e => rw [engineStep, he] at h; exact (encoderStep_keeps h).host

/-- With no host move pending the machine's run is the engine's. -/
theorem run_eq_runEngine {n : Nat} {s : State} (hh : s.host = []) : core.run n s = runEngine n s := by
  induction n generalizing s with
  | zero => rfl
  | succ n ih =>
    cases hi : engineIdle s with
    | true => rw [run_next (step_no_move hi hh), ih hh, runEngine_of_idle hi, runEngine_of_idle hi]
    | false =>
      have hstep : step s = engineStep s := step_of_running hi (by simp [hh])
      rw [runEngine_succ hi]
      cases hs : engineStep s with
      | next t => rw [run_next (hstep.trans hs), ih ((engineStep_host hs).trans hh), andThen_next]
      | fault r => exact run_fault (hstep.trans hs)
      | refused r => exact run_refused (hstep.trans hs)

/-- Settles O43: the run of the machine from the issue is the run of the engine, which is the command's body. -/
theorem commandIsItsEngineSteps : Obligations.CommandIsItsEngineSteps := by
  intro s hr hh
  constructor
  · rw [exec_decode, command_of_ready hr.1 hr.2]
    exact run_eq_runEngine hh
  · rw [exec_encode, command_of_ready hr.1 hr.2]
    exact run_eq_runEngine hh

/-- DECODE that answers from where it may run is its engine's run from the issue, to its end. -/
theorem exec_decode_of_ready {s : State} (hr : Ready s) : exec .decode s =
    runEngine (decodeBound (issue 0x0000000B s)) (beginDecode (issue 0x0000000B s)) := by
  rw [exec_decode, command_of_ready hr.1 hr.2]
  rfl

/-! ### One step of a running decoder -/

/-- What a step of a running decoder leaves: the exit's state, a failed DECODE, or a decoder that runs on. -/
inductive DecodeStep (u : State) (r : DecRegs) : State → Prop where
  | exit (hp : r.phase = .done) : DecodeStep u r (exitDecode r u)
  | failed (e : ErrCode) (p : Nat) : DecodeStep u r (decodeFailed e p [] u)
  | runs (v : State) (r' : DecRegs) (o' : List Byte) (h : Decoding v r' o') (hs : r'.start = r.start) : DecodeStep u r v

section
variable {s u v t : State} {r : DecRegs} {o : List Byte} {k n : Nat}

theorem Decoding.engine_ne_idle (h : Decoding u r o) : u.engine ≠ .idle := by
  rw [h.engine]
  simp

/-- A running decoder's step answers, unless its fetch needs a byte the host never wrote. -/
theorem Decoding.step (h : Decoding u r o) :
    (∃ k, fetchItem r u = some (.noValue k) ∧ engineStep u = .fault (.inByteUnwritten k)) ∨
    ∃ v, engineStep u = .next v ∧ DecodeStep u r v := by
  cases hf : fetchItem r u with
  | none => exact .inr ⟨_, h.step_exit hf, .exit (fetchItem_eq_none.1 hf)⟩
  | some p =>
    cases p with
    | lacks n => exact .inr ⟨_, h.step_lacks hf, .failed _ _⟩
    | noValue k => exact .inl ⟨k, rfl, h.step_noValue hf⟩
    | item i n =>
      by_cases hp : r.phase = .readHeader
      · obtain ⟨-, -, -, ⟨-, c, l, rfl⟩ | ⟨hp', -⟩⟩ := fetchItem_item hf
        · obtain ⟨hstep, hdec⟩ := h.step_header hf
          exact .inr ⟨_, hstep, .runs _ _ _ hdec rfl⟩
        · rw [hp] at hp'; cases hp'
      have hloop := fetchItem_token hp hf
      have hans := h.step_token hloop hf
      cases hout : tokenOutcome u.cfg.outCap o r i with
      | error e => rw [hout] at hans; exact .inr ⟨_, hans, .failed _ _⟩
      | ok ro =>
        obtain ⟨r', o'⟩ := ro
        rw [hout] at hans
        obtain ⟨m, hstep, houtput, hcap, -⟩ := hans
        obtain ⟨-, hs, -⟩ := tokenOutcome_ok hout hloop
        exact .inr ⟨_, hstep, .runs _ _ _ (h.after_token hloop hf hout houtput hcap) hs⟩

/-! ### Reads of bytes the host never wrote -/

theorem streamBits_eq_error {m : Memory} {p w : Nat} (h : streamBits m p w = .error k) :
    ∃ i, i < w ∧ k = (p + i) / 8 ∧ memRead m k = none := by
  induction w generalizing p with
  | zero => cases h
  | succ w ih =>
    rw [streamBits] at h
    split at h
    · next hb =>
      cases h
      unfold streamBit at hb
      split at hb
      · cases hb
      · next hm => cases hb; exact ⟨0, Nat.succ_pos w, rfl, hm⟩
    · split at h
      · next hbs =>
        cases h
        obtain ⟨i, hi, hk, hm⟩ := ih hbs
        exact ⟨i + 1, by omega, by rw [hk]; congr 1; omega, hm⟩
      · cases h

/-- A read that finds no value does so at an unwritten byte between its cursor and IN_LEN. -/
theorem brRead_eq_noValue {m : Memory} {inLen p w : Nat} (h : brRead m inLen p w = .noValue k) :
    p / 8 ≤ k ∧ k < inLen ∧ memRead m k = none := by
  unfold brRead at h
  split at h
  · cases h
  · split at h
    · cases h
    · next herr =>
      cases h
      obtain ⟨i, hi, hk, hm⟩ := streamBits_eq_error herr
      exact ⟨by omega, by omega, hm⟩

theorem FieldRead.andThen_eq_noValue {x : FieldRead} {f : Nat → Nat → Parse} :
    x.andThen f = .noValue k ↔ x = .noValue k ∨ ∃ a p, x = .ok a p ∧ f a p = .noValue k := by
  cases x <;> simp [Sys2Proof.FieldRead.andThen]

/-- A read does not move the cursor back. -/
theorem inReader_le {p w b q : Nat} (h : inReader u p w = .ok b q) : p ≤ q := by
  obtain ⟨-, rfl, -⟩ := brRead_eq_ok.1 h
  exact Nat.le_add_right ..

/-- A parse that finds no value does so in one of its reads, at or past its cursor. -/
theorem fetchItem_noValue (h : fetchItem r u = some (.noValue k)) :
    ∃ p w, u.brPos.toNat ≤ p ∧ inReader u p w = .noValue k := by
  unfold fetchItem at h
  split at h
  · have h := Option.some.inj h
    rw [parseHeader] at h
    obtain h | ⟨c, p1, h1, h⟩ := FieldRead.andThen_eq_noValue.1 h
    · exact ⟨_, _, Nat.le_refl _, h⟩
    obtain h | ⟨l, p2, -, h⟩ := FieldRead.andThen_eq_noValue.1 h
    · exact ⟨_, _, inReader_le h1, h⟩
    · cases h
  · have h := Option.some.inj h
    rw [parseToken] at h
    obtain h | ⟨c, p1, h1, h⟩ := FieldRead.andThen_eq_noValue.1 h
    · exact ⟨_, _, Nat.le_refl _, h⟩
    split at h
    · obtain h | ⟨d, p2, h2, h⟩ := FieldRead.andThen_eq_noValue.1 h
      · exact ⟨_, _, inReader_le h1, h⟩
      obtain h | ⟨raw, p3, -, h⟩ := FieldRead.andThen_eq_noValue.1 h
      · exact ⟨_, _, (inReader_le h1).trans (inReader_le h2), h⟩
      · cases h
    · obtain h | ⟨b, p2, -, h⟩ := FieldRead.andThen_eq_noValue.1 h
      · exact ⟨_, _, inReader_le h1, h⟩
      · cases h
  · cases h

/-- Where the stream's bytes have been written a fetch finds its values. -/
theorem Decoding.fetchItem_ne_noValue (h : Decoding u r o)
    (hw : ∀ i, r.start.toNat ≤ i → i < u.inLen.toNat → (memRead u.inMem i).isSome = true) :
    fetchItem r u ≠ some (.noValue k) := by
  intro hf
  obtain ⟨p, w, hp, hread⟩ := fetchItem_noValue hf
  obtain ⟨hk, hlt, hnone⟩ := brRead_eq_noValue hread
  have hstart := h.start
  have hsome := hw k (by omega) hlt
  rw [hnone] at hsome
  cases hsome

/-! ### DECODE always ends -/

/-- `u` is DECODE from `s` between its steps, or after its end. -/
def DecodeGoes (s u : State) : Prop :=
  DecoderKeeps s u ∧ (engineIdle u = true ∨ ∃ r o, Decoding u r o ∧ r.start = s.arg0)

theorem DecodeGoes.begin (hc : s.cfg.outCap < 2 ^ 32) : DecodeGoes s (beginDecode s) :=
  ⟨⟨rfl, rfl, rfl, rfl, rfl, rfl, rfl, rfl⟩, .inr ⟨_, _, Decoding.begin hc, rfl⟩⟩

theorem DecodeGoes.step (hw : StreamWritten s) (h : DecodeGoes s u) (hi : engineIdle u = false) :
    ∃ v, engineStep u = .next v ∧ DecodeGoes s v := by
  obtain ⟨hkeeps, hidle | ⟨r, o, hdec, hstart⟩⟩ := h
  · rw [hi] at hidle; cases hidle
  obtain ⟨k, hf, -⟩ | ⟨v, hv, hstep⟩ := hdec.step
  · refine absurd hf (hdec.fetchItem_ne_noValue fun i h1 h2 => ?_)
    rw [hkeeps.inMem]
    exact hw i (hstart ▸ h1) (hkeeps.inLen ▸ h2)
  · refine ⟨v, hv, hkeeps.trans (decoderStep_keeps (hdec.engineStep_eq ▸ hv)), ?_⟩
    cases hstep with
    | exit => exact .inl rfl
    | failed => exact .inl rfl
    | runs _ r' o' hdec' hs => exact .inr ⟨r', o', hdec', hs.trans hstart⟩

/-- Settles O40: every step of DECODE on a written stream answers, so the run does, and a run that answers has ended. -/
theorem decodeAlwaysEnds : Obligations.DecodeAlwaysEnds := by
  intro s hr hlegal hw
  obtain ⟨-, -, -, hcap⟩ := Config.legal_bounds hlegal
  obtain ⟨t, ht, -⟩ := runEngine_total (n := decodeBound (issue 0x0000000B s))
    (fun u hu hi => DecodeGoes.step (s := issue 0x0000000B s) hw hu hi)
    (DecodeGoes.begin (Nat.lt_of_le_of_lt hcap (by decide)))
  have hexec : exec .decode s = .next t := (exec_decode_of_ready hr).trans ht
  obtain ⟨-, ⟨hlong, -⟩ | ⟨-, -, hidle, hends⟩⟩ := exec_decode_eq_next hexec
  · exact absurd hlong (Nat.not_lt.2 hr.2)
  refine ⟨t, hexec, (engineIdle_iff t).2 hidle, ?_⟩
  obtain ⟨hdone, -⟩ | ⟨e, herr, hfail, -⟩ := hends
  · rw [hdone]
    exact ⟨rfl, rfl, .inl rfl⟩
  · rw [hfail]
    exact ⟨rfl, rfl, .inr herr⟩

/-! ### The cursor at the end -/

/-- Between the steps of DECODE from the byte `a` it runs; after an end without error the cursor is RESULT bytes past
`a` (42_decoder.md R104). -/
def CursorTold (a : Word) (u : State) : Prop :=
  (∃ r o, Decoding u r o ∧ r.start = a) ∨
  (engineIdle u = true ∧ (u.status.err = false → u.brPos.toNat = 8 * (a.toNat + u.result.toNat)))

theorem Decoding.exit_told (h : Decoding u r o) (hp : r.phase = .done) :
    (exitDecode r u).brPos.toNat = 8 * (r.start.toNat + (exitDecode r u).result.toNat) := by
  obtain ⟨hend, -⟩ := h.loop (by simp [hp])
  have hstart := h.start
  have hin := u.inLen.isLt
  have hceil := ceil8_le hend
  have hge := le_ceil8 u.brPos.toNat
  have hmod := ceil8_mod u.brPos.toNat
  rw [exitDecode, complete_brPos, complete_result, setBrPos_brPos, toNat_ofNat35 (by omega), BitVec.toNat_ofNat,
    Nat.mod_eq_of_lt (by omega)]
  omega

theorem CursorTold.step {a : Word} (h : CursorTold a u) (hi : engineIdle u = false) (hv : engineStep u = .next v) :
    CursorTold a v := by
  obtain ⟨r, o, hdec, rfl⟩ | ⟨hidle, -⟩ := h
  swap
  · rw [hi] at hidle; cases hidle
  obtain ⟨k, -, hfault⟩ | ⟨v', hv', hstep⟩ := hdec.step
  · rw [hfault] at hv; cases hv
  rw [hv'] at hv
  cases hv
  cases hstep with
  | exit hp => exact .inr ⟨rfl, fun _ => hdec.exit_told hp⟩
  | failed => exact .inr ⟨rfl, fun herr => by cases herr⟩
  | runs _ r' o' hdec' hs => exact .inl ⟨r', o', hdec', hs⟩

/-- Settles O42: after DECODE without error the cursor stands RESULT bytes past ARG0, which BR_BYTE_POS reports. -/
theorem bytePosAfterDecode : Obligations.BytePosAfterDecode := by
  intro s t hinv hr hexec herr
  obtain ⟨-, -, -, hcap⟩ := Config.legal_bounds hinv.params
  have hrun := (exec_decode_of_ready hr).symm.trans hexec
  have htold := runEngine_induct (P := CursorTold s.arg0) (fun u v hu hi hv => hu.step hi hv)
    (.inl ⟨_, _, Decoding.begin (s := issue 0x0000000B s) (Nat.lt_of_le_of_lt hcap (by decide)), rfl⟩) hrun
  obtain ⟨hended, hidle, -⟩ := exec_command_ended (csw := 0) (clw := 0) rfl hexec
  obtain ⟨hin, hinLen, -, -, hcfg⟩ := noInstructionWritesTheHostsState s t .decode hexec
  have hpos : t.brPos.toNat = 8 * (s.arg0.toNat + t.result.toNat) := by
    obtain ⟨r, o, hdec, -⟩ | ⟨-, hpos⟩ := htold
    · exact absurd hidle hdec.engine_ne_idle
    · exact hpos herr
  have hready : Ready t := ⟨hended.fields.1, by rw [hinLen, hcfg]; exact hr.2⟩
  obtain ⟨v, hv, hvalue⟩ := (brBytePosReportsTheByte t hready).2 (by omega)
  exact ⟨v, hv, by omega⟩

end

/-! ### What DECODE depends on -/

section
variable {u v u' : State} {r : DecRegs} {o : List Byte} {a : Word}

theorem FieldRead.andThen_congr {x : FieldRead} {f g : Nat → Nat → Parse}
    (h : ∀ b p, x = .ok b p → f b p = g b p) : x.andThen f = x.andThen g := by
  cases x with
  | ok b p => exact h b p rfl
  | _ => rfl

/-- A parse depends on its reads at and past its cursor only. -/
theorem parseHeader_congr {rd rd' : FieldReader} {pos : Nat} (h : ∀ p w, pos ≤ p → rd p w = rd' p w)
    (hmono : ∀ p w b q, rd p w = .ok b q → p ≤ q) : parseHeader rd pos = parseHeader rd' pos := by
  rw [parseHeader, parseHeader, ← h pos 4 (Nat.le_refl _)]
  refine FieldRead.andThen_congr fun c p1 h1 => ?_
  rw [h p1 4 (hmono _ _ _ _ h1)]

theorem parseToken_congr {rd rd' : FieldReader} {csw clw : Nibble} {pos : Nat} (h : ∀ p w, pos ≤ p → rd p w = rd' p w)
    (hmono : ∀ p w b q, rd p w = .ok b q → p ≤ q) : parseToken rd csw clw pos = parseToken rd' csw clw pos := by
  rw [parseToken, parseToken, ← h pos 1 (Nat.le_refl _)]
  refine FieldRead.andThen_congr fun opcode p1 h1 => ?_
  have hp1 := hmono _ _ _ _ h1
  rw [← h p1 csw.toNat hp1, ← h p1 8 hp1]
  split
  · refine FieldRead.andThen_congr fun d p2 h2 => ?_
    rw [h p2 clw.toNat (hp1.trans (hmono _ _ _ _ h2))]
  · rfl

/-- Two states agree on what DECODE from the byte `a` reads and on where it stands. -/
structure SameInput (a : Word) (u v : State) : Prop where
  brPos : v.brPos = u.brPos
  inLen : v.inLen = u.inLen
  outCap : v.cfg.outCap = u.cfg.outCap
  status : v.status = u.status
  inMem : ∀ i, a.toNat ≤ i → i < u.inLen.toNat → memRead u.inMem i = memRead v.inMem i

/-- Two ends of DECODE from the byte `a` agree: but for HDR where there is no header byte (42_decoder.md R95, R98). -/
structure SameEnd (a : Word) (u v : State) : Prop where
  idle : u.engine = .idle ∧ v.engine = .idle
  status : v.status = u.status
  outLen : v.outLen = u.outLen
  result : v.result = u.result
  brPos : v.brPos = u.brPos
  output : ∃ o, OutputIs u o ∧ OutputIs v o
  hdr : a.toNat < u.inLen.toNat → v.hdrCsw = u.hdrCsw ∧ v.hdrClw = u.hdrClw

/-- Two runs of DECODE from the byte `a` agree, in the middle or at the end. -/
def DecodeAgree (a : Word) (u v : State) : Prop :=
  (∃ r o, Decoding u r o ∧ Decoding v r o ∧ r.start = a ∧ SameInput a u v) ∨ SameEnd a u v

theorem fetchItem_congr (h : Decoding u r o) (hs : SameInput r.start u v) : fetchItem r v = fetchItem r u := by
  have hread : ∀ p w, u.brPos.toNat ≤ p → inReader u p w = inReader v p w := by
    intro p w hp
    have hstart := h.start
    rw [inReader, inReader, hs.inLen]
    exact brRead_congr fun i h1 h2 => hs.inMem i (by omega) h2
  have hmono : ∀ p w b q, inReader u p w = .ok b q → p ≤ q := fun _ _ _ _ => inReader_le
  rw [fetchItem, fetchItem, hs.brPos, parseHeader_congr hread hmono, parseToken_congr hread hmono]

/-- Two failures of DECODE at the same place agree. -/
theorem SameEnd.failed (e : ErrCode) (p : Nat)
    (hhdr : a.toNat < u.inLen.toNat → v.hdrCsw = u.hdrCsw ∧ v.hdrClw = u.hdrClw) :
    SameEnd a (decodeFailed e p [] u) (decodeFailed e p [] v) :=
  ⟨⟨rfl, rfl⟩, rfl, rfl, rfl, rfl,
    ⟨[], ⟨rfl, fun _ hi => absurd hi (Nat.not_lt_zero _)⟩, ⟨rfl, fun _ hi => absurd hi (Nat.not_lt_zero _)⟩⟩, hhdr⟩

/-- HDR agrees once the header is read. -/
theorem Decoding.hdr_eq (hu : Decoding u r o) (hv : Decoding v r o) (hp : r.phase ≠ .readHeader) :
    v.hdrCsw = u.hdrCsw ∧ v.hdrClw = u.hdrClw := by
  obtain ⟨-, huc, hul⟩ := hu.loop hp
  obtain ⟨-, hvc, hvl⟩ := hv.loop hp
  exact ⟨hvc.trans huc.symm, hvl.trans hul.symm⟩

theorem SameEnd.exit (hu : Decoding u r o) (hv : Decoding v r o) (hs : SameInput r.start u v) (hp : r.phase = .done) :
    SameEnd r.start (exitDecode r u) (exitDecode r v) := by
  have hhdr := hu.hdr_eq hv (by simp [hp])
  refine ⟨⟨rfl, rfl⟩, rfl, hv.output.ofNat_length.symm.trans hu.output.ofNat_length, ?_, ?_,
    ⟨o, (outputIs_congr rfl rfl).2 hu.output, (outputIs_congr rfl rfl).2 hv.output⟩, fun _ => hhdr⟩
  · simp only [exitDecode, complete_result, hs.brPos]
  · simp only [exitDecode, complete_brPos, setBrPos_brPos, hs.brPos]

/-- A step of one run is matched by a step of the other. -/
theorem DecodeAgree.step (h : DecodeAgree a u v) (hi : engineIdle u = false) (hu' : engineStep u = .next u') :
    ∃ v', engineStep v = .next v' ∧ DecodeAgree a u' v' := by
  obtain ⟨r, o, hu, hv, rfl, hs⟩ | hend := h
  swap
  · rw [(engineIdle_iff u).2 hend.idle.1] at hi; cases hi
  cases hf : fetchItem r u with
  | none =>
    rw [hu.step_exit hf] at hu'
    cases hu'
    exact ⟨_, hv.step_exit ((fetchItem_congr hu hs).trans hf), .inr (.exit hu hv hs (fetchItem_eq_none.1 hf))⟩
  | some p =>
    have hfv : fetchItem r v = some p := (fetchItem_congr hu hs).trans hf
    cases p with
    | noValue k => rw [hu.step_noValue hf] at hu'; cases hu'
    | lacks n =>
      rw [hu.step_lacks hf] at hu'
      cases hu'
      refine ⟨_, hv.step_lacks hfv, .inr (.failed _ _ fun hlt => ?_)⟩
      by_cases hp : r.phase = .readHeader
      · exact absurd hlt (Nat.not_lt.2 (hu.inLen_le_of_lacks hp hf))
      · exact hu.hdr_eq hv hp
    | item i n =>
      by_cases hp : r.phase = .readHeader
      · obtain ⟨-, -, -, ⟨-, c, l, rfl⟩ | ⟨hp', -⟩⟩ := fetchItem_item hf
        · obtain ⟨hustep, hudec⟩ := hu.step_header hf
          obtain ⟨hvstep, hvdec⟩ := hv.step_header hfv
          rw [hustep] at hu'
          cases hu'
          refine ⟨_, hvstep, .inl ⟨_, o, hudec, hvdec, rfl, ?_, hs.inLen, hs.outCap, hs.status, hs.inMem⟩⟩
          exact congrArg (fun b : BitPos => BitVec.ofNat 35 (b.toNat + 8)) hs.brPos
        · rw [hp] at hp'; cases hp'
      have hloop := fetchItem_token hp hf
      have huans := hu.step_token hloop hf
      have hvans := hv.step_token hloop hfv
      rw [hs.outCap] at hvans
      cases hout : tokenOutcome u.cfg.outCap o r i with
      | error e =>
        rw [hout] at huans hvans
        cases huans.symm.trans hu'
        exact ⟨_, hvans, .inr (.failed _ _ fun _ => hu.hdr_eq hv hp)⟩
      | ok ro =>
        obtain ⟨r', o'⟩ := ro
        rw [hout] at huans hvans
        obtain ⟨m, hustep, huout, hucap, -⟩ := huans
        obtain ⟨m', hvstep, hvout, hvcap, -⟩ := hvans
        cases hustep.symm.trans hu'
        obtain ⟨-, hstart, -⟩ := tokenOutcome_ok hout hloop
        exact ⟨_, hvstep, .inl ⟨r', o', hu.after_token hloop hf hout huout hucap,
          hv.after_token hloop hfv (hs.outCap ▸ hout) hvout hvcap, hstart,
          rfl, hs.inLen, hs.outCap, hs.status, hs.inMem⟩⟩

theorem engineIdle_of_agree (h : DecodeAgree a u v) : engineIdle v = engineIdle u := by
  obtain ⟨r, o, hu, hv, -⟩ | hend := h
  · rw [hu.running, hv.running]
  · rw [(engineIdle_iff u).2 hend.idle.1, (engineIdle_iff v).2 hend.idle.2]

/-- Two runs that agree at the start agree at the end. -/
theorem DecodeAgree.run {n : Nat} (h : DecodeAgree a u v) (hu' : runEngine n u = .next u') :
    ∃ v', runEngine n v = .next v' ∧ DecodeAgree a u' v' := by
  induction n generalizing u v with
  | zero => cases hu'; exact ⟨v, rfl, h⟩
  | succ n ih =>
    have hiv := engineIdle_of_agree h
    cases hi : engineIdle u with
    | true =>
      rw [runEngine_of_idle hi] at hu'
      cases hu'
      exact ⟨v, runEngine_of_idle (hiv.trans hi), h⟩
    | false =>
      rw [runEngine_succ hi, andThen_eq_next] at hu'
      obtain ⟨w, hw, hu'⟩ := hu'
      obtain ⟨x, hx, hagree⟩ := h.step hi hw
      obtain ⟨v', hv', hagree'⟩ := ih hagree hu'
      exact ⟨v', by rw [runEngine_succ (hiv.trans hi), hx, andThen_next, hv'], hagree'⟩

/-- With no byte from ARG0 on DECODE fails at its first read (42_decoder.md R98, R105). -/
theorem exec_decode_of_no_header {s : State} (hr : Ready s) (hc : s.cfg.outCap < 2 ^ 32)
    (hl : s.inLen.toNat ≤ s.arg0.toNat) : exec .decode s = .next
      (decodeFailed .malformedStream (beginDecode (issue 0x0000000B s)).brPos.toNat []
        (beginDecode (issue 0x0000000B s))) := by
  have hdec : Decoding (beginDecode (issue 0x0000000B s)) _ _ := Decoding.begin hc
  have hpos := hdec.header rfl
  have hlack : inReader (beginDecode (issue 0x0000000B s)) (beginDecode (issue 0x0000000B s)).brPos.toNat 4 =
      .lacks _ := inReader_lacks_of (by decide) (by
    rw [hpos]
    change 8 * s.inLen.toNat < 8 * s.arg0.toNat + 4
    omega)
  have hf : fetchItem (DecRegs.init s.arg0) (beginDecode (issue 0x0000000B s)) = some (.lacks _) :=
    congrArg some (parseHeader_eq_lacks.2 (.inl hlack))
  rw [exec_decode_of_ready hr, decodeBound, runEngine_succ hdec.running, hdec.step_lacks hf, andThen_next]
  exact runEngine_of_idle rfl

/-- Settles O41: the runs from two states that agree on the input agree step by step; where there is no header byte
neither run gets past its first read, and HDR stays. -/
theorem decodeDependsOnItsInputOnly : Obligations.DecodeDependsOnItsInputOnly := by
  intro s u t hrs hru hinLen harg0 hin hcap hlegal hexec
  obtain ⟨-, -, -, hbound⟩ := Config.legal_bounds hlegal
  have h32 : s.cfg.outCap < 2 ^ 32 := Nat.lt_of_le_of_lt hbound (by decide)
  have hagree : DecodeAgree s.arg0 (beginDecode (issue 0x0000000B s)) (beginDecode (issue 0x0000000B u)) := by
    refine .inl ⟨DecRegs.init s.arg0, [], Decoding.begin h32, ?_, rfl, ?_, hinLen.symm, hcap.symm, rfl, hin⟩
    · rw [harg0]
      exact Decoding.begin (s := issue 0x0000000B u) (hcap ▸ h32)
    · exact congrArg (fun w : Word => BitVec.ofNat 35 (8 * w.toNat)) harg0.symm
  obtain ⟨v, hv, hend⟩ := hagree.run ((exec_decode_of_ready hrs).symm.trans hexec)
  have hbounds : decodeBound (issue 0x0000000B s) = decodeBound (issue 0x0000000B u) := by
    simp only [decodeBound, issue_inLen, issue_arg0, hinLen, harg0]
  have hexecu : exec .decode u = .next v := (exec_decode_of_ready hru).trans (hbounds ▸ hv)
  obtain ⟨-, hidle, -⟩ := exec_command_ended (csw := 0) (clw := 0) rfl hexec
  obtain ⟨r, o, hdec, -⟩ | ⟨-, hstatus, houtLen, hresult, hbrPos, ⟨o, hto, hvo⟩, hhdr⟩ := hend
  · exact absurd hidle hdec.engine_ne_idle
  obtain ⟨-, htinLen, -⟩ := noInstructionWritesTheHostsState s t .decode hexec
  refine ⟨v, hexecu, hstatus, houtLen, hresult, hbrPos, fun k hk => ?_, fun hlt => hhdr (htinLen ▸ hlt), fun hle => ?_⟩
  · rw [hto.2 k (hto.1 ▸ hk), hvo.2 k (hto.1 ▸ hk)]
  · rw [exec_decode_of_no_header hru (hcap ▸ h32) (by rw [← hinLen, ← harg0]; exact hle)] at hexecu
    cases hexecu
    exact ⟨rfl, rfl⟩

end

end Sys2Proof.Machine
end

section
/-! SUPPORT. DECODE of a well-formed stream (42_decoder.md R96): the decoder's states along the stream's bits, each step
from one to the next. -/

namespace Sys2Proof.Machine

/-! ### Items read from `IN` -/

/-- The machine's reader reads the fields of bits that stand in `IN` within `IN_LEN`. -/
theorem inReader_readsFields {s : State} {p : Nat} {bits : List Bool} (h : FieldIs s p bits)
    (hle : p + bits.length ≤ 8 * s.inLen.toNat) : ReadsFields (inReader s) p bits := by
  rintro a b v w rfl hv
  obtain ⟨-, hrest⟩ := fieldIs_append.1 h
  obtain ⟨hfield, -⟩ := fieldIs_append.1 hrest
  refine inReader_of_valBits hfield hv (.inr ?_)
  simp only [List.length_append, valBits_length] at hle
  omega

section
variable {u : State} {r : DecRegs} {csw clw : Nibble}

theorem fetchItem_hdr {c l : BitVec 4} (hp : r.phase = .readHeader)
    (hbits : FieldIs u u.brPos.toNat (itemBits csw clw (.hdr c l))) (hle : u.brPos.toNat + 8 ≤ 8 * u.inLen.toNat) :
    fetchItem r u = some (.item (.hdr c l) (u.brPos.toNat + 8)) := by
  have hlen : (itemBits csw clw (.hdr c l)).length = 8 := itemBits_length rfl
  rw [fetchItem, hp]
  exact congrArg some (parseHeader_of_readsFields (inReader_readsFields hbits (by omega)))

theorem fetchItem_of_fieldIs {i : Instr} (hp : r.phase = .tokenLoop) (hwf : i.wellFormed r.csw r.clw = true)
    (hi : i.isStreamItem = true) (hne : ∀ c l, i ≠ .hdr c l)
    (hbits : FieldIs u u.brPos.toNat (itemBits r.csw r.clw i))
    (hle : u.brPos.toNat + itemLength r.csw r.clw i ≤ 8 * u.inLen.toNat) :
    fetchItem r u = some (.item i (u.brPos.toNat + itemLength r.csw r.clw i)) := by
  have hlen := itemBits_length (csw := r.csw) (clw := r.clw) hi
  rw [fetchItem, hp]
  exact congrArg some (parseToken_of_readsFields hwf hi hne (inReader_readsFields hbits (by omega)))

end

/-! ### Tokens that expand -/

section
variable {o o' out : List Byte} {i : Instr} {items : List Instr}

theorem expandItems_cons : expandItems o (i :: items) = some out ↔
    ∃ o', expandItem o i = some o' ∧ expandItems o' items = some out := by
  rw [expandItems]
  cases expandItem o i <;> simp

/-- What expands is a literal or a back-reference. -/
theorem isToken_of_expandItem (h : expandItem o i = some o') : i.isStreamItem = true ∧ ∀ c l, i ≠ .hdr c l := by
  cases i with
  | lit | ref => exact ⟨rfl, by simp⟩
  | _ => cases h

theorem expandItem_length_le (h : expandItem o i = some o') : o.length ≤ o'.length := by
  cases i with
  | lit b => cases h; simp
  | ref d raw =>
    rw [expandItem] at h
    split at h
    · cases h
    · cases h; rw [copyRun_length]; omega
  | _ => cases h

theorem expandItems_length_le (h : expandItems o items = some out) : o.length ≤ out.length := by
  induction items generalizing o with
  | nil => cases h; exact Nat.le_refl _
  | cons i items ih =>
    obtain ⟨o', hi, h⟩ := expandItems_cons.1 h
    exact (expandItem_length_le hi).trans (ih h)

/-- A token that expands within the capacity goes on, in the loop (42_decoder.md R102, R103). -/
theorem tokenOutcome_of_expandItem {cap : Nat} (r : DecRegs) (h : expandItem o i = some o') (hcap : o'.length ≤ cap) :
    ∃ r', tokenOutcome cap o r i = .ok (r', o') ∧ r'.phase = r.phase := by
  cases i with
  | lit b =>
    cases h
    refine ⟨{ r with opcode := 1 }, if_neg ?_, rfl⟩
    simp at hcap
    omega
  | ref d raw =>
    rw [expandItem] at h
    split at h
    · cases h
    · next hd =>
      cases h
      rw [copyRun_length] at hcap
      have hd0 : d ≠ 0 := fun h0 => hd (.inl (by rw [h0]; rfl))
      refine ⟨{ latchFields d raw r with i := copyLength raw }, ?_, rfl⟩
      rw [tokenOutcome, opcodeZeroOutcome, if_neg hd0, if_neg fun hlt => hd (.inr hlt), if_neg (by omega)]
  | _ => cases h

end

/-! ### The run over a stream -/

section
variable {s u : State} {csw clw : Nibble} {raw : BitVec 15} {out : List Byte} {fin : Nat}

/-- The end of a DECODE from `s` that put out `out` as `m`, its stream `csw`, `clw` ending at bit `fin`. -/
def streamDecoded (s : State) (csw clw : Nibble) (out : List Byte) (fin : Nat) (m : Memory) : State :=
  complete (BitVec.ofNat 32 (ceil8 fin / 8 - s.arg0.toNat))
    { s with hdrCsw := csw, hdrClw := clw, outMem := m, outLen := BitVec.ofNat 32 out.length,
             brPos := BitVec.ofNat 35 (ceil8 fin) }

/-- `OUT` of `s` with its first bytes replaced by those of `o`. -/
def OverlaysOut (s : State) (m : Memory) (o : List Byte) : Prop :=
  (∀ k, k < o.length → memRead m k = o[k]?) ∧ ∀ k, o.length ≤ k → memRead m k = memRead s.outMem k

/-- DECODE from `s` with the registers `r`, the cursor at `p` and `o` put out as `m`, its header `csw`, `clw` read. -/
def streamState (s : State) (csw clw : Nibble) (r : DecRegs) (p : Nat) (m : Memory) (o : List Byte) : State :=
  decoderAt r p m o.length { s with hdrCsw := csw, hdrClw := clw }

/-- That DECODE runs from ARG0, and the bytes of `OUT` above its output are those of `s`. -/
structure StreamAt (s : State) (csw clw : Nibble) (r : DecRegs) (p : Nat) (m : Memory) (o : List Byte) : Prop where
  dec : Decoding (streamState s csw clw r p m o) r o
  start : r.start = s.arg0
  kept : ∀ k, o.length ≤ k → memRead m k = memRead s.outMem k

/-- The rest of the stream: the well-formed tokens `rest`, which take the output from `o` to `out`, and a terminator,
whose bits stand in `IN` from `p` to `fin`. -/
structure StreamRest (s : State) (csw clw : Nibble) (raw : BitVec 15) (out : List Byte) (fin p : Nat) (o : List Byte)
    (rest : List Instr) : Prop where
  wf : ∀ i ∈ rest, i.wellFormed csw clw = true
  expands : expandItems o rest = some out
  bits : FieldIs s p (rest.flatMap (itemBits csw clw) ++ itemBits csw clw (.endStream raw))
  fin_eq : p + (rest.flatMap (itemBits csw clw) ++ itemBits csw clw (.endStream raw)).length = fin

/-- The states of a DECODE from the issued state `s` over a stream that ends at bit `fin` and expands to `out`: at the
start, in the token loop before the tokens `rest`, after the terminator, and at the end. -/
inductive StreamRun (s : State) (csw clw : Nibble) (raw : BitVec 15) (out : List Byte) (fin : Nat) : State → Prop where
  | start : StreamRun s csw clw raw out fin (beginDecode s)
  | loop (r : DecRegs) (p : Nat) (m : Memory) (o : List Byte) (rest : List Instr) (hat : StreamAt s csw clw r p m o)
      (hp : r.phase = .tokenLoop) (hrest : StreamRest s csw clw raw out fin p o rest) :
      StreamRun s csw clw raw out fin (streamState s csw clw r p m o)
  | exiting (r : DecRegs) (m : Memory) (hat : StreamAt s csw clw r fin m out) (hp : r.phase = .done) :
      StreamRun s csw clw raw out fin (streamState s csw clw r fin m out)
  | ended (m : Memory) (hover : OverlaysOut s m out) :
      StreamRun s csw clw raw out fin (streamDecoded s csw clw out fin m)

/-- The header's step. -/
theorem StreamRun.step_start {items : List Instr} (hc : s.cfg.outCap < 2 ^ 32)
    (hwf : ∀ i ∈ items, i.wellFormed csw clw = true) (hexp : expandItems [] items = some out)
    (hfit : fin ≤ 8 * s.inLen.toNat) (hfin : 8 * s.arg0.toNat + (streamBitsOf csw clw items raw).length = fin)
    (hbits : FieldIs s (8 * s.arg0.toNat) (streamBitsOf csw clw items raw)) :
    ∃ v, engineStep (beginDecode s) = .next v ∧ StreamRun s csw clw raw out fin v := by
  have hdec : Decoding (beginDecode s) (DecRegs.init s.arg0) [] := Decoding.begin hc
  have hpos : (beginDecode s).brPos.toNat = 8 * s.arg0.toNat := hdec.header rfl
  have hin := s.inLen.isLt
  rw [streamBitsOf, List.append_assoc] at hbits hfin
  obtain ⟨hhdr, hrest⟩ := fieldIs_append.1 hbits
  have hlen : (itemBits csw clw (.hdr csw clw)).length = 8 := itemBits_length rfl
  rw [hlen] at hrest
  rw [List.length_append, hlen] at hfin
  have hf : fetchItem (DecRegs.init s.arg0) (beginDecode s) = some (.item (.hdr csw clw) _) :=
    fetchItem_hdr (csw := csw) (clw := clw) rfl (hpos.symm ▸ (fieldIs_congr rfl).2 hhdr)
      (hpos.symm ▸ show 8 * s.arg0.toNat + 8 ≤ 8 * s.inLen.toNat by omega)
  obtain ⟨hstep, hdec'⟩ := hdec.step_header hf
  have hstate : afterHeader csw clw (DecRegs.init s.arg0) (beginDecode s) =
      streamState s csw clw { DecRegs.init s.arg0 with phase := .tokenLoop, csw := csw, clw := clw }
        (8 * s.arg0.toNat + 8) s.outMem [] := by
    rw [← hpos]; rfl
  rw [hstate] at hstep hdec'
  exact ⟨_, hstep, .loop _ _ s.outMem [] items ⟨hdec', rfl, fun _ _ => rfl⟩ rfl ⟨hwf, hexp, hrest, by omega⟩⟩

/-- The step of a well-formed token that goes on. -/
theorem StreamAt.step {r r' : DecRegs} {p : Nat} {m : Memory} {o o' : List Byte} {i : Instr}
    (hat : StreamAt s csw clw r p m o) (hp : r.phase = .tokenLoop) (hwf : i.wellFormed csw clw = true)
    (hi : i.isStreamItem = true) (hne : ∀ c l, i ≠ .hdr c l) (hbits : FieldIs s p (itemBits csw clw i))
    (hle : p + itemLength csw clw i ≤ 8 * s.inLen.toNat) (hok : tokenOutcome s.cfg.outCap o r i = .ok (r', o'))
    (hgrows : o.length ≤ o'.length) :
    ∃ m', engineStep (streamState s csw clw r p m o) =
        .next (streamState s csw clw r' (p + itemLength csw clw i) m' o') ∧
      StreamAt s csw clw r' (p + itemLength csw clw i) m' o' := by
  obtain ⟨hdec, hstart, hmem⟩ := hat
  obtain ⟨-, hcsw, hclw⟩ := hdec.loop (by simp [hp])
  obtain rfl : csw = r.csw := hcsw
  obtain rfl : clw = r.clw := hclw
  have hin := s.inLen.isLt
  have hpos : (streamState s r.csw r.clw r p m o).brPos.toNat = p := toNat_ofNat35 (by omega)
  have hf : fetchItem r (streamState s r.csw r.clw r p m o) = some (.item i _) :=
    fetchItem_of_fieldIs hp hwf hi hne (hpos.symm ▸ (fieldIs_congr rfl).2 hbits) (hpos.symm ▸ hle)
  have hans := hdec.step_token hp hf
  rw [hpos] at hf hans
  rw [show (streamState s r.csw r.clw r p m o).cfg = s.cfg from rfl, hok] at hans
  obtain ⟨m', hstep, hout, hcap, hkept⟩ := hans
  obtain ⟨-, hs', -⟩ := tokenOutcome_ok hok hp
  exact ⟨m', hstep, hdec.after_token hp hf hok hout hcap, hs'.trans hstart,
    fun k hk => (hkept k hk).trans (hmem k (hgrows.trans hk))⟩

/-- The step of the next token, or of the terminator. -/
theorem StreamRun.step_loop {r : DecRegs} {p : Nat} {m : Memory} {o : List Byte} {rest : List Instr}
    (hcap : out.length ≤ s.cfg.outCap) (hend : (Instr.endStream raw).wellFormed csw clw = true)
    (hfit : fin ≤ 8 * s.inLen.toNat) (hat : StreamAt s csw clw r p m o) (hp : r.phase = .tokenLoop)
    (hrest : StreamRest s csw clw raw out fin p o rest) :
    ∃ v, engineStep (streamState s csw clw r p m o) = .next v ∧ StreamRun s csw clw raw out fin v := by
  obtain ⟨hwf, hexp, hbits, hfin⟩ := hrest
  cases rest with
  | nil =>
    cases hexp
    rw [List.flatMap_nil, List.nil_append] at hbits hfin
    rw [itemBits_length rfl] at hfin
    have hok : tokenOutcome s.cfg.outCap out r (.endStream raw) =
        .ok ({ latchFields 0 raw r with phase := .done }, out) := rfl
    obtain ⟨m', hstep, hat'⟩ := hat.step hp hend rfl (by simp) hbits (hfin ▸ hfit) hok (Nat.le_refl _)
    rw [hfin] at hstep hat'
    exact ⟨_, hstep, .exiting _ m' hat' rfl⟩
  | cons i rest =>
    obtain ⟨o', hi, hexp⟩ := expandItems_cons.1 hexp
    obtain ⟨hitem, hne⟩ := isToken_of_expandItem hi
    obtain ⟨hwfi, hwf⟩ := List.forall_mem_cons.1 hwf
    rw [List.flatMap_cons, List.append_assoc] at hbits hfin
    rw [List.length_append, itemBits_length hitem] at hfin
    obtain ⟨hbitsi, hbits⟩ := fieldIs_append.1 hbits
    rw [itemBits_length hitem] at hbits
    obtain ⟨r', hok, hp'⟩ := tokenOutcome_of_expandItem r hi ((expandItems_length_le hexp).trans hcap)
    obtain ⟨m', hstep, hat'⟩ := hat.step hp hwfi hitem hne hbitsi (le_trans (by omega) hfit) hok
      (expandItem_length_le hi)
    exact ⟨_, hstep, .loop r' _ m' o' rest hat' (hp'.trans hp) ⟨hwf, hexp, hbits, by omega⟩⟩

/-- The exit's step. -/
theorem StreamRun.step_exiting {r : DecRegs} {m : Memory} (hfit : fin ≤ 8 * s.inLen.toNat)
    (hat : StreamAt s csw clw r fin m out) (hp : r.phase = .done) :
    ∃ v, engineStep (streamState s csw clw r fin m out) = .next v ∧ StreamRun s csw clw raw out fin v := by
  have hin := s.inLen.isLt
  have hpos : (BitVec.ofNat 35 fin).toNat = fin := toNat_ofNat35 (by omega)
  have hstate : exitDecode r (streamState s csw clw r fin m out) = streamDecoded s csw clw out fin m := by
    rw [exitDecode, streamState, decoderAt, hpos, hat.start]; rfl
  exact ⟨_, hstate ▸ hat.dec.step_exit (fetchItem_eq_none.2 hp), .ended m ⟨hat.dec.output.2, hat.kept⟩⟩

end

/-- Settles O39: from the start every step leads to a next state of the run over the stream, and the run ends. -/
theorem decodeExpandsItsStream : Obligations.DecodeExpandsItsStream := by
  intro s out csw clw items raw hr hlegal hwf hend hexp hcap hfit hbits
  obtain ⟨-, -, -, hbound⟩ := Config.legal_bounds hlegal
  obtain ⟨t, ht, hrun⟩ := runEngine_total (n := decodeBound (issue 0x0000000B s))
    (P := StreamRun (issue 0x0000000B s) csw clw raw out (8 * s.arg0.toNat + (streamBitsOf csw clw items raw).length))
    (fun u hu hi => by
      cases hu with
      | start => exact StreamRun.step_start (Nat.lt_of_le_of_lt hbound (by decide)) hwf hexp hfit rfl hbits
      | loop r p m o rest hat hp hrest => exact StreamRun.step_loop hcap hend hfit hat hp hrest
      | exiting r m hat hp => exact StreamRun.step_exiting hfit hat hp
      | ended => cases hi) .start
  obtain ⟨-, hidle⟩ := decodeRun_end ht
  cases hrun with
  | start => cases hidle
  | loop => cases hidle
  | exiting => cases hidle
  | ended m hover =>
    refine ⟨m, (exec_decode_of_ready hr).trans (ht.trans ?_), hover⟩
    have hceil : ceil8 (8 * s.arg0.toNat + (streamBitsOf csw clw items raw).length) =
        8 * s.arg0.toNat + ceil8 (streamBitsOf csw clw items raw).length := ceil8_add (by omega) _
    have hsize : (8 * s.arg0.toNat + ceil8 (streamBitsOf csw clw items raw).length) / 8 - s.arg0.toNat =
        ceil8 (streamBitsOf csw clw items raw).length / 8 := by omega
    rw [streamDecoded, hceil, issue_arg0, hsize]
    rfl

end Sys2Proof.Machine
end

section
/-! SUPPORT. The greedy parse (43_encoder.md R111 to R119): match extension, the search, the tokens and what they expand
to; with DECODE of a stream, the round trip. -/

namespace Sys2Proof.Machine

section
variable {L : List Byte} {cur d maxLen : Nat} {csw clw : Nibble}

/-! ### Match extension and the search -/

/-- A match extends over bytes that agree (43_encoder.md R112). -/
theorem extendMatch_agrees {fuel j k : Nat} (hj : j ≤ k) (hk : k < extendMatch L cur d fuel j) :
    L[cur - d + k]? = L[cur + k]? := by
  induction fuel generalizing j with
  | zero => rw [extendMatch] at hk; omega
  | succ fuel ih =>
    rw [extendMatch] at hk
    split at hk
    · next heq =>
      obtain rfl | hlt := Nat.eq_or_lt_of_le hj
      · exact heq
      · exact ih hlt hk
    · omega

/-- A match that stops before its bound stops at bytes that differ (43_encoder.md R112). -/
theorem extendMatch_stops {fuel j : Nat} (h : extendMatch L cur d fuel j < j + fuel) :
    L[cur - d + extendMatch L cur d fuel j]? ≠ L[cur + extendMatch L cur d fuel j]? := by
  induction fuel generalizing j with
  | zero => rw [extendMatch] at h; omega
  | succ fuel ih =>
    rw [extendMatch] at h ⊢
    split at h
    · next heq => rw [if_pos heq]; exact ih (by omega)
    · next hne => rw [if_neg hne]; exact hne

/-- Settles O44: the three facts of an extension from 0. -/
theorem matchExtendsToTheFirstMismatch : Obligations.MatchExtendsToTheFirstMismatch := by
  intro L cur maxLen d
  obtain ⟨-, hle⟩ := extendMatch_bounds L cur d maxLen 0
  exact ⟨by rwa [Nat.zero_add] at hle, fun k hk => extendMatch_agrees (Nat.zero_le k) hk,
    fun hlt => extendMatch_stops (by rwa [Nat.zero_add])⟩

/-- `b` is the best match over the candidates `1 … n`: the longest, and the nearest of the longest (43_encoder.md
R113). -/
structure BestOf (L : List Byte) (cur maxLen n : Nat) (b : Search) : Prop where
  longest : ∀ d, 1 ≤ d → d ≤ n → matchLen L cur maxLen d ≤ b.bestLength
  none : b.bestLength = 0 → b.bestDistance = 0
  found : 0 < b.bestLength →
    1 ≤ b.bestDistance ∧ b.bestDistance ≤ n ∧ matchLen L cur maxLen b.bestDistance = b.bestLength ∧
    ∀ d, 1 ≤ d → d < b.bestDistance → matchLen L cur maxLen d < b.bestLength

theorem searchAt_succ (limit : Nat) : searchAt L cur (limit + 1) maxLen =
    tryCandidate L cur maxLen (searchAt L cur limit maxLen) (1 + limit) := by
  rw [searchAt, List.range'_1_concat, List.foldl_append]
  rfl

/-- One more candidate replaces the best only where it is strictly longer (43_encoder.md R113). -/
theorem BestOf.tryCandidate {n : Nat} {b : Search} (h : BestOf L cur maxLen n b) :
    BestOf L cur maxLen (n + 1) (tryCandidate L cur maxLen b (1 + n)) := by
  unfold Machine.tryCandidate
  dsimp only
  split
  · next hgt =>
    refine ⟨fun d h1 h2 => ?_, fun h0 => ?_,
      fun _ => ⟨Nat.le_add_right .., by dsimp only; omega, rfl, fun d h1 h2 => ?_⟩⟩
    · obtain rfl | hlt := Nat.eq_or_lt_of_le h2
      · rw [Nat.add_comm n 1]
      · exact (h.longest d h1 (by omega)).trans (Nat.le_of_lt hgt)
    · exact absurd h0 (by dsimp only; omega)
    · exact Nat.lt_of_le_of_lt (h.longest d h1 (by dsimp only at h2; omega)) hgt
  · next hle =>
    refine ⟨fun d h1 h2 => ?_, h.none, fun hpos => ?_⟩
    · obtain rfl | hlt := Nat.eq_or_lt_of_le h2
      · rw [Nat.add_comm n 1]; exact Nat.not_lt.1 hle
      · exact h.longest d h1 (by omega)
    · obtain ⟨hd1, hdn, heq, hnear⟩ := h.found hpos
      exact ⟨hd1, hdn.trans (Nat.le_succ n), heq, hnear⟩

theorem searchAt_bestOf (L : List Byte) (cur limit maxLen : Nat) :
    BestOf L cur maxLen limit (searchAt L cur limit maxLen) := by
  induction limit with
  | zero => exact ⟨fun d h1 h2 => by omega, fun _ => rfl, fun hpos => absurd hpos (Nat.lt_irrefl 0)⟩
  | succ limit ih => rw [searchAt_succ]; exact ih.tryCandidate

/-- Settles O45. -/
theorem searchPrefersLongestThenNearest : Obligations.SearchPrefersLongestThenNearest := by
  rintro L cur limit maxLen b rfl
  obtain ⟨hlongest, hnone, hfound⟩ := searchAt_bestOf L cur limit maxLen
  exact ⟨hlongest, hnone, hfound⟩

/-! ### The tokens -/

/-- The token at one position: a back-reference to a match of at least 3 bytes within the fields' widths, or a literal
(43_encoder.md R111 to R114). -/
inductive GreedyCase (L : List Byte) (csw clw : Nibble) (cur : Nat) : Instr × Nat → Prop where
  | ref (d n : Nat) (hd1 : 1 ≤ d) (hdcur : d ≤ cur) (hdw : d < 2 ^ csw.toNat) (hn3 : 3 ≤ n)
      (hnw : n - 3 < 2 ^ clw.toNat) (hfit : n ≤ L.length - cur)
      (hmatch : ∀ k, k < n → L[cur - d + k]? = L[cur + k]?) :
      GreedyCase L csw clw cur (.ref (BitVec.ofNat 15 d) (BitVec.ofNat 15 (n - 3)), n)
  | lit : GreedyCase L csw clw cur (.lit (L.getD cur 0), 1)

theorem greedyToken_case (L : List Byte) (csw clw : Nibble) (cur : Nat) :
    GreedyCase L csw clw cur (greedyToken L csw clw cur) := by
  have hle := searchAt_le L cur (searchLimitOf csw cur) (maxMatchLenOf clw L.length cur)
  obtain ⟨-, -, hfound⟩ := searchAt_bestOf L cur (searchLimitOf csw cur) (maxMatchLenOf clw L.length cur)
  have hdcur : searchLimitOf csw cur ≤ cur := Nat.min_le_left ..
  have hdw : searchLimitOf csw cur < 2 ^ csw.toNat :=
    Nat.lt_of_le_of_lt (Nat.min_le_right ..) (Nat.sub_one_lt (Nat.two_pow_pos _).ne')
  have hnw : maxMatchLenOf clw L.length cur - 3 < 2 ^ clw.toNat := by
    have hmin : maxMatchLenOf clw L.length cur ≤ 2 ^ clw.toNat - 1 + 3 := Nat.min_le_left ..
    have hpos := Nat.two_pow_pos clw.toNat
    omega
  have hfit : maxMatchLenOf clw L.length cur ≤ L.length - cur := Nat.min_le_right ..
  rw [greedyToken]
  split
  · next h3 =>
    obtain ⟨hd1, hdl, heq, -⟩ := hfound (Nat.lt_of_lt_of_le (by decide) h3)
    refine .ref _ _ hd1 (hdl.trans hdcur) (Nat.lt_of_le_of_lt hdl hdw) h3
      (Nat.lt_of_le_of_lt (Nat.sub_le_sub_right hle 3) hnw) (hle.trans hfit) fun k hk => ?_
    exact extendMatch_agrees (Nat.zero_le k) (heq.symm ▸ hk)
  · exact .lit

/-- A value of a field of at most 15 bits is kept by 15 bits. -/
theorem toNat_ofNat15 {w : Nibble} {v : Nat} (h : v < 2 ^ w.toNat) : (BitVec.ofNat 15 v).toNat = v := by
  have hw : w.toNat ≤ 15 := by have := w.isLt; omega
  rw [BitVec.toNat_ofNat, Nat.mod_eq_of_lt (Nat.lt_of_lt_of_le h (Nat.pow_le_pow_right (by decide) hw))]

theorem greedyToken_fits (L : List Byte) (csw clw : Nibble) (cur : Nat) :
    (greedyToken L csw clw cur).1.wellFormed csw clw = true ∧
      ((∃ b, (greedyToken L csw clw cur).1 = .lit b) ∨ ∃ d r, (greedyToken L csw clw cur).1 = .ref d r) := by
  have hcase := greedyToken_case L csw clw cur
  generalize greedyToken L csw clw cur = token at hcase
  obtain ⟨d, n, hd1, -, hdw, -, hnw, -⟩ | _ := hcase
  · have hd := toNat_ofNat15 hdw
    have hn := toNat_ofNat15 hnw
    have hd0 : BitVec.ofNat 15 d ≠ 0 := fun h => by
      have h0 : (BitVec.ofNat 15 d).toNat = 0 := by rw [h]; rfl
      omega
    refine ⟨?_, .inr ⟨_, _, rfl⟩⟩
    simp only [Instr.wellFormed, Bool.and_eq_true, decide_eq_true_eq]
    exact ⟨⟨hd0, hd.symm ▸ hdw⟩, hn.symm ▸ hnw⟩
  · exact ⟨rfl, .inl ⟨_, rfl⟩⟩

/-- Settles O46: every token of the parse is the token at some position. -/
theorem greedyTokensFitTheirFields : Obligations.GreedyTokensFitTheirFields := by
  intro L csw clw fuel
  induction fuel with
  | zero => intro cur i hi; cases hi
  | succ fuel ih =>
    intro cur i hi
    by_cases hc : cur < L.length
    · rw [greedyTokens_succ fuel hc] at hi
      obtain rfl | hi := List.mem_cons.1 hi
      · exact greedyToken_fits L csw clw cur
      · exact ih _ i hi
    · rw [greedyTokens_of_length_le _ (Nat.not_lt.1 hc)] at hi
      cases hi

/-! ### What the tokens expand to -/

theorem take_append_getD (hc : cur < L.length) : L.take cur ++ [L.getD cur 0] = L.take (cur + 1) := by
  rw [List.take_succ_eq_append_getElem hc, List.getD_eq_getElem?_getD, List.getElem?_eq_getElem hc]
  rfl

/-- A copy of a match gives the bytes it matches (42_decoder.md R102, 43_encoder.md R112). -/
theorem copyRun_take {n : Nat} (hd1 : 1 ≤ d) (hd : d ≤ cur) (hn : cur + n ≤ L.length)
    (h : ∀ k, k < n → L[cur - d + k]? = L[cur + k]?) : copyRun d n (L.take cur) = L.take (cur + n) := by
  induction n generalizing cur with
  | zero => rfl
  | succ n ih =>
    have hlen : (L.take cur).length = cur := List.length_take_of_le (by omega)
    have hbyte : (L.take cur).getD (cur - d) 0 = L.getD cur 0 := by
      have h0 := h 0 (Nat.succ_pos n)
      rw [List.getD_eq_getElem?_getD, List.getElem?_take_of_lt (by omega), List.getD_eq_getElem?_getD]
      exact congrArg (·.getD 0) h0
    rw [copyRun, hlen, hbyte, take_append_getD (by omega), ih (by omega) (by omega) fun k hk => ?_]
    · congr 1; omega
    · have hk1 := h (k + 1) (by omega)
      rw [show cur + 1 - d + k = cur - d + (k + 1) by omega, hk1]
      congr 1; omega

/-- A greedy token expands the input up to its position to the input past the bytes it covers. -/
theorem expandItem_greedyToken (csw clw : Nibble) (hc : cur < L.length) :
    expandItem (L.take cur) (greedyToken L csw clw cur).1 = some (L.take (cur + (greedyToken L csw clw cur).2)) := by
  have hcase := greedyToken_case L csw clw cur
  generalize greedyToken L csw clw cur = token at hcase
  obtain ⟨d, n, hd1, hdcur, hdw, hn3, hnw, hfit, hmatch⟩ | _ := hcase
  · have hlen : (L.take cur).length = cur := List.length_take_of_le (by omega)
    rw [expandItem, toNat_ofNat15 hdw, toNat_ofNat15 hnw, hlen, if_neg (by omega), Nat.sub_add_cancel hn3,
      copyRun_take hd1 hdcur (by omega) hmatch]
  · rw [expandItem, take_append_getD hc]

theorem expandItems_greedyTokens (csw clw : Nibble) {fuel : Nat} (hc : cur ≤ L.length) (hf : L.length ≤ cur + fuel) :
    expandItems (L.take cur) (greedyTokens L csw clw fuel cur) = some L := by
  induction fuel generalizing cur with
  | zero => rw [greedyTokens, expandItems, List.take_of_length_le (i := cur) hf]
  | succ fuel ih =>
    by_cases hlt : cur < L.length
    · obtain ⟨h1, h2⟩ := greedyToken_advances csw clw hlt
      rw [greedyTokens_succ fuel hlt, expandItems_cons]
      exact ⟨_, expandItem_greedyToken csw clw hlt, ih h2 (by omega)⟩
    · rw [greedyTokens_of_length_le _ (Nat.not_lt.1 hlt), expandItems, List.take_of_length_le (Nat.not_lt.1 hlt)]

/-- Settles O47: from position 0, with the input's length as fuel. -/
theorem greedyTokensExpandToTheInput : Obligations.GreedyTokensExpandToTheInput :=
  fun _ csw clw => expandItems_greedyTokens (cur := 0) csw clw (Nat.zero_le _) (Nat.zero_add _).ge

end

/-! ### ENCODE commits the selected trial -/

/-- A sweep selects one trial (43_encoder.md R116). -/
theorem IsSelected.unique {L : List Byte} {xs : List (Nibble × Nibble)} {k l : Nat} {p q : Nibble × Nibble}
    (h : IsSelected L xs k p) (h' : IsSelected L xs l q) : p = q := by
  have hsize := h.size_eq h'
  obtain hlt | rfl | hgt := Nat.lt_trichotomy k l
  · have := (h'.2 k p h.1).2 hlt
    omega
  · exact Option.some.inj (h.1.symm.trans h'.1)
  · have := (h.2 l q h'.1).2 hgt
    omega

theorem trialStream_length (L : List Byte) (p : Nibble × Nibble) :
    (trialStream L p).length = 8 * trialSize L p := by
  have hmod : (trialStream L p).length % 8 = 0 := twPad_length_mod _
  rw [trialSize]
  omega

/-- Settles O48: ENCODE is the finish of the selected trial, and within the limit that is its commit. -/
theorem encodeCommitsTheSelectedTrial : Obligations.EncodeCommitsTheSelectedTrial := by
  intro s L k p hr _ hin hsel hle
  obtain ⟨b, e, t, hb, hfin, hexec⟩ := exec_encode_of_input hr hin
  obtain rfl : p = (b.csw, b.clw) := hsel.unique hb.selected
  refine ⟨memWriteList s.outMem 0 (twBytes b.tw), ?_, fun a ha => ?_, fun a ha => ?_⟩
  · rw [hexec]
    obtain ⟨hover, -⟩ | ⟨-, -, rfl⟩ := finishEncode_eq_next.1 hfin
    · exact absurd (hb.size ▸ hover) (Nat.not_lt.2 hle)
    · rw [twBytes, packBytes_length_div, hb.tw]
      rfl
  · rw [hb.tw]
    exact (memRead_memWriteList_twBytes ..).trans (if_pos ha)
  · rw [hb.tw]
    exact (memRead_memWriteList_twBytes ..).trans (if_neg (Nat.not_lt.2 ha))

/-! ### The round trip -/

/-- A trial's stream placed in `IN` decodes to its input (43_encoder.md R119 (a)). -/
theorem exec_decode_trialStream {u : State} {L : List Byte} {p : Nibble × Nibble} (hr : Ready u)
    (hlegal : u.cfg.legal = true) (hin : InputIs u (twBytes (trialStream L p))) (harg : u.arg0 = 0)
    (hcap : L.length ≤ u.cfg.outCap) :
    ∃ v, exec .decode u = .next v ∧ v.status.err = false ∧ v.result = BitVec.ofNat 32 (trialSize L p) ∧
      OutputIs v L := by
  obtain ⟨csw, clw⟩ := p
  obtain ⟨-, -, -, hbound⟩ := Config.legal_bounds hlegal
  set items := greedyTokens L csw clw L.length 0 with hitems
  have hstream : trialStream L (csw, clw) = twPad (streamBitsOf csw clw items 0) := rfl
  have hlen := trialStream_length L (csw, clw)
  have hinLen : trialSize L (csw, clw) = u.inLen.toNat := by
    rw [← hin.1, twBytes, packBytes_length hlen]
  have hceil : ceil8 (streamBitsOf csw clw items 0).length = 8 * trialSize L (csw, clw) := by
    rw [← hlen, hstream, twPad_length]
  have hle := le_ceil8 (streamBitsOf csw clw items 0).length
  have harg0 : u.arg0.toNat = 0 := by rw [harg]; rfl
  have hbits : FieldIs u 0 (streamBitsOf csw clw items 0) :=
    (fieldIs_append.1 (fieldIs_packBytes hlen hin)).1
  obtain ⟨m, hexec, hout, -⟩ := decodeExpandsItsStream u L csw clw items 0 hr hlegal
    (fun i hi => (greedyTokensFitTheirFields L csw clw L.length 0 i hi).1)
    (decide_eq_true (Nat.two_pow_pos clw.toNat)) (greedyTokensExpandToTheInput L csw clw) hcap
    (by omega) (by rw [harg0]; exact hbits)
  refine ⟨_, hexec, rfl, ?_, ?_, hout⟩
  · change BitVec.ofNat 32 (ceil8 (streamBitsOf csw clw items 0).length / 8) = _
    rw [hceil, Nat.mul_div_cancel_left _ (by decide)]
  · change L.length = (BitVec.ofNat 32 L.length).toNat
    rw [BitVec.toNat_ofNat, Nat.mod_eq_of_lt (by omega)]

/-- Settles O50: the bytes ENCODE leaves are the selected trial's stream, which decodes to its input. -/
theorem decodeUndoesEncode : Obligations.DecodeUndoesEncode := by
  intro s t u L C hrs hslegal hsin hexec herr hout hru hulegal huin harg hcap
  obtain ⟨-, -, -, hbound⟩ := Config.legal_bounds hslegal
  obtain ⟨b, e, t', hb, hfin, hexec'⟩ := exec_encode_of_input hrs hsin
  rw [hexec'] at hexec
  cases hexec
  obtain ⟨-, rfl⟩ | ⟨-, hfit, rfl⟩ := finishEncode_eq_next.1 hfin
  · cases herr
  have hC : C = twBytes (trialStream L (b.csw, b.clw)) := by
    have hlen : (BitVec.ofNat 32 (twBytes b.tw).length).toNat = (twBytes b.tw).length := by
      rw [BitVec.toNat_ofNat, Nat.mod_eq_of_lt]
      exact Nat.lt_of_le_of_lt (Nat.le_trans hfit hbound) (by decide)
    have hClen : C.length = (twBytes b.tw).length := hout.1.trans hlen
    rw [← hb.tw]
    apply List.ext_getElem?
    intro k
    by_cases hk : k < C.length
    · rw [← hout.2 k hk]
      refine (memRead_memWriteList _ _ _ _).trans ?_
      rw [if_pos (by omega), Nat.sub_zero]
    · rw [List.getElem?_eq_none (Nat.not_lt.1 hk), List.getElem?_eq_none (by omega)]
  obtain ⟨v, hv, hok, hresult, hvout⟩ := exec_decode_trialStream hru hulegal (hC ▸ huin) harg hcap
  refine ⟨v, hv, hok, ?_, hvout⟩
  rw [hresult, complete_result, hb.tw]
  rfl

end Sys2Proof.Machine
end
